-- ==== Sys2Proof/Word.lean ====
section
/-! DEFINITION. The word types of the trufflex86 block: a code or data byte, a 64-bit register, address or program
counter (R7: XLEN, PCLEN and ALEN are 64), and a general register's number (R7: NGPR is 16). -/

namespace Sys2Proof

/-- One byte of code or data (R62). -/
abbrev Byte := BitVec 8

/-- A 64-bit register, program counter or virtual address (R7). -/
abbrev Word := BitVec 64

/-- The number of a general register, 0 to 15 (R22). -/
abbrev RegNum := Fin 16

end Sys2Proof
end

