-- ==== Sys2Proof/Config.lean ====
section
/-! DEFINITION. What an implementation or the block's environment fixes (the open parameters of R7), the free values
of R13 (`draw()`), and the types those parameters speak about: the address space of R61 and the syscall port of R220
and R221. An `opaque` constant has no body: nothing can be proved about its value, so a theorem holds for every value. -/

namespace Sys2Proof

/-! ## The address space as data (R60 to R63) -/

/-- The protection bits of a region (R61). -/
structure Protection where
  read  : Bool
  write : Bool
  exec  : Bool
  deriving DecidableEq, Repr, Inhabited

/-- A region covers the addresses `base` to `base + size - 1`, compared unsigned (R61). Its backing store is the part
of `Memory.cells` in that range (log entry 6). -/
structure Region where
  base : Nat
  size : Nat
  prot : Protection
  deriving DecidableEq, Repr, Inhabited

/-- The virtual address space (R60): the region map, in rising order of base, and the bytes of the regions that differ
from `blankByte`, in rising order of address. -/
structure Memory where
  regions : List Region
  cells   : List Host.Cell
  deriving DecidableEq, Repr, Inhabited

/-- The region operations of R84, which the host and the syscall collaborator use. -/
inductive MemoryAction where
  /-- `allocate`: a new region, its address chosen by the collaborator -/
  | allocate (r : Region)
  /-- `protect(base, size, r,w,x)` -/
  | protect (base size : Nat) (prot : Protection)
  /-- `unmap` of the addresses `base` to `base + size - 1` -/
  | unmap (base size : Nat)
  /-- a write of region contents, first byte at `a` -/
  | write (a : Word) (bytes : List Byte)
  deriving DecidableEq, Repr, Inhabited

/-! ## The syscall port as data (R220, R221) -/

/-- What SYSCALL hands to the collaborator: the number from rax, the arguments from rdi, rsi, rdx, r10, r8 and r9, and
the instruction's address and length (R220). -/
structure SyscallRequest where
  nr   : Word
  arg0 : Word
  arg1 : Word
  arg2 : Word
  arg3 : Word
  arg4 : Word
  arg5 : Word
  pc   : Word
  size : Word
  deriving DecidableEq, Repr, Inhabited

/-- The collaborator's answer (R221): a 64-bit result, or the end of the process with a 32-bit code. -/
inductive SyscallResult where
  | ret (v : Word)
  | exitProcess (code : BitVec 32)
  deriving DecidableEq, Repr, Inhabited

/-- An answer together with what the collaborator did to memory (R221: through the operations of R84 only). -/
structure SyscallAnswer where
  result  : SyscallResult
  actions : List MemoryAction
  deriving DecidableEq, Repr, Inhabited

/-! ## Free values (R13) -/

/-- `draw()` of one bit: AF after AND, OR and XOR (R153). The argument is the state's draw counter. -/
opaque Config.drawBit : Nat → Bool

/-- `draw()` of 64 bits: rcx and r11 after SYSCALL (R220). The argument is the state's draw counter. -/
opaque Config.drawWord : Nat → Word

/-- `SYSCALL_HOST` (R221), a relation: at each value of the draw counter it may answer the same request on the same
memory differently. -/
opaque Config.syscallHost : Nat → SyscallRequest → Memory → SyscallAnswer

/-! ## Open parameters (R7) -/

/-- The register lengths R37 allows. -/
inductive VecLen where
  | v128
  | v256
  | v512
  deriving DecidableEq, Repr, Inhabited

def VecLen.bits : VecLen → Nat
  | .v128 => 128
  | .v256 => 256
  | .v512 => 512

/-- What a write through a narrow vector view does to the bits above it (R38). -/
inductive NarrowWrite where
  | preserve
  | zero
  deriving DecidableEq, Repr, Inhabited

/-- How many vector registers there are beyond sixteen (R7: NVEC is in [16, 32]). -/
opaque Config.vecExtra : Fin 17

/-- `NVEC` (R7, R37). -/
def Config.NVEC : Nat := 16 + Config.vecExtra.val

/-- `VLEN` (R7, R37). -/
opaque Config.VLEN : VecLen

/-- `VEC_NARROW_WRITE` (R7, R38). -/
opaque Config.VEC_NARROW_WRITE : NarrowWrite

/-- The nine flag bits of the packed flags word: 0, 2, 4, 6, 7, 10, 11, 18 and 21 (R31). -/
def Config.flagBits : Word := 0x240CD5#64

/-- The open 64-bit mask that `FLAGS_FIXED` is made from. -/
opaque Config.flagsFixedMask : Word

/-- `FLAGS_FIXED` (R31): any mask whose nine flag bits are clear. -/
def Config.FLAGS_FIXED : Word := Config.flagsFixedMask &&& ~~~Config.flagBits

/-- `MAXLEN` (R7): the longest admitted instruction, as R7 and R91 state it. No rule limits a length by it (R91: "the
spec states no length-limit rule"), and the decoder does not read it: `maxLen` says what the decoder reads (log entry
24). -/
def Config.MAXLEN : Nat := 14

/-- `PAGE_SIZE` (R7). The block never reads it (R77): no definition of the model uses it. -/
opaque Config.PAGE_SIZE : Nat

end Sys2Proof
end

