-- ==== Sys2Proof/Syntax.lean ====
section
/-! DEFINITION. The instruction type: one constructor for each row of spec/opcode_table.json, over the structured
fields of an encoding (R90): prefixes, REX, register numbers, addressing form, immediate. A term keeps every choice an
encoding makes, prefix order, unused REX bits (R109) and the scale of an absent index (R102) among them, so that an
instruction's bytes and length are functions of the term (log entry 15, DESIGN CHOICE, safe). -/

namespace Sys2Proof

/-- The legacy prefixes the decoder accepts: 0x66, 0x67, 0x64, 0x65 (R90, R94). -/
inductive LegacyPrefix where
  | opsize
  | addrsize
  | segFS
  | segGS
  deriving DecidableEq, Repr

/-- The four bits of a REX byte (R95). -/
structure Rex where
  w : Bool
  r : Bool
  x : Bool
  b : Bool
  deriving DecidableEq, Repr

/-- The prefixes of an instruction: the legacy prefixes in their order, then REX or none (R90). -/
structure Pfx where
  legacy : List LegacyPrefix
  rex    : Option Rex
  deriving DecidableEq, Repr

/-- The segment overrides with a base (R142). -/
inductive Seg where
  | FS
  | GS
  deriving DecidableEq, Repr

/-- The operand sizes `osz` of R14. -/
inductive OSize where
  | o8
  | o16
  | o32
  | o64
  deriving DecidableEq, Repr

/-- `osz` in bits (R14). -/
abbrev OSize.bits : OSize → Nat
  | .o8 => 8
  | .o16 => 16
  | .o32 => 32
  | .o64 => 64

/-- The memory width `osz/8` in bytes (R14). -/
abbrev OSize.bytes : OSize → Nat
  | .o8 => 1
  | .o16 => 2
  | .o32 => 4
  | .o64 => 8

/-- A displacement field: absent, disp8 or disp32 (R103, R105). -/
inductive Disp where
  | none
  | d8 (v : BitVec 8)
  | d32 (v : BitVec 32)
  deriving DecidableEq, Repr

/-- The memory forms of ModRM with mod not 11 (R101 to R104), with the 3-bit register fields before REX extension. -/
inductive MemForm where
  /-- no SIB byte: base `rm` -/
  | base (rm : BitVec 3) (disp : Disp)
  /-- SIB byte with a base -/
  | sib (scale : BitVec 2) (index base : BitVec 3) (disp : Disp)
  /-- SIB byte with mod 00 and base field 101: no base, disp32 -/
  | sibNoBase (scale : BitVec 2) (index : BitVec 3) (disp : BitVec 32)
  /-- mod 00, rm 101: RIP-relative -/
  | ripRel (disp : BitVec 32)
  deriving DecidableEq, Repr

/-- An r/m operand: a register (mod 11) or a memory form (R100). -/
inductive RM where
  | reg (rm : BitVec 3)
  | mem (m : MemForm)
  deriving DecidableEq, Repr

/-- An immediate whose length depends on the operand size: iw, id or io (R108). -/
inductive Imm where
  | i16 (v : BitVec 16)
  | i32 (v : BitVec 32)
  | i64 (v : BitVec 64)
  deriving DecidableEq, Repr

/-- The eight operations that ModRM.reg selects in the groups 80, 81 and 83 (R97). -/
inductive AluOp where
  | add
  | or
  | adc
  | sbb
  | and
  | sub
  | xor
  | cmp
  deriving DecidableEq, Repr

/-- The sixteen condition codes, in the order of their code (R193). -/
inductive Cond where
  | o
  | no
  | b
  | ae
  | e
  | ne
  | be
  | a
  | s
  | ns
  | p
  | np
  | l
  | ge
  | le
  | g
  deriving DecidableEq, Repr

/-- The instructions: one constructor for each row of opcode_table.json, in the table's order. -/
inductive Instr where
  /-- ADD r/m8, imm8: 80 /0 ib (R155) -/
  | addRm8Imm8 (p : Pfx) (dst : RM) (imm : BitVec 8)
  /-- OR r/m8, imm8: 80 /1 ib (R156) -/
  | orRm8Imm8 (p : Pfx) (dst : RM) (imm : BitVec 8)
  /-- ADC r/m8, imm8: 80 /2 ib (R157) -/
  | adcRm8Imm8 (p : Pfx) (dst : RM) (imm : BitVec 8)
  /-- SBB r/m8, imm8: 80 /3 ib (R158) -/
  | sbbRm8Imm8 (p : Pfx) (dst : RM) (imm : BitVec 8)
  /-- AND r/m8, imm8: 80 /4 ib (R159) -/
  | andRm8Imm8 (p : Pfx) (dst : RM) (imm : BitVec 8)
  /-- SUB r/m8, imm8: 80 /5 ib (R160) -/
  | subRm8Imm8 (p : Pfx) (dst : RM) (imm : BitVec 8)
  /-- XOR r/m8, imm8: 80 /6 ib (R161) -/
  | xorRm8Imm8 (p : Pfx) (dst : RM) (imm : BitVec 8)
  /-- CMP r/m8, imm8: 80 /7 ib (R162) -/
  | cmpRm8Imm8 (p : Pfx) (dst : RM) (imm : BitVec 8)
  /-- ADD r/m, imm16/32: 81 /0 iw or id (R155) -/
  | addRmImm (p : Pfx) (dst : RM) (imm : Imm)
  /-- OR r/m, imm16/32: 81 /1 iw or id (R156) -/
  | orRmImm (p : Pfx) (dst : RM) (imm : Imm)
  /-- ADC r/m, imm16/32: 81 /2 iw or id (R157) -/
  | adcRmImm (p : Pfx) (dst : RM) (imm : Imm)
  /-- SBB r/m, imm16/32: 81 /3 iw or id (R158) -/
  | sbbRmImm (p : Pfx) (dst : RM) (imm : Imm)
  /-- AND r/m, imm16/32: 81 /4 iw or id (R159) -/
  | andRmImm (p : Pfx) (dst : RM) (imm : Imm)
  /-- SUB r/m, imm16/32: 81 /5 iw or id (R160) -/
  | subRmImm (p : Pfx) (dst : RM) (imm : Imm)
  /-- XOR r/m, imm16/32: 81 /6 iw or id (R161) -/
  | xorRmImm (p : Pfx) (dst : RM) (imm : Imm)
  /-- CMP r/m, imm16/32: 81 /7 iw or id (R162) -/
  | cmpRmImm (p : Pfx) (dst : RM) (imm : Imm)
  /-- ADD r/m, imm8 sign-extended: 83 /0 ib (R155) -/
  | addRmImm8 (p : Pfx) (dst : RM) (imm : BitVec 8)
  /-- OR r/m, imm8 sign-extended: 83 /1 ib (R156) -/
  | orRmImm8 (p : Pfx) (dst : RM) (imm : BitVec 8)
  /-- ADC r/m, imm8 sign-extended: 83 /2 ib (R157) -/
  | adcRmImm8 (p : Pfx) (dst : RM) (imm : BitVec 8)
  /-- SBB r/m, imm8 sign-extended: 83 /3 ib (R158) -/
  | sbbRmImm8 (p : Pfx) (dst : RM) (imm : BitVec 8)
  /-- AND r/m, imm8 sign-extended: 83 /4 ib (R159) -/
  | andRmImm8 (p : Pfx) (dst : RM) (imm : BitVec 8)
  /-- SUB r/m, imm8 sign-extended: 83 /5 ib (R160) -/
  | subRmImm8 (p : Pfx) (dst : RM) (imm : BitVec 8)
  /-- XOR r/m, imm8 sign-extended: 83 /6 ib (R161) -/
  | xorRmImm8 (p : Pfx) (dst : RM) (imm : BitVec 8)
  /-- CMP r/m, imm8 sign-extended: 83 /7 ib (R162) -/
  | cmpRmImm8 (p : Pfx) (dst : RM) (imm : BitVec 8)
  /-- XOR r/m8, r8: 30 (R161) -/
  | xorRm8R8 (p : Pfx) (dst : RM) (src : BitVec 3)
  /-- XOR r/m, r: 31 (R161) -/
  | xorRmR (p : Pfx) (dst : RM) (src : BitVec 3)
  /-- XOR r8, r/m8: 32 (R161) -/
  | xorR8Rm8 (p : Pfx) (dst : BitVec 3) (src : RM)
  /-- XOR r, r/m: 33 (R161) -/
  | xorRRm (p : Pfx) (dst : BitVec 3) (src : RM)
  /-- INC r/m8: FE /0 (R163) -/
  | incRm8 (p : Pfx) (dst : RM)
  /-- INC r/m: FF /0 (R163) -/
  | incRm (p : Pfx) (dst : RM)
  /-- MOV r/m8, r8: 88 (R180) -/
  | movRm8R8 (p : Pfx) (dst : RM) (src : BitVec 3)
  /-- MOV r/m, r: 89 (R180) -/
  | movRmR (p : Pfx) (dst : RM) (src : BitVec 3)
  /-- MOV r8, r/m8: 8A (R181) -/
  | movR8Rm8 (p : Pfx) (dst : BitVec 3) (src : RM)
  /-- MOV r, r/m: 8B (R181) -/
  | movRRm (p : Pfx) (dst : BitVec 3) (src : RM)
  /-- MOV r8, imm8: B0+r ib (R182) -/
  | movR8Imm8 (p : Pfx) (dst : BitVec 3) (imm : BitVec 8)
  /-- MOV r, imm: B8+r iw, id or io (R182) -/
  | movRImm (p : Pfx) (dst : BitVec 3) (imm : Imm)
  /-- MOV r/m8, imm8: C6 /0 ib (R183) -/
  | movRm8Imm8 (p : Pfx) (dst : RM) (imm : BitVec 8)
  /-- MOV r/m, imm: C7 /0 iw or id (R183) -/
  | movRmImm (p : Pfx) (dst : RM) (imm : Imm)
  /-- LEA r, m: 8D (R185) -/
  | leaRM (p : Pfx) (dst : BitVec 3) (src : MemForm)
  /-- JMP rel8: EB (R191) -/
  | jmpRel8 (rel : BitVec 8)
  /-- JMP rel32: E9 (R191) -/
  | jmpRel32 (rel : BitVec 32)
  /-- JO rel8: 70 (R194) -/
  | joRel8 (rel : BitVec 8)
  /-- JNO rel8: 71 (R195) -/
  | jnoRel8 (rel : BitVec 8)
  /-- JB rel8: 72 (R196) -/
  | jbRel8 (rel : BitVec 8)
  /-- JAE rel8: 73 (R197) -/
  | jaeRel8 (rel : BitVec 8)
  /-- JE rel8: 74 (R198) -/
  | jeRel8 (rel : BitVec 8)
  /-- JNE rel8: 75 (R199) -/
  | jneRel8 (rel : BitVec 8)
  /-- JBE rel8: 76 (R200) -/
  | jbeRel8 (rel : BitVec 8)
  /-- JA rel8: 77 (R201) -/
  | jaRel8 (rel : BitVec 8)
  /-- JS rel8: 78 (R202) -/
  | jsRel8 (rel : BitVec 8)
  /-- JNS rel8: 79 (R203) -/
  | jnsRel8 (rel : BitVec 8)
  /-- JP rel8: 7A (R204) -/
  | jpRel8 (rel : BitVec 8)
  /-- JNP rel8: 7B (R205) -/
  | jnpRel8 (rel : BitVec 8)
  /-- JL rel8: 7C (R206) -/
  | jlRel8 (rel : BitVec 8)
  /-- JGE rel8: 7D (R207) -/
  | jgeRel8 (rel : BitVec 8)
  /-- JLE rel8: 7E (R208) -/
  | jleRel8 (rel : BitVec 8)
  /-- JG rel8: 7F (R209) -/
  | jgRel8 (rel : BitVec 8)
  /-- JO rel32: 0F 80 (R194) -/
  | joRel32 (rel : BitVec 32)
  /-- JNO rel32: 0F 81 (R195) -/
  | jnoRel32 (rel : BitVec 32)
  /-- JB rel32: 0F 82 (R196) -/
  | jbRel32 (rel : BitVec 32)
  /-- JAE rel32: 0F 83 (R197) -/
  | jaeRel32 (rel : BitVec 32)
  /-- JE rel32: 0F 84 (R198) -/
  | jeRel32 (rel : BitVec 32)
  /-- JNE rel32: 0F 85 (R199) -/
  | jneRel32 (rel : BitVec 32)
  /-- JBE rel32: 0F 86 (R200) -/
  | jbeRel32 (rel : BitVec 32)
  /-- JA rel32: 0F 87 (R201) -/
  | jaRel32 (rel : BitVec 32)
  /-- JS rel32: 0F 88 (R202) -/
  | jsRel32 (rel : BitVec 32)
  /-- JNS rel32: 0F 89 (R203) -/
  | jnsRel32 (rel : BitVec 32)
  /-- JP rel32: 0F 8A (R204) -/
  | jpRel32 (rel : BitVec 32)
  /-- JNP rel32: 0F 8B (R205) -/
  | jnpRel32 (rel : BitVec 32)
  /-- JL rel32: 0F 8C (R206) -/
  | jlRel32 (rel : BitVec 32)
  /-- JGE rel32: 0F 8D (R207) -/
  | jgeRel32 (rel : BitVec 32)
  /-- JLE rel32: 0F 8E (R208) -/
  | jleRel32 (rel : BitVec 32)
  /-- JG rel32: 0F 8F (R209) -/
  | jgRel32 (rel : BitVec 32)
  /-- CALL rel32: E8 (R210) -/
  | callRel32 (rel : BitVec 32)
  /-- RET: C3 (R211) -/
  | ret
  /-- SYSCALL: 0F 05 (R220) -/
  | syscall
  deriving DecidableEq, Repr

end Sys2Proof
end

