-- ==== Sys2Proof/Decode.lean ====
section
/-! DEFINITION. The decoder, total on every byte string (R92, R117), and after it the encoder. The decoder scans the
bytes into a latch of raw fields (R41, R90) in the order of R94 to R112, stopping at the first verdict (R235), and then
builds the instruction from the latch. The encoder lays an instruction's latch out as the fields of R90. -/

namespace Sys2Proof

/-! ## Byte order and bit fields -/

/-- The number that bytes in address order stand for, little-endian (R65). -/
def leNat : List Byte → Nat
  | [] => 0
  | b :: bs => b.toNat + 256 * leNat bs

/-- Little-endian bytes as a value of `w` bits (R65, R105, R108). -/
def leVal (w : Nat) (bs : List Byte) : BitVec w := BitVec.ofNat w (leNat bs)

/-- The low `n` bytes of a value in address order, little-endian (R65). -/
def leBytes {w : Nat} : Nat → BitVec w → List Byte
  | 0, _ => []
  | n + 1, v => v.setWidth 8 :: leBytes n (v >>> 8)

/-- The byte of a legacy prefix (R90). -/
def LegacyPrefix.byte : LegacyPrefix → Byte
  | .opsize => 0x66
  | .addrsize => 0x67
  | .segFS => 0x64
  | .segGS => 0x65

/-- The accepted legacy prefix a byte is, if it is one (R94). -/
def LegacyPrefix.ofByte (b : Byte) : Option LegacyPrefix :=
  if b = 0x66 then some .opsize
  else if b = 0x67 then some .addrsize
  else if b = 0x64 then some .segFS
  else if b = 0x65 then some .segGS
  else none

/-- LOCK, REPNE, REP and the null segment overrides: legacy prefixes that are refused (R94). -/
def isRefusedPrefix (b : Byte) : Bool :=
  b == 0xF0 || b == 0xF2 || b == 0xF3 || b == 0x26 || b == 0x2E || b == 0x36 || b == 0x3E

/-- A byte of the REX pattern 0100 WRXB (R95). -/
def isRexByte (b : Byte) : Bool := b.extractLsb' 4 4 == 4#4

/-- The fields of a REX byte (R95). -/
def Rex.ofByte (b : Byte) : Rex :=
  { w := b.getLsbD 3, r := b.getLsbD 2, x := b.getLsbD 1, b := b.getLsbD 0 }

/-- The byte of a REX prefix (R95). -/
def Rex.byte (r : Rex) : Byte :=
  4#4 ++ BitVec.ofBool r.w ++ BitVec.ofBool r.r ++ BitVec.ofBool r.x ++ BitVec.ofBool r.b

/-- The mod field of a ModRM byte (R100). -/
def modOf (m : Byte) : BitVec 2 := m.extractLsb' 6 2

/-- The reg field of a ModRM byte (R100), and the index field of a SIB byte (R102). -/
def regOf (m : Byte) : BitVec 3 := m.extractLsb' 3 3

/-- The rm field of a ModRM byte (R100), and the base field of a SIB byte (R102). -/
def rmOf (m : Byte) : BitVec 3 := m.extractLsb' 0 3

/-- A ModRM byte, or a SIB byte, from its three fields (R90). -/
def fieldsByte (hi : BitVec 2) (mid low : BitVec 3) : Byte := hi ++ mid ++ low

/-! ## What the prefixes mean -/

/-- `opsz16` (R94). -/
def Pfx.opsz16 (p : Pfx) : Bool := p.legacy.contains .opsize

/-- `adsz32` (R94): the address size is 32 when it is set, and 64 otherwise (R107). -/
def Pfx.adsz32 (p : Pfx) : Bool := p.legacy.contains .addrsize

/-- The segment override (R94, R142). -/
def Pfx.seg (p : Pfx) : Option Seg :=
  if p.legacy.contains .segFS then some .FS
  else if p.legacy.contains .segGS then some .GS
  else none

/-- `rex.present` (R95). -/
def Pfx.rexPresent (p : Pfx) : Bool := p.rex.isSome

/-- The REX bits, 0 without a REX byte (R95). -/
def Pfx.bits (p : Pfx) : Rex := p.rex.getD { w := false, r := false, x := false, b := false }

/-- The operand size of a form that is no byte form (R107). -/
def Pfx.osz (p : Pfx) : OSize :=
  if p.bits.w then .o64 else if p.opsz16 then .o16 else .o32

/-- A 4-bit register number: a REX bit over a 3-bit field (R106). -/
def regNum (ext : Bool) (low : BitVec 3) : RegNum := (BitVec.ofBool ext ++ low).toFin

/-! ## Rows of the opcode maps -/

/-- The operation that an opcode extension selects in 80, 81 and 83 (R97). -/
def AluOp.ofExt (e : BitVec 3) : AluOp :=
  if e = 0 then .add else if e = 1 then .or else if e = 2 then .adc else if e = 3 then .sbb
  else if e = 4 then .and else if e = 5 then .sub else if e = 6 then .xor else .cmp

/-- The opcode extension of an operation (R97). -/
def AluOp.ext : AluOp → BitVec 3
  | .add => 0
  | .or => 1
  | .adc => 2
  | .sbb => 3
  | .and => 4
  | .sub => 5
  | .xor => 6
  | .cmp => 7

/-- The condition of a condition code (R193). -/
def Cond.ofCode (c : BitVec 4) : Cond :=
  if c = 0 then .o
  else if c = 1 then .no
  else if c = 2 then .b
  else if c = 3 then .ae
  else if c = 4 then .e
  else if c = 5 then .ne
  else if c = 6 then .be
  else if c = 7 then .a
  else if c = 8 then .s
  else if c = 9 then .ns
  else if c = 10 then .p
  else if c = 11 then .np
  else if c = 12 then .l
  else if c = 13 then .ge
  else if c = 14 then .le
  else .g

/-- The condition code of a condition (R193). -/
def Cond.code : Cond → BitVec 4
  | .o => 0
  | .no => 1
  | .b => 2
  | .ae => 3
  | .e => 4
  | .ne => 5
  | .be => 6
  | .a => 7
  | .s => 8
  | .ns => 9
  | .p => 10
  | .np => 11
  | .l => 12
  | .ge => 13
  | .le => 14
  | .g => 15

/-- The row of group 80 with an operation (R97). -/
def instr80 : AluOp → Pfx → RM → BitVec 8 → Instr
  | .add => .addRm8Imm8
  | .or => .orRm8Imm8
  | .adc => .adcRm8Imm8
  | .sbb => .sbbRm8Imm8
  | .and => .andRm8Imm8
  | .sub => .subRm8Imm8
  | .xor => .xorRm8Imm8
  | .cmp => .cmpRm8Imm8

/-- The row of group 81 with an operation (R97). -/
def instr81 : AluOp → Pfx → RM → Imm → Instr
  | .add => .addRmImm
  | .or => .orRmImm
  | .adc => .adcRmImm
  | .sbb => .sbbRmImm
  | .and => .andRmImm
  | .sub => .subRmImm
  | .xor => .xorRmImm
  | .cmp => .cmpRmImm

/-- The row of group 83 with an operation (R97). -/
def instr83 : AluOp → Pfx → RM → BitVec 8 → Instr
  | .add => .addRmImm8
  | .or => .orRmImm8
  | .adc => .adcRmImm8
  | .sbb => .sbbRmImm8
  | .and => .andRmImm8
  | .sub => .subRmImm8
  | .xor => .xorRmImm8
  | .cmp => .cmpRmImm8

/-- The rel8 row of a condition (R193). -/
def instrJcc8 : Cond → BitVec 8 → Instr
  | .o => .joRel8
  | .no => .jnoRel8
  | .b => .jbRel8
  | .ae => .jaeRel8
  | .e => .jeRel8
  | .ne => .jneRel8
  | .be => .jbeRel8
  | .a => .jaRel8
  | .s => .jsRel8
  | .ns => .jnsRel8
  | .p => .jpRel8
  | .np => .jnpRel8
  | .l => .jlRel8
  | .ge => .jgeRel8
  | .le => .jleRel8
  | .g => .jgRel8

/-- The rel32 row of a condition (R193). -/
def instrJcc32 : Cond → BitVec 32 → Instr
  | .o => .joRel32
  | .no => .jnoRel32
  | .b => .jbRel32
  | .ae => .jaeRel32
  | .e => .jeRel32
  | .ne => .jneRel32
  | .be => .jbeRel32
  | .a => .jaRel32
  | .s => .jsRel32
  | .ns => .jnsRel32
  | .p => .jpRel32
  | .np => .jnpRel32
  | .l => .jlRel32
  | .ge => .jgeRel32
  | .le => .jleRel32
  | .g => .jgRel32

/-- The forms of the opcode maps of R97 and R98. -/
inductive OpForm where
  | grp80
  | grp81
  | grp83
  | grpC6
  | grpC7
  | grpFE
  | grpFF
  | xor30
  | xor31
  | xor32
  | xor33
  | mov88
  | mov89
  | mov8A
  | mov8B
  | lea8D
  | movB0 (r : BitVec 3)
  | movB8 (r : BitVec 3)
  | jcc8 (c : Cond)
  | jcc32 (c : Cond)
  | jmp8
  | jmp32
  | call32
  | ret
  | syscall
  deriving DecidableEq, Repr

/-- The one-byte opcode map (R97). -/
def oneByteForm (op : Byte) : Option OpForm :=
  if op = 0x30 then some .xor30
  else if op = 0x31 then some .xor31
  else if op = 0x32 then some .xor32
  else if op = 0x33 then some .xor33
  else if op.extractLsb' 4 4 = 0x7#4 then some (.jcc8 (.ofCode (op.extractLsb' 0 4)))
  else if op = 0x80 then some .grp80
  else if op = 0x81 then some .grp81
  else if op = 0x83 then some .grp83
  else if op = 0x88 then some .mov88
  else if op = 0x89 then some .mov89
  else if op = 0x8A then some .mov8A
  else if op = 0x8B then some .mov8B
  else if op = 0x8D then some .lea8D
  else if op.extractLsb' 3 5 = 0x16#5 then some (.movB0 (op.extractLsb' 0 3))
  else if op.extractLsb' 3 5 = 0x17#5 then some (.movB8 (op.extractLsb' 0 3))
  else if op = 0xC3 then some .ret
  else if op = 0xC6 then some .grpC6
  else if op = 0xC7 then some .grpC7
  else if op = 0xE8 then some .call32
  else if op = 0xE9 then some .jmp32
  else if op = 0xEB then some .jmp8
  else if op = 0xFE then some .grpFE
  else if op = 0xFF then some .grpFF
  else none

/-- The two-byte opcode map, keyed by the byte after 0x0F (R98). -/
def twoByteForm (op : Byte) : Option OpForm :=
  if op = 0x05 then some .syscall
  else if op.extractLsb' 4 4 = 0x8#4 then some (.jcc32 (.ofCode (op.extractLsb' 0 4)))
  else none

/-- The forms with a ModRM byte (R97, R98). -/
def OpForm.hasModrm : OpForm → Bool
  | .movB0 _ | .movB8 _ | .jcc8 _ | .jcc32 _ | .jmp8 | .jmp32 | .call32 | .ret | .syscall => false
  | .grp80 | .grp81 | .grp83 | .grpC6 | .grpC7 | .grpFE | .grpFF | .xor30 | .xor31 | .xor32 | .xor33
  | .mov88 | .mov89 | .mov8A | .mov8B | .lea8D => true

/-- The byte forms: their operand size is 8 (R97, R107). -/
def OpForm.byteForm : OpForm → Bool
  | .grp80 | .grpC6 | .grpFE | .xor30 | .xor32 | .mov88 | .mov8A | .movB0 _ => true
  | .grp81 | .grp83 | .grpC7 | .grpFF | .xor31 | .xor33 | .mov89 | .mov8B | .lea8D | .movB8 _
  | .jcc8 _ | .jcc32 _ | .jmp8 | .jmp32 | .call32 | .ret | .syscall => false

/-- The operand size of a form under its prefixes (R107). -/
def OpForm.osz (f : OpForm) (p : Pfx) : OSize := if f.byteForm then .o8 else p.osz

/-- The values of ModRM.reg that are rows: all, but only 0 in C6, C7, FE and FF (R99). -/
def OpForm.extAdmitted (f : OpForm) (ext : BitVec 3) : Bool :=
  match f with
  | .grpC6 | .grpC7 | .grpFE | .grpFF => ext == 0
  | .grp80 | .grp81 | .grp83 | .xor30 | .xor31 | .xor32 | .xor33 | .mov88 | .mov89 | .mov8A | .mov8B
  | .lea8D | .movB0 _ | .movB8 _ | .jcc8 _ | .jcc32 _ | .jmp8 | .jmp32 | .call32 | .ret | .syscall => true

/-- LEA with mod = 11, which is illegal (R113). -/
def OpForm.illegalMod (f : OpForm) (mod : BitVec 2) : Bool := f == .lea8D && mod == 3

/-- The length of iw or id (R108). -/
def immWLen : OSize → Nat
  | .o8 => 1
  | .o16 => 2
  | .o32 => 4
  | .o64 => 4

/-- The length of the immediate (R108). -/
def OpForm.immLen (f : OpForm) (k : OSize) : Nat :=
  match f with
  | .grp80 | .grp83 | .grpC6 | .movB0 _ | .jcc8 _ | .jmp8 => 1
  | .grp81 | .grpC7 => immWLen k
  | .movB8 _ => k.bytes
  | .jcc32 _ | .jmp32 | .call32 => 4
  | .grpFE | .grpFF | .xor30 | .xor31 | .xor32 | .xor33 | .mov88 | .mov89 | .mov8A | .mov8B | .lea8D
  | .ret | .syscall => 0

/-- The prefix applicability table (R112). `isReg` says that the r/m operand is a register (mod = 11). -/
def OpForm.pfxAllowed (f : OpForm) (p : Pfx) (isReg : Bool) : Bool :=
  match f with
  | .jcc8 _ | .jcc32 _ | .jmp8 | .jmp32 | .call32 | .ret | .syscall => p.legacy.isEmpty && !p.rexPresent
  | .movB0 _ => p.legacy.isEmpty
  | .movB8 _ => !p.adsz32 && p.seg.isNone
  | .lea8D => p.seg.isNone
  | .grp80 | .grpC6 | .grpFE | .xor30 | .xor32 | .mov88 | .mov8A =>
    !p.opsz16 && (!isReg || (!p.adsz32 && p.seg.isNone))
  | .grp81 | .grp83 | .grpC7 | .grpFF | .xor31 | .xor33 | .mov89 | .mov8B =>
    !isReg || (!p.adsz32 && p.seg.isNone)

/-! ## The latch -/

/-- The per-instruction latch of R41: the raw fields of R90, each as far as it has been captured. The
operand-size, address-size and segment-override bits of R41 are `Pfx.opsz16`, `Pfx.adsz32` and `Pfx.seg` of the
prefixes captured. -/
structure Latch where
  pfx    : Pfx
  opcode : List Byte
  modrm  : Option Byte
  sib    : Option Byte
  disp   : List Byte
  imm    : List Byte
  deriving DecidableEq, Repr

/-- The cleared latch (R41). -/
def Latch.empty : Latch :=
  { pfx := { legacy := [], rex := none }, opcode := [], modrm := none, sib := none, disp := [], imm := [] }

/-- The bytes of an instruction, field by field in the order of R90. -/
def Latch.bytes (l : Latch) : List Byte :=
  l.pfx.legacy.map LegacyPrefix.byte ++ (l.pfx.rex.map Rex.byte).toList ++ l.opcode ++ l.modrm.toList
    ++ l.sib.toList ++ l.disp ++ l.imm

/-- The displacement field of a mod (R103). -/
def Disp.ofBytes (mod : BitVec 2) (bs : List Byte) : Disp :=
  if mod = 1 then .d8 (leVal 8 bs) else if mod = 2 then .d32 (leVal 32 bs) else .none

/-- The memory form of a ModRM byte with mod not 11 (R101 to R104). -/
def MemForm.ofLatch (l : Latch) : MemForm :=
  let m := l.modrm.getD 0
  let s := l.sib.getD 0
  if rmOf m = 4 then
    if modOf m = 0 ∧ rmOf s = 5 then .sibNoBase (modOf s) (regOf s) (leVal 32 l.disp)
    else .sib (modOf s) (regOf s) (rmOf s) (.ofBytes (modOf m) l.disp)
  else if modOf m = 0 ∧ rmOf m = 5 then .ripRel (leVal 32 l.disp)
  else .base (rmOf m) (.ofBytes (modOf m) l.disp)

/-- The r/m operand of a ModRM byte (R100). -/
def RM.ofLatch (l : Latch) : RM :=
  let m := l.modrm.getD 0
  if modOf m = 3 then .reg (rmOf m) else .mem (.ofLatch l)

/-- The iw, id or io immediate, of the length it was read with (R108). -/
def Imm.ofBytes (bs : List Byte) : Imm :=
  if bs.length = 2 then .i16 (leVal 16 bs)
  else if bs.length = 4 then .i32 (leVal 32 bs)
  else .i64 (leVal 64 bs)

/-- The instruction that a form and its captured fields are (R110). -/
def OpForm.build (f : OpForm) (l : Latch) : Instr :=
  let p := l.pfx
  let reg := regOf (l.modrm.getD 0)
  match f with
  | .grp80 => instr80 (.ofExt reg) p (.ofLatch l) (leVal 8 l.imm)
  | .grp81 => instr81 (.ofExt reg) p (.ofLatch l) (.ofBytes l.imm)
  | .grp83 => instr83 (.ofExt reg) p (.ofLatch l) (leVal 8 l.imm)
  | .grpC6 => .movRm8Imm8 p (.ofLatch l) (leVal 8 l.imm)
  | .grpC7 => .movRmImm p (.ofLatch l) (.ofBytes l.imm)
  | .grpFE => .incRm8 p (.ofLatch l)
  | .grpFF => .incRm p (.ofLatch l)
  | .xor30 => .xorRm8R8 p (.ofLatch l) reg
  | .xor31 => .xorRmR p (.ofLatch l) reg
  | .xor32 => .xorR8Rm8 p reg (.ofLatch l)
  | .xor33 => .xorRRm p reg (.ofLatch l)
  | .mov88 => .movRm8R8 p (.ofLatch l) reg
  | .mov89 => .movRmR p (.ofLatch l) reg
  | .mov8A => .movR8Rm8 p reg (.ofLatch l)
  | .mov8B => .movRRm p reg (.ofLatch l)
  | .lea8D => .leaRM p reg (.ofLatch l)
  | .movB0 r => .movR8Imm8 p r (leVal 8 l.imm)
  | .movB8 r => .movRImm p r (.ofBytes l.imm)
  | .jcc8 c => instrJcc8 c (leVal 8 l.imm)
  | .jcc32 c => instrJcc32 c (leVal 32 l.imm)
  | .jmp8 => .jmpRel8 (leVal 8 l.imm)
  | .jmp32 => .jmpRel32 (leVal 32 l.imm)
  | .call32 => .callRel32 (leVal 32 l.imm)
  | .ret => .ret
  | .syscall => .syscall

/-! ## The scan -/

/-- The decoder's own refusals (R118). -/
inductive DecodeRefusal where
  | opcodeNotAdmitted
  | groupMemberNotAdmitted
  | prefixNotAdmitted
  | duplicatePrefix
  | legacyPrefixAfterRex
  | prefixNotApplicable
  deriving DecidableEq, Repr

/-- How a stage of the decoder ends on the bytes it was given: with a result and the bytes it has not read; with the
verdict illegal or refused at the last byte it read (R114, R118); or by needing a byte past the end (R93). -/
inductive Scan (α : Type) where
  | ok (a : α) (rest : List Byte)
  | illegal (rest : List Byte)
  | refused (r : DecodeRefusal)
  | more
  deriving DecidableEq, Repr

/-- One stage after another: the first verdict wins (R235). -/
def Scan.andThen {α β : Type} (x : Scan α) (f : α → List Byte → Scan β) : Scan β :=
  match x with
  | .ok a rest => f a rest
  | .illegal rest => .illegal rest
  | .refused r => .refused r
  | .more => .more

/-- The next byte (R93). -/
def scanByte : List Byte → Scan Byte
  | [] => .more
  | b :: bs => .ok b bs

/-- The next `n` bytes (R93). -/
def scanBytes : Nat → List Byte → Scan (List Byte)
  | 0, bs => .ok [] bs
  | n + 1, bs => (scanByte bs).andThen fun b bs => (scanBytes n bs).andThen fun t bs => .ok (b :: t) bs

/-- A second segment prefix, even a different one, or a second 0x67 is a duplicate (R94). -/
def isDuplicate (seen : List LegacyPrefix) (q : LegacyPrefix) : Bool :=
  match q with
  | .opsize | .addrsize => seen.contains q
  | .segFS | .segGS => seen.contains .segFS || seen.contains .segGS

/-- The legacy-prefix stage (R94): the prefixes in order, and the first byte that is none. A second 0x66 leaves the
loop and is the opcode. -/
def scanLegacy : List LegacyPrefix → List Byte → Scan (List LegacyPrefix × Byte)
  | _, [] => .more
  | seen, b :: bs =>
    match LegacyPrefix.ofByte b with
    | some q =>
      if isDuplicate seen q then
        (if q = .opsize then .ok (seen, b) bs else .refused .duplicatePrefix)
      else scanLegacy (seen ++ [q]) bs
    | none => if isRefusedPrefix b then .refused .prefixNotAdmitted else .ok (seen, b) bs

/-- The REX stage (R95): the REX prefix, if `b` is one, and the opcode byte. A second 0x66 is not in the REX
pattern, and so reaches the opcode stage. -/
def scanRex (b : Byte) (bs : List Byte) : Scan (Option Rex × Byte) :=
  if isRexByte b then
    (scanByte bs).andThen fun op bs =>
      if op ≠ 0x66 ∧ ((LegacyPrefix.ofByte op).isSome ∨ isRefusedPrefix op) then .refused .legacyPrefixAfterRex
      else .ok (some (.ofByte b), op) bs
  else .ok (none, b) bs

/-- The opcode stage (R96): the opcode bytes and the row's form. -/
def scanOpcode (op : Byte) (bs : List Byte) : Scan (List Byte × OpForm) :=
  if isRexByte op ∨ op = 0x66 then .illegal bs
  else if op = 0x0F then
    (scanByte bs).andThen fun op2 bs =>
      match twoByteForm op2 with
      | some f => .ok ([op, op2], f) bs
      | none => .refused .opcodeNotAdmitted
  else
    match oneByteForm op with
    | some f => .ok ([op], f) bs
    | none => .refused .opcodeNotAdmitted

/-- A SIB byte follows the ModRM byte (R101). -/
def needsSib (m : Byte) : Bool := modOf m ≠ 3 && rmOf m == 4

/-- The displacement length (R103). -/
def dispLen (m : Byte) (sib : Option Byte) : Nat :=
  if modOf m = 1 then 1
  else if modOf m = 2 then 4
  else if modOf m = 0 then
    (if rmOf m = 5 then 4
     else match sib with
       | some s => if rmOf m = 4 ∧ rmOf s = 5 then 4 else 0
       | none => 0)
  else 0

/-- The checks once the ModRM byte has been read. DESIGN CHOICE (log entry 13; unsafe): where several verdicts fall on
this byte, a value of ModRM.reg that is no row comes first (R99), then LEA with mod = 11 (R113), then the prefixes
(R112, checked "after the form is known"). -/
def scanModrm (f : OpForm) (p : Pfx) (bs : List Byte) : Scan Byte :=
  (scanByte bs).andThen fun m bs =>
    if ¬ f.extAdmitted (regOf m) then .refused .groupMemberNotAdmitted
    else if f.illegalMod (modOf m) then .illegal bs
    else if ¬ f.pfxAllowed p (modOf m == 3) then .refused .prefixNotApplicable
    else .ok m bs

/-- The SIB byte, when there is one (R101). -/
def scanSib (m : Byte) (bs : List Byte) : Scan (Option Byte) :=
  if needsSib m then (scanByte bs).andThen fun s bs => .ok (some s) bs else .ok none bs

/-- The fields after the opcode (R90): ModRM, SIB, displacement, immediate. -/
def scanBody (f : OpForm) (p : Pfx) (opcode : List Byte) (bs : List Byte) : Scan Latch :=
  if f.hasModrm then
    (scanModrm f p bs).andThen fun m bs =>
    (scanSib m bs).andThen fun s bs =>
    (scanBytes (dispLen m s) bs).andThen fun d bs =>
    (scanBytes (f.immLen (f.osz p)) bs).andThen fun i bs =>
      .ok { pfx := p, opcode := opcode, modrm := some m, sib := s, disp := d, imm := i } bs
  else if ¬ f.pfxAllowed p false then .refused .prefixNotApplicable
  else
    (scanBytes (f.immLen (f.osz p)) bs).andThen fun i bs =>
      .ok { pfx := p, opcode := opcode, modrm := none, sib := none, disp := [], imm := i } bs

/-- The decoder on the bytes at the program counter (R92, R94 to R112): the latch, the instruction and the bytes that
are not its own, or the first verdict. -/
def decode (bs : List Byte) : Scan (Latch × Instr) :=
  (scanLegacy [] bs).andThen fun a bs =>
  (scanRex a.2 bs).andThen fun r bs =>
  (scanOpcode r.2 bs).andThen fun o bs =>
  (scanBody o.2 { legacy := a.1, rex := r.1 } o.1 bs).andThen fun l bs =>
    .ok (l, o.2.build l) bs

/-! ## The encoder -/

/-- The mod field of a displacement (R103). -/
def Disp.mod : Disp → BitVec 2
  | .none => 0
  | .d8 _ => 1
  | .d32 _ => 2

/-- The displacement bytes (R105). -/
def Disp.bytes : Disp → List Byte
  | .none => []
  | .d8 v => leBytes 1 v
  | .d32 v => leBytes 4 v

/-- The ModRM byte of an r/m operand beside a reg field (R100 to R104). -/
def RM.modrm (reg : BitVec 3) : RM → Byte
  | .reg r => fieldsByte 3 reg r
  | .mem (.base b d) => fieldsByte d.mod reg b
  | .mem (.sib _ _ _ d) => fieldsByte d.mod reg 4
  | .mem (.sibNoBase _ _ _) => fieldsByte 0 reg 4
  | .mem (.ripRel _) => fieldsByte 0 reg 5

/-- The SIB byte of an r/m operand (R102, R103). -/
def RM.sib : RM → Option Byte
  | .reg _ => none
  | .mem (.base _ _) => none
  | .mem (.sib ss i b _) => some (fieldsByte ss i b)
  | .mem (.sibNoBase ss i _) => some (fieldsByte ss i 5)
  | .mem (.ripRel _) => none

/-- The displacement bytes of an r/m operand (R103). -/
def RM.dispBytes : RM → List Byte
  | .reg _ => []
  | .mem (.base _ d) => d.bytes
  | .mem (.sib _ _ _ d) => d.bytes
  | .mem (.sibNoBase _ _ d) => leBytes 4 d
  | .mem (.ripRel d) => leBytes 4 d

/-- The immediate's bytes (R108). -/
def Imm.bytes : Imm → List Byte
  | .i16 v => leBytes 2 v
  | .i32 v => leBytes 4 v
  | .i64 v => leBytes 8 v

/-- The fields of an instruction with a ModRM byte. -/
def modrmLatch (op : Byte) (p : Pfx) (reg : BitVec 3) (rm : RM) (imm : List Byte) : Latch :=
  { pfx := p, opcode := [op], modrm := some (rm.modrm reg), sib := rm.sib, disp := rm.dispBytes, imm := imm }

/-- The fields of an instruction without a ModRM byte. -/
def plainLatch (opcode : List Byte) (p : Pfx) (imm : List Byte) : Latch :=
  { pfx := p, opcode := opcode, modrm := none, sib := none, disp := [], imm := imm }

/-- No prefix: the only encoding of a control transfer (R112). -/
def Pfx.none : Pfx := { legacy := [], rex := Option.none }

/-- The fields of an instruction, from the opcode maps of R97 and R98. -/
def Instr.latch : Instr → Latch
  | .addRm8Imm8 p d i => modrmLatch 0x80 p (AluOp.ext .add) d (leBytes 1 i)
  | .orRm8Imm8 p d i => modrmLatch 0x80 p (AluOp.ext .or) d (leBytes 1 i)
  | .adcRm8Imm8 p d i => modrmLatch 0x80 p (AluOp.ext .adc) d (leBytes 1 i)
  | .sbbRm8Imm8 p d i => modrmLatch 0x80 p (AluOp.ext .sbb) d (leBytes 1 i)
  | .andRm8Imm8 p d i => modrmLatch 0x80 p (AluOp.ext .and) d (leBytes 1 i)
  | .subRm8Imm8 p d i => modrmLatch 0x80 p (AluOp.ext .sub) d (leBytes 1 i)
  | .xorRm8Imm8 p d i => modrmLatch 0x80 p (AluOp.ext .xor) d (leBytes 1 i)
  | .cmpRm8Imm8 p d i => modrmLatch 0x80 p (AluOp.ext .cmp) d (leBytes 1 i)
  | .addRmImm p d i => modrmLatch 0x81 p (AluOp.ext .add) d i.bytes
  | .orRmImm p d i => modrmLatch 0x81 p (AluOp.ext .or) d i.bytes
  | .adcRmImm p d i => modrmLatch 0x81 p (AluOp.ext .adc) d i.bytes
  | .sbbRmImm p d i => modrmLatch 0x81 p (AluOp.ext .sbb) d i.bytes
  | .andRmImm p d i => modrmLatch 0x81 p (AluOp.ext .and) d i.bytes
  | .subRmImm p d i => modrmLatch 0x81 p (AluOp.ext .sub) d i.bytes
  | .xorRmImm p d i => modrmLatch 0x81 p (AluOp.ext .xor) d i.bytes
  | .cmpRmImm p d i => modrmLatch 0x81 p (AluOp.ext .cmp) d i.bytes
  | .addRmImm8 p d i => modrmLatch 0x83 p (AluOp.ext .add) d (leBytes 1 i)
  | .orRmImm8 p d i => modrmLatch 0x83 p (AluOp.ext .or) d (leBytes 1 i)
  | .adcRmImm8 p d i => modrmLatch 0x83 p (AluOp.ext .adc) d (leBytes 1 i)
  | .sbbRmImm8 p d i => modrmLatch 0x83 p (AluOp.ext .sbb) d (leBytes 1 i)
  | .andRmImm8 p d i => modrmLatch 0x83 p (AluOp.ext .and) d (leBytes 1 i)
  | .subRmImm8 p d i => modrmLatch 0x83 p (AluOp.ext .sub) d (leBytes 1 i)
  | .xorRmImm8 p d i => modrmLatch 0x83 p (AluOp.ext .xor) d (leBytes 1 i)
  | .cmpRmImm8 p d i => modrmLatch 0x83 p (AluOp.ext .cmp) d (leBytes 1 i)
  | .xorRm8R8 p d r => modrmLatch 0x30 p r d []
  | .xorRmR p d r => modrmLatch 0x31 p r d []
  | .xorR8Rm8 p r m => modrmLatch 0x32 p r m []
  | .xorRRm p r m => modrmLatch 0x33 p r m []
  | .incRm8 p d => modrmLatch 0xFE p 0 d []
  | .incRm p d => modrmLatch 0xFF p 0 d []
  | .movRm8R8 p d r => modrmLatch 0x88 p r d []
  | .movRmR p d r => modrmLatch 0x89 p r d []
  | .movR8Rm8 p r m => modrmLatch 0x8A p r m []
  | .movRRm p r m => modrmLatch 0x8B p r m []
  | .movR8Imm8 p r i => plainLatch [0x16#5 ++ r] p (leBytes 1 i)
  | .movRImm p r i => plainLatch [0x17#5 ++ r] p i.bytes
  | .movRm8Imm8 p d i => modrmLatch 0xC6 p 0 d (leBytes 1 i)
  | .movRmImm p d i => modrmLatch 0xC7 p 0 d i.bytes
  | .leaRM p r m => modrmLatch 0x8D p r (.mem m) []
  | .jmpRel8 r => plainLatch [0xEB] .none (leBytes 1 r)
  | .jmpRel32 r => plainLatch [0xE9] .none (leBytes 4 r)
  | .joRel8 r => plainLatch [0x7#4 ++ Cond.code .o] .none (leBytes 1 r)
  | .jnoRel8 r => plainLatch [0x7#4 ++ Cond.code .no] .none (leBytes 1 r)
  | .jbRel8 r => plainLatch [0x7#4 ++ Cond.code .b] .none (leBytes 1 r)
  | .jaeRel8 r => plainLatch [0x7#4 ++ Cond.code .ae] .none (leBytes 1 r)
  | .jeRel8 r => plainLatch [0x7#4 ++ Cond.code .e] .none (leBytes 1 r)
  | .jneRel8 r => plainLatch [0x7#4 ++ Cond.code .ne] .none (leBytes 1 r)
  | .jbeRel8 r => plainLatch [0x7#4 ++ Cond.code .be] .none (leBytes 1 r)
  | .jaRel8 r => plainLatch [0x7#4 ++ Cond.code .a] .none (leBytes 1 r)
  | .jsRel8 r => plainLatch [0x7#4 ++ Cond.code .s] .none (leBytes 1 r)
  | .jnsRel8 r => plainLatch [0x7#4 ++ Cond.code .ns] .none (leBytes 1 r)
  | .jpRel8 r => plainLatch [0x7#4 ++ Cond.code .p] .none (leBytes 1 r)
  | .jnpRel8 r => plainLatch [0x7#4 ++ Cond.code .np] .none (leBytes 1 r)
  | .jlRel8 r => plainLatch [0x7#4 ++ Cond.code .l] .none (leBytes 1 r)
  | .jgeRel8 r => plainLatch [0x7#4 ++ Cond.code .ge] .none (leBytes 1 r)
  | .jleRel8 r => plainLatch [0x7#4 ++ Cond.code .le] .none (leBytes 1 r)
  | .jgRel8 r => plainLatch [0x7#4 ++ Cond.code .g] .none (leBytes 1 r)
  | .joRel32 r => plainLatch [0x0F, 0x8#4 ++ Cond.code .o] .none (leBytes 4 r)
  | .jnoRel32 r => plainLatch [0x0F, 0x8#4 ++ Cond.code .no] .none (leBytes 4 r)
  | .jbRel32 r => plainLatch [0x0F, 0x8#4 ++ Cond.code .b] .none (leBytes 4 r)
  | .jaeRel32 r => plainLatch [0x0F, 0x8#4 ++ Cond.code .ae] .none (leBytes 4 r)
  | .jeRel32 r => plainLatch [0x0F, 0x8#4 ++ Cond.code .e] .none (leBytes 4 r)
  | .jneRel32 r => plainLatch [0x0F, 0x8#4 ++ Cond.code .ne] .none (leBytes 4 r)
  | .jbeRel32 r => plainLatch [0x0F, 0x8#4 ++ Cond.code .be] .none (leBytes 4 r)
  | .jaRel32 r => plainLatch [0x0F, 0x8#4 ++ Cond.code .a] .none (leBytes 4 r)
  | .jsRel32 r => plainLatch [0x0F, 0x8#4 ++ Cond.code .s] .none (leBytes 4 r)
  | .jnsRel32 r => plainLatch [0x0F, 0x8#4 ++ Cond.code .ns] .none (leBytes 4 r)
  | .jpRel32 r => plainLatch [0x0F, 0x8#4 ++ Cond.code .p] .none (leBytes 4 r)
  | .jnpRel32 r => plainLatch [0x0F, 0x8#4 ++ Cond.code .np] .none (leBytes 4 r)
  | .jlRel32 r => plainLatch [0x0F, 0x8#4 ++ Cond.code .l] .none (leBytes 4 r)
  | .jgeRel32 r => plainLatch [0x0F, 0x8#4 ++ Cond.code .ge] .none (leBytes 4 r)
  | .jleRel32 r => plainLatch [0x0F, 0x8#4 ++ Cond.code .le] .none (leBytes 4 r)
  | .jgRel32 r => plainLatch [0x0F, 0x8#4 ++ Cond.code .g] .none (leBytes 4 r)
  | .callRel32 r => plainLatch [0xE8] .none (leBytes 4 r)
  | .ret => plainLatch [0xC3] .none []
  | .syscall => plainLatch [0x0F, 0x05] .none []

/-- The bytes of an instruction (R90): what the decoder reads it from. -/
def encode (i : Instr) : List Byte := i.latch.bytes

/-- The length of an instruction (R91). -/
def Instr.size (i : Instr) : Nat := (encode i).length

/-- The most bytes the decoder reads. It is one more than `Config.MAXLEN`: the lengths that R91 adds up, 3 + 1 + 1 + 1
+ 1 + 4 + 4, are reached by R91's own example with 0x66 before it, which R90, R94, R107 and R112 admit, and no rule
limits a length. DEDUCED (log entry 24; safe): the model follows those rules. -/
def maxLen : Nat := 15

/-! ## Words numbered as the opcode table numbers them -/

/-- The opcode bytes, and the ModRM byte of a form that has one, of a 24-bit opcode key K2 : K1 : K0 (R126). DEDUCED
(log entry 14; safe): the table's bits are those of the key, so K2 = 0x0F stands for the escape byte, K1 is the
opcode and K0 is the ModRM byte. -/
def keyBytes (w : Nat) : List Byte :=
  let k2 : Byte := BitVec.ofNat 8 (w / 65536)
  let k1 : Byte := BitVec.ofNat 8 (w / 256)
  let k0 : Byte := BitVec.ofNat 8 w
  if k2 = 0x0F then [k2, k1]
  else match oneByteForm k1 with
    | some f => if f.hasModrm then [k1, k0] else [k1]
    | none => [k1]

/-- The bytes of the instruction a table word stands for: the key's bytes and then zeros, up to the longest
instruction. -/
def tableBytes (nbits w : Nat) : List Byte :=
  let bs := keyBytes (w % 2 ^ nbits)
  bs ++ List.replicate (maxLen - bs.length) 0

/-- The instruction the decoder reads from a word numbered as opcode_table.json numbers it (R126). -/
def decodeTableWord (nbits w : Nat) : Option Instr :=
  if w % 2 ^ nbits / 65536 % 256 ≠ 0 ∧ w % 2 ^ nbits / 65536 % 256 ≠ 0x0F then none
  else match decode (tableBytes nbits w) with
    | .ok (_, i) _ => some i
    | .illegal _ => none
    | .refused _ => none
    | .more => none

/-! ## The opcode table (R126) -/

/-- The 24-bit opcode key of an instruction (R126). -/
def Instr.key (i : Instr) : Nat :=
  let l := i.latch
  match l.opcode with
  | [k1] => k1.toNat * 256 + (l.modrm.getD 0).toNat
  | [k2, k1] => k2.toNat * 65536 + k1.toNat * 256 + (l.modrm.getD 0).toNat
  | _ => 0

/-- A row's `match` and `mask` in opcode_table.json. -/
structure OpcodeRow where
  matchBits : Nat
  maskBits  : Nat
  deriving DecidableEq, Repr

/-- Rows 0 to 18 of opcode_table.json, in its order. -/
def opcodeRows0 : List OpcodeRow :=
  [⟨0x008000, 0xFFFF38⟩,
   ⟨0x008008, 0xFFFF38⟩,
   ⟨0x008010, 0xFFFF38⟩,
   ⟨0x008018, 0xFFFF38⟩,
   ⟨0x008020, 0xFFFF38⟩,
   ⟨0x008028, 0xFFFF38⟩,
   ⟨0x008030, 0xFFFF38⟩,
   ⟨0x008038, 0xFFFF38⟩,
   ⟨0x008100, 0xFFFF38⟩,
   ⟨0x008108, 0xFFFF38⟩,
   ⟨0x008110, 0xFFFF38⟩,
   ⟨0x008118, 0xFFFF38⟩,
   ⟨0x008120, 0xFFFF38⟩,
   ⟨0x008128, 0xFFFF38⟩,
   ⟨0x008130, 0xFFFF38⟩,
   ⟨0x008138, 0xFFFF38⟩,
   ⟨0x008300, 0xFFFF38⟩,
   ⟨0x008308, 0xFFFF38⟩,
   ⟨0x008310, 0xFFFF38⟩]

/-- Rows 19 to 37 of opcode_table.json, in its order. -/
def opcodeRows1 : List OpcodeRow :=
  [⟨0x008318, 0xFFFF38⟩,
   ⟨0x008320, 0xFFFF38⟩,
   ⟨0x008328, 0xFFFF38⟩,
   ⟨0x008330, 0xFFFF38⟩,
   ⟨0x008338, 0xFFFF38⟩,
   ⟨0x003000, 0xFFFF00⟩,
   ⟨0x003100, 0xFFFF00⟩,
   ⟨0x003200, 0xFFFF00⟩,
   ⟨0x003300, 0xFFFF00⟩,
   ⟨0x00FE00, 0xFFFF38⟩,
   ⟨0x00FF00, 0xFFFF38⟩,
   ⟨0x008800, 0xFFFF00⟩,
   ⟨0x008900, 0xFFFF00⟩,
   ⟨0x008A00, 0xFFFF00⟩,
   ⟨0x008B00, 0xFFFF00⟩,
   ⟨0x00B000, 0xFFF800⟩,
   ⟨0x00B800, 0xFFF800⟩,
   ⟨0x00C600, 0xFFFF38⟩,
   ⟨0x00C700, 0xFFFF38⟩]

/-- Rows 38 to 56 of opcode_table.json, in its order. -/
def opcodeRows2 : List OpcodeRow :=
  [⟨0x008D00, 0xFFFF00⟩,
   ⟨0x00EB00, 0xFFFF00⟩,
   ⟨0x00E900, 0xFFFF00⟩,
   ⟨0x007000, 0xFFFF00⟩,
   ⟨0x007100, 0xFFFF00⟩,
   ⟨0x007200, 0xFFFF00⟩,
   ⟨0x007300, 0xFFFF00⟩,
   ⟨0x007400, 0xFFFF00⟩,
   ⟨0x007500, 0xFFFF00⟩,
   ⟨0x007600, 0xFFFF00⟩,
   ⟨0x007700, 0xFFFF00⟩,
   ⟨0x007800, 0xFFFF00⟩,
   ⟨0x007900, 0xFFFF00⟩,
   ⟨0x007A00, 0xFFFF00⟩,
   ⟨0x007B00, 0xFFFF00⟩,
   ⟨0x007C00, 0xFFFF00⟩,
   ⟨0x007D00, 0xFFFF00⟩,
   ⟨0x007E00, 0xFFFF00⟩,
   ⟨0x007F00, 0xFFFF00⟩]

/-- Rows 57 to 75 of opcode_table.json, in its order. -/
def opcodeRows3 : List OpcodeRow :=
  [⟨0x0F8000, 0xFFFF00⟩,
   ⟨0x0F8100, 0xFFFF00⟩,
   ⟨0x0F8200, 0xFFFF00⟩,
   ⟨0x0F8300, 0xFFFF00⟩,
   ⟨0x0F8400, 0xFFFF00⟩,
   ⟨0x0F8500, 0xFFFF00⟩,
   ⟨0x0F8600, 0xFFFF00⟩,
   ⟨0x0F8700, 0xFFFF00⟩,
   ⟨0x0F8800, 0xFFFF00⟩,
   ⟨0x0F8900, 0xFFFF00⟩,
   ⟨0x0F8A00, 0xFFFF00⟩,
   ⟨0x0F8B00, 0xFFFF00⟩,
   ⟨0x0F8C00, 0xFFFF00⟩,
   ⟨0x0F8D00, 0xFFFF00⟩,
   ⟨0x0F8E00, 0xFFFF00⟩,
   ⟨0x0F8F00, 0xFFFF00⟩,
   ⟨0x00E800, 0xFFFF00⟩,
   ⟨0x00C300, 0xFFFF00⟩,
   ⟨0x0F0500, 0xFFFF00⟩]

/-- The 76 rows of opcode_table.json (R126). -/
def opcodeTable : List OpcodeRow := opcodeRows0 ++ opcodeRows1 ++ opcodeRows2 ++ opcodeRows3

/-- The place of an instruction's row in `opcodeTable`. -/
def Instr.row : Instr → Nat
  | .addRm8Imm8 _ _ _ => 0
  | .orRm8Imm8 _ _ _ => 1
  | .adcRm8Imm8 _ _ _ => 2
  | .sbbRm8Imm8 _ _ _ => 3
  | .andRm8Imm8 _ _ _ => 4
  | .subRm8Imm8 _ _ _ => 5
  | .xorRm8Imm8 _ _ _ => 6
  | .cmpRm8Imm8 _ _ _ => 7
  | .addRmImm _ _ _ => 8
  | .orRmImm _ _ _ => 9
  | .adcRmImm _ _ _ => 10
  | .sbbRmImm _ _ _ => 11
  | .andRmImm _ _ _ => 12
  | .subRmImm _ _ _ => 13
  | .xorRmImm _ _ _ => 14
  | .cmpRmImm _ _ _ => 15
  | .addRmImm8 _ _ _ => 16
  | .orRmImm8 _ _ _ => 17
  | .adcRmImm8 _ _ _ => 18
  | .sbbRmImm8 _ _ _ => 19
  | .andRmImm8 _ _ _ => 20
  | .subRmImm8 _ _ _ => 21
  | .xorRmImm8 _ _ _ => 22
  | .cmpRmImm8 _ _ _ => 23
  | .xorRm8R8 _ _ _ => 24
  | .xorRmR _ _ _ => 25
  | .xorR8Rm8 _ _ _ => 26
  | .xorRRm _ _ _ => 27
  | .incRm8 _ _ => 28
  | .incRm _ _ => 29
  | .movRm8R8 _ _ _ => 30
  | .movRmR _ _ _ => 31
  | .movR8Rm8 _ _ _ => 32
  | .movRRm _ _ _ => 33
  | .movR8Imm8 _ _ _ => 34
  | .movRImm _ _ _ => 35
  | .movRm8Imm8 _ _ _ => 36
  | .movRmImm _ _ _ => 37
  | .leaRM _ _ _ => 38
  | .jmpRel8 _ => 39
  | .jmpRel32 _ => 40
  | .joRel8 _ => 41
  | .jnoRel8 _ => 42
  | .jbRel8 _ => 43
  | .jaeRel8 _ => 44
  | .jeRel8 _ => 45
  | .jneRel8 _ => 46
  | .jbeRel8 _ => 47
  | .jaRel8 _ => 48
  | .jsRel8 _ => 49
  | .jnsRel8 _ => 50
  | .jpRel8 _ => 51
  | .jnpRel8 _ => 52
  | .jlRel8 _ => 53
  | .jgeRel8 _ => 54
  | .jleRel8 _ => 55
  | .jgRel8 _ => 56
  | .joRel32 _ => 57
  | .jnoRel32 _ => 58
  | .jbRel32 _ => 59
  | .jaeRel32 _ => 60
  | .jeRel32 _ => 61
  | .jneRel32 _ => 62
  | .jbeRel32 _ => 63
  | .jaRel32 _ => 64
  | .jsRel32 _ => 65
  | .jnsRel32 _ => 66
  | .jpRel32 _ => 67
  | .jnpRel32 _ => 68
  | .jlRel32 _ => 69
  | .jgeRel32 _ => 70
  | .jleRel32 _ => 71
  | .jgRel32 _ => 72
  | .callRel32 _ => 73
  | .ret => 74
  | .syscall => 75

end Sys2Proof
end

