-- ==== Sys2Proof/Machine/State.lean ====
section
/-! DEFINITION. The state of one emulated thread (R20, R42, R45) with its address space (R60), the reasons a step stops,
the state at launch (R43) and the reset state. -/

namespace Sys2Proof.Machine

/-! ## The CpuState aggregate -/

/-- The nine condition flags, individually addressable booleans (R20, R29). -/
structure Flags where
  CF : Bool
  PF : Bool
  AF : Bool
  ZF : Bool
  SF : Bool
  DF : Bool
  OF : Bool
  AC : Bool
  ID : Bool
  deriving DecidableEq, Repr, Inhabited

/-- The register state of one emulated thread (R20). The vector file has 32 words of 512 bits, of which the first
`NVEC` and their low `VLEN` bits exist; the rest are zero (log entry 10, DESIGN CHOICE, safe). -/
structure CpuState where
  x      : Vector Word 16
  pc     : Word
  flags  : Flags
  fsBase : Word
  gsBase : Word
  vreg   : Vector (BitVec 512) 32
  icount : Word
  deriving DecidableEq, Repr

/-! ## Outcomes -/

/-- The access kinds of a segmentation violation (R231). -/
inductive Access where
  | read
  | write
  | execute
  deriving DecidableEq, Repr

/-- The fault taxonomy (R231). The block produces the first two; `processExit` is carried by `Exit`, and the other two
are never produced by the block. -/
inductive TrapKind where
  | illegalInstruction
  | segmentationViolation
  | alignmentOrEncodingAssertion
  | processExit
  | recoverableFault
  deriving DecidableEq, Repr

/-- What a Trap records (R233). `access` is present for a segmentation violation only. -/
structure TrapInfo where
  addr   : Word
  access : Option Access
  pc     : Word
  bytes  : List Byte
  deriving DecidableEq, Repr

/-- A Trap outcome (R230). -/
structure Trap where
  kind : TrapKind
  info : TrapInfo
  deriving DecidableEq, Repr

/-- The outcome port (R230, R45): what the last step ended in, or `ready` when no step has been taken since launch or
since a host redirection (log entry 1, DESIGN CHOICE, safe). -/
inductive Port where
  | ready
  | continued (next : Word)
  | redirected (target : Word)
  | trapped (t : Trap)
  | exited (code : BitVec 32)
  deriving DecidableEq, Repr

/-- Why a step has no meaning (R118). A refused step is safe: no claim about a next state follows from it. -/
inductive Refusal where
  /-- raised by an arm of `exec` for an instruction without a meaning yet; safe -/
  | notModelled (mnemonic : String)
  /-- raised by `step` for bytes that no rule maps to an admitted row, an illegal case or a fetch fault (R118);
  safe: the spec's own refusal -/
  | decoder (r : DecodeRefusal)
  /-- raised by a store that touches an executable byte (R67, R82); safe: the spec's own refusal -/
  | selfModifyingCode
  /-- raised by a misaligned access of more than one byte while AC = 1 (R73); safe: the spec's own refusal -/
  | alignmentCheckUnmodelled
  deriving DecidableEq, Repr

/-- Why a thread takes no step (log entry 2, DEDUCED). No instruction's meaning raises one. -/
inductive Fault where
  /-- raised by `step` on a thread whose run ended in `Exit(code)` (R242); safe: the thread has no next step -/
  | threadExited (code : BitVec 32)
  /-- raised by `step` on a thread stopped by a Trap that the host has not redirected (R238); safe: the block takes no
  step until the host acts -/
  | threadTrapped (t : Trap)
  deriving DecidableEq, Repr

/-! ## The machine's state -/

/-- The state: the thread's CpuState, the address space, the decoder latch (R41), the outcome port (R230), the refusal
mark and the trap record (R42, R234), and the model's own counter of free values drawn (R13; log entry 8). -/
structure State where
  cpu         : CpuState
  mem         : Memory
  latch       : Latch
  port        : Port
  refusalMark : Option Refusal
  trapRecord  : Option Trap
  draws       : Nat
  deriving DecidableEq, Repr

/-- The result of a step in this machine. -/
abbrev StepResult := Host.Outcome State Fault Refusal

/-! ## Launch -/

/-- The loader's entry program counter and initial stack pointer, and the launch parameter `LAUNCH` (R7, R43). The
loader and the host may give any values (R272). -/
structure Launch where
  entry  : Word
  rsp    : Word
  gpr    : Vector Word 16
  flags  : Flags
  fsBase : Word
  gsBase : Word
  vreg   : Vector (BitVec 512) 32
  mem    : Memory
  deriving DecidableEq, Repr

/-- The value at launch of every piece of state (R43, R271). -/
def State.launch (l : Launch) : State :=
  { cpu :=
      { x := l.gpr.set 4 l.rsp, pc := l.entry, flags := l.flags, fsBase := l.fsBase, gsBase := l.gsBase,
        vreg := l.vreg, icount := 0 },
    mem := l.mem, latch := .empty, port := .ready, refusalMark := none, trapRecord := none, draws := 0 }

/-- All nine flags clear. -/
def Flags.clear : Flags :=
  { CF := false, PF := false, AF := false, ZF := false, SF := false, DF := false, OF := false, AC := false, ID := false }

/-- DESIGN CHOICE (log entry 3; unsafe): the launch parameter the model resets with. The spec leaves every field open. -/
def Launch.blank : Launch :=
  { entry := 0, rsp := 0, gpr := Vector.replicate 16 0, flags := .clear, fsBase := 0, gsBase := 0,
    vreg := Vector.replicate 32 0, mem := { regions := [], cells := [] } }

/-- The machine right after reset, which is launch (R270): no region, `icount` 0, latch empty, marks clear (R43), and
every value the loader supplies as log entry 3 names it. -/
def State.reset : State := .launch .blank

end Sys2Proof.Machine
end

