-- ==== Sys2Proof/Machine/Flags.lean ====
section
/-! DEFINITION. The packed flags word (R31, R32), the flag helpers of the ALU rules (R33, R150 to R153), the nine
operations (R155 to R163) and the conditions of the conditional jumps (R193). -/

namespace Sys2Proof.Machine

/-! ## The packed flags word -/

/-- A flag at its place in the flags word. -/
def flagAt (b : Bool) (i : Nat) : Word := (BitVec.ofBool b).setWidth 64 <<< i

/-- The nine flags at their places (R31). -/
def Flags.pack (f : Flags) : Word :=
  flagAt f.CF 0 ||| flagAt f.PF 2 ||| flagAt f.AF 4 ||| flagAt f.ZF 6 ||| flagAt f.SF 7 ||| flagAt f.DF 10
    ||| flagAt f.OF 11 ||| flagAt f.AC 18 ||| flagAt f.ID 21

/-- `getFlagsWord()` (R31), a host port. -/
def getFlagsWord (f : Flags) : Word := Config.FLAGS_FIXED ||| f.pack

/-- `setFlagsWord(w)` (R32): every flag from its bit, every other bit ignored. -/
def flagsOfWord (w : Word) : Flags :=
  { CF := w.getLsbD 0, PF := w.getLsbD 2, AF := w.getLsbD 4, ZF := w.getLsbD 6, SF := w.getLsbD 7,
    DF := w.getLsbD 10, OF := w.getLsbD 11, AC := w.getLsbD 18, ID := w.getLsbD 21 }

/-! ## Flag helpers -/

/-- How many of the low `n` bits of a value are one. -/
def popcount {w : Nat} (r : BitVec w) : Nat → Nat
  | 0 => 0
  | n + 1 => popcount r n + (r.getLsbD n).toNat

/-- 1 when the low byte has an even number of one bits (R33). -/
def parity {w : Nat} (r : BitVec w) : Bool := popcount r 8 % 2 == 0

/-- A result with the four flags an ALU operation computes beside ZF, SF and PF. -/
structure AluOut (w : Nat) where
  r  : BitVec w
  CF : Bool
  OF : Bool
  AF : Bool
  deriving DecidableEq, Repr

/-- An exact signed value does not fit in `w` bits. -/
def signedOverflow (w : Nat) (v : Int) : Bool := !decide (-(2 : Int) ^ (w - 1) ≤ v ∧ v ≤ (2 : Int) ^ (w - 1) - 1)

/-- `((a XOR b XOR r) >> 4) AND 1` (R151, R152). -/
def adjustFlag {w : Nat} (a b r : BitVec w) : Bool := (a ^^^ b ^^^ r).getLsbD 4

/-- Addition with carry-in (R151). -/
def addC {w : Nat} (a b : BitVec w) (c : Bool) : AluOut w :=
  let s := a.toNat + b.toNat + c.toNat
  let r := BitVec.ofNat w s
  { r := r, CF := decide (2 ^ w ≤ s), OF := signedOverflow w (a.toInt + b.toInt + c.toNat), AF := adjustFlag a b r }

/-- Subtraction with borrow-in (R152). -/
def subB {w : Nat} (a b : BitVec w) (c : Bool) : AluOut w :=
  let r := BitVec.ofInt w ((a.toNat : Int) - b.toNat - c.toNat)
  { r := r, CF := decide (a.toNat < b.toNat + c.toNat),
    OF := signedOverflow w (a.toInt - b.toInt - c.toNat), AF := adjustFlag a b r }

/-- A logical result: CF and OF are 0, and AF is the draw (R153). -/
def logical {w : Nat} (r : BitVec w) (draw : Bool) : AluOut w := { r := r, CF := false, OF := false, AF := draw }

/-- The operations of R155 to R162 on the operands' values, F.CF before the instruction, and a draw for AF. -/
def aluEval {w : Nat} (op : AluOp) (a b : BitVec w) (cf draw : Bool) : AluOut w :=
  match op with
  | .add => addC a b false
  | .or => logical (a ||| b) draw
  | .adc => addC a b cf
  | .sbb => subB a b cf
  | .and => logical (a &&& b) draw
  | .sub => subB a b false
  | .xor => logical (a ^^^ b) draw
  | .cmp => subB a b false

/-- How many draws an operation makes: one after AND, OR and XOR (R153). -/
def aluDraws : AluOp → Nat
  | .or | .and | .xor => 1
  | .add | .adc | .sbb | .sub | .cmp => 0

/-- `SZP(r, N)` (R150). -/
def Flags.szp {w : Nat} (f : Flags) (r : BitVec w) : Flags := { f with ZF := r == 0, SF := r.msb, PF := parity r }

/-- The flags after an ALU operation (R154): CF, OF, AF, ZF, SF and PF are written. -/
def Flags.afterAlu {w : Nat} (f : Flags) (o : AluOut w) : Flags :=
  { f with CF := o.CF, OF := o.OF, AF := o.AF }.szp o.r

/-- The flags after INC (R163): as after an addition, but CF is not written. -/
def Flags.afterInc {w : Nat} (f : Flags) (o : AluOut w) : Flags := { f with OF := o.OF, AF := o.AF }.szp o.r

/-! ## Conditions -/

/-- The predicate of a condition code (R193). -/
def condHolds (c : Cond) (f : Flags) : Bool :=
  match c with
  | .o => f.OF
  | .no => !f.OF
  | .b => f.CF
  | .ae => !f.CF
  | .e => f.ZF
  | .ne => !f.ZF
  | .be => f.CF || f.ZF
  | .a => !f.CF && !f.ZF
  | .s => f.SF
  | .ns => !f.SF
  | .p => f.PF
  | .np => !f.PF
  | .l => f.SF != f.OF
  | .ge => f.SF == f.OF
  | .le => f.ZF || f.SF != f.OF
  | .g => !f.ZF && f.SF == f.OF

end Sys2Proof.Machine
end

