-- ==== Sys2Proof/Machine/Ops.lean ====
section
/-! DEFINITION. The named operations over the state: register views (R23 to R25), vector views (R37, R38), the address
space (R60 to R77, R84), the access primitives (R66, R67, R70), the ways an instruction ends (R230) and taking a Trap
(R232 to R237). There is no return from a trap (R239): the host resumes a thread (Machine/HostPort.lean). -/

namespace Sys2Proof

/-! ## The address space -/

/-- What a byte of a region reads as that nothing has written. DESIGN CHOICE (log entry 5; unsafe). -/
def blankByte : Byte := 0

/-- The address after the last one of a region; at most 2^64 (R61). -/
def Region.limit (r : Region) : Nat := r.base + r.size

/-- Containment, unsigned (R61, R64). -/
def Region.holds (r : Region) (a : Nat) : Bool := decide (r.base ≤ a ∧ a < r.limit)

/-- `Region(a)` (R63): the region of an address. -/
def Memory.regionAt (m : Memory) (a : Word) : Option Region := m.regions.find? (·.holds a.toNat)

/-- The address is in some region (R62). -/
def Memory.mapped (m : Memory) (a : Word) : Bool := (m.regionAt a).isSome

/-- `Readable(a)` (R63). -/
def Memory.readable (m : Memory) (a : Word) : Bool := (m.regionAt a).any (·.prot.read)

/-- `Writable(a)` (R63). -/
def Memory.writable (m : Memory) (a : Word) : Bool := (m.regionAt a).any (·.prot.write)

/-- `Executable(a)` (R63). -/
def Memory.executable (m : Memory) (a : Word) : Bool := (m.regionAt a).any (·.prot.exec)

/-- The byte listed at an address, or `blankByte`. -/
def lookupCell (a : Nat) : List Host.Cell → Byte
  | [] => blankByte
  | c :: cs => if c.1 = a then c.2 else lookupCell a cs

/-- The cells after a byte is stored: rising order is kept, and `blankByte` is not listed. -/
def storeCell (a : Nat) (b : Byte) : List Host.Cell → List Host.Cell
  | [] => if b = blankByte then [] else [(a, b)]
  | c :: cs =>
    if c.1 < a then c :: storeCell a b cs
    else if c.1 = a then (if b = blankByte then cs else (a, b) :: cs)
    else (if b = blankByte then c :: cs else (a, b) :: c :: cs)

/-- `M[a]` (R62) of an address that is in a region. -/
def Memory.byte (m : Memory) (a : Word) : Byte := lookupCell a.toNat m.cells

/-- `M[a]` (R62): an address in no region holds nothing. -/
def Memory.byteAt (m : Memory) (a : Word) : Option Byte := if m.mapped a then some (m.byte a) else none

/-- `M[a] <- b` (R62); an address in no region holds nothing and keeps nothing. -/
def Memory.setByte (m : Memory) (a : Word) (b : Byte) : Memory :=
  if m.mapped a then { m with cells := storeCell a.toNat b m.cells } else m

/-- The `n` bytes at `a`, `a +_64 1`, ... (R66). -/
def Memory.readBytes (m : Memory) (a : Word) : Nat → List Byte
  | 0 => []
  | n + 1 => m.byte a :: m.readBytes (a + 1) n

/-- Bytes stored at `a`, `a +_64 1`, ... (R67). -/
def Memory.writeBytes (m : Memory) (a : Word) : List Byte → Memory
  | [] => m
  | b :: bs => (m.setByte a b).writeBytes (a + 1) bs

/-- The first of the `n` addresses from `a` that fails a check, in increasing offset order (R68). -/
def firstFailing (ok : Word → Bool) (a : Word) : Nat → Option Word
  | 0 => none
  | n + 1 => if ok a then firstFailing ok (a + 1) n else some a

/-- Some of the `n` addresses from `a` passes a check. -/
def someByte (ok : Word → Bool) (a : Word) : Nat → Bool
  | 0 => false
  | n + 1 => ok a || someByte ok (a + 1) n

/-! ## The region operations of the host and the collaborator (R84) -/

/-- The part of a region below `lo`. -/
def Region.below (r : Region) (lo : Nat) : List Region :=
  if r.base < min r.limit lo then [{ r with size := min r.limit lo - r.base }] else []

/-- The part of a region from `hi` up. -/
def Region.above (r : Region) (hi : Nat) : List Region :=
  if max r.base hi < r.limit then [{ r with base := max r.base hi, size := r.limit - max r.base hi }] else []

/-- The part of a region in `[lo, hi)`, with a new protection. -/
def Region.within (r : Region) (lo hi : Nat) (p : Protection) : List Region :=
  if max r.base lo < min r.limit hi then
    [{ base := max r.base lo, size := min r.limit hi - max r.base lo, prot := p }]
  else []

/-- A region put in its place in rising order of base. -/
def insertRegion (r : Region) : List Region → List Region
  | [] => [r]
  | q :: qs => if q.base < r.base then q :: insertRegion r qs else r :: q :: qs

/-- A region that may be added: it is not empty, does not wrap and overlaps no region (R61). -/
def Memory.admits (m : Memory) (r : Region) : Bool :=
  decide (0 < r.size ∧ r.limit ≤ 2 ^ 64) && m.regions.all fun q => decide (q.limit ≤ r.base ∨ r.limit ≤ q.base)

/-- An operation on the region map or on region contents (R84). DESIGN CHOICE (log entry 7; unsafe): a new region that
R61 does not admit is not made; `protect` and `unmap` of a part of a region split it; a write of contents needs no
permission and skips addresses in no region. A new region's bytes read as `blankByte`. -/
def Memory.apply (m : Memory) : MemoryAction → Memory
  | .allocate r => if m.admits r then { m with regions := insertRegion r m.regions } else m
  | .protect base size p =>
    { m with regions := m.regions.flatMap fun r =>
        if base < base + size then r.below base ++ r.within base (base + size) p ++ r.above (base + size) else [r] }
  | .unmap base size =>
    { regions := m.regions.flatMap fun r =>
        if base < base + size then r.below base ++ r.above (base + size) else [r],
      cells := m.cells.filter fun c => !decide (base ≤ c.1 ∧ c.1 < base + size) }
  | .write a bytes => m.writeBytes a bytes

/-- Operations in order. -/
def Memory.applyAll (m : Memory) (l : List MemoryAction) : Memory := l.foldl Memory.apply m

/-- The canonical form: regions not empty, not wrapping, in rising order and not overlapping (R61); cells in rising
order, none equal to `blankByte`, each in a region (R62). -/
abbrev Memory.wf (m : Memory) : Prop :=
  (∀ r ∈ m.regions, 0 < r.size ∧ r.limit ≤ 2 ^ 64) ∧
  m.regions.Pairwise (fun r q => r.limit ≤ q.base) ∧
  m.cells.Pairwise (fun c d => c.1 < d.1) ∧
  ∀ c ∈ m.cells, c.2 ≠ blankByte ∧ ∃ r ∈ m.regions, r.holds c.1

end Sys2Proof

namespace Sys2Proof.Machine

/-! ## General registers -/

/-- The width classes of a register (R14). -/
inductive RegView where
  | l8
  | h8
  | w16
  | w32
  | w64
  deriving DecidableEq, Repr

/-- The width of a view in bits (R22). -/
abbrev RegView.bits : RegView → Nat
  | .l8 => 8
  | .h8 => 8
  | .w16 => 16
  | .w32 => 32
  | .w64 => 64

/-- `x[n]` (R10). No register is hardwired (R26). -/
def State.x (s : State) (n : RegNum) : Word := s.cpu.x[n.val]

/-- `x[n] <- v` (R10). -/
def State.setX (s : State) (n : RegNum) (v : Word) : State :=
  { s with cpu := { s.cpu with x := s.cpu.x.set n.val v } }

/-- A view of a 64-bit register's value (R23). -/
def readView (v : RegView) (w : Word) : BitVec v.bits :=
  match v with
  | .l8 => w.extractLsb' 0 8
  | .h8 => w.extractLsb' 8 8
  | .w16 => w.extractLsb' 0 16
  | .w32 => w.extractLsb' 0 32
  | .w64 => w

/-- A 64-bit register's value after a view of it is written (R24, R25). -/
def writeView (v : RegView) (old : Word) (new : BitVec v.bits) : Word :=
  match v, new with
  | .l8, new => old.extractLsb' 8 56 ++ new
  | .h8, new => old.extractLsb' 16 48 ++ new ++ old.extractLsb' 0 8
  | .w16, new => old.extractLsb' 16 48 ++ new
  | .w32, new => BitVec.setWidth 64 new
  | .w64, new => new

/-- `RegRead(n, k)` (R23). -/
def State.regRead (s : State) (n : RegNum) (v : RegView) : BitVec v.bits := readView v (s.x n)

/-- `RegWrite(n, k, v)` (R24, R25). -/
def State.regWrite (s : State) (n : RegNum) (v : RegView) (new : BitVec v.bits) : State :=
  s.setX n (writeView v (s.x n) new)

/-- rax, the syscall number and result register (R22, R220). -/
def rax : RegNum := 0
/-- rcx (R22). -/
def rcx : RegNum := 1
/-- rdx (R22). -/
def rdx : RegNum := 2
/-- rsp, the stack pointer (R22, R26). -/
def rsp : RegNum := 4
/-- rsi (R22). -/
def rsi : RegNum := 6
/-- rdi (R22). -/
def rdi : RegNum := 7

/-! ## Single fields -/

def State.setFlags (s : State) (f : Flags) : State := { s with cpu := { s.cpu with flags := f } }

def State.setMem (s : State) (m : Memory) : State := { s with mem := m }

/-- Free values drawn: the counter moves on, so that no value is drawn twice (R13). -/
def State.useDraws (s : State) (n : Nat) : State := { s with draws := s.draws + n }

def State.setLatch (s : State) (l : Latch) : State := { s with latch := l }

/-- A `Refused` outcome sets the refusal mark (R230, R234). -/
def State.markRefused (s : State) (r : Refusal) : State := { s with refusalMark := some r }

/-! ## How an instruction ends (R230) -/

/-- `Continue(n)` with `icount <- icount +_64 1` (R28, R39). -/
def State.continueAt (s : State) (n : Word) : State :=
  { s with cpu := { s.cpu with pc := n, icount := s.cpu.icount + 1 }, port := .continued n }

/-- `Redirect(t)` with `icount <- icount +_64 1` (R39, R190). -/
def State.redirectTo (s : State) (t : Word) : State :=
  { s with cpu := { s.cpu with pc := t, icount := s.cpu.icount + 1 }, port := .redirected t }

/-- `Exit(code)` with `icount <- icount +_64 1` (R39, R242). `pc` does not move (R230). -/
def State.exitWith (s : State) (code : BitVec 32) : State :=
  { s with cpu := { s.cpu with icount := s.cpu.icount + 1 }, port := .exited code }

/-- The code of a trap kind (R231). -/
def TrapKind.code : TrapKind → Nat
  | .illegalInstruction => 1
  | .segmentationViolation => 2
  | .alignmentOrEncodingAssertion => 3
  | .processExit => 4
  | .recoverableFault => 5

/-- The code of an access kind (R231). -/
def Access.code : Access → Nat
  | .read => 0
  | .write => 1
  | .execute => 2

/-- Taking a Trap (R232, R234, R237): the block saves nothing, switches nothing and moves nothing. The trap record is
written, and the outcome port holds the Trap, which stops the thread until the host redirects it. -/
def State.takeTrap (s : State) (kind : TrapKind) (info : TrapInfo) : State :=
  { s with trapRecord := some { kind := kind, info := info }, port := .trapped { kind := kind, info := info } }

/-! ## The access primitives -/

/-- What stops a data access (R66, R67, R73): a failed permission check, or a refusal. -/
inductive AccessStop where
  | violation (addr : Word) (access : Access)
  | refused (r : Refusal)
  deriving DecidableEq, Repr

/-- `AlignCheck(a, n)` refuses (R73). -/
def State.alignRefused (s : State) (a : Word) (n : Nat) : Bool :=
  s.cpu.flags.AC && decide (1 < n) && decide (a.toNat % n ≠ 0)

/-- `MemRead(a, n)` (R66). A read changes no state. -/
def State.memRead (s : State) (a : Word) (k : OSize) : Except AccessStop (BitVec k.bits) :=
  if s.alignRefused a k.bytes then .error (.refused .alignmentCheckUnmodelled)
  else match firstFailing s.mem.readable a k.bytes with
    | some f => .error (.violation f .read)
    | none => .ok (leVal k.bits (s.mem.readBytes a k.bytes))

/-- `MemWrite(a, n, v)` (R67). No byte is written unless every check passes. -/
def State.memWrite (s : State) (a : Word) (k : OSize) (v : BitVec k.bits) : Except AccessStop State :=
  if s.alignRefused a k.bytes then .error (.refused .alignmentCheckUnmodelled)
  else match firstFailing s.mem.writable a k.bytes with
    | some f => .error (.violation f .write)
    | none =>
      if someByte s.mem.executable a k.bytes then .error (.refused .selfModifyingCode)
      else .ok (s.setMem (s.mem.writeBytes a (leBytes k.bytes v)))

/-- `Fetch(a)` (R70): a code byte, or none where `a` is not executable. -/
def Memory.fetch (m : Memory) (a : Word) : Option Byte := if m.executable a then some (m.byte a) else none

/-- The code bytes at `a`, `a +_64 1`, ... up to the first that `Fetch` faults on, at most `n`. The decoder reads them
in order, and only those it needs (R93). -/
def codeBytes (m : Memory) (a : Word) : Nat → List Byte
  | 0 => []
  | n + 1 => match Memory.fetch m a with
    | some b => b :: codeBytes m (a + 1) n
    | none => []

/-- A stopped access ends the instruction of bytes `bs` (R232, R233, R236): a violation as a Trap with the state
unchanged but for the trap record and the port, a refusal as a refusal. -/
def State.stopAccess (s : State) (bs : List Byte) : AccessStop → StepResult
  | .violation a k =>
    .next (s.takeTrap .segmentationViolation { addr := a, access := some k, pc := s.cpu.pc, bytes := bs })
  | .refused r => .refused r

/-- The address of the next instruction, `pc +_64 size` (R28). -/
def State.nextPc (s : State) (bs : List Byte) : Word := s.cpu.pc + BitVec.ofNat 64 bs.length

/-! ## Vector views -/

/-- A view exists when its register does and it is no wider than `VLEN` (R37). -/
def vecViewExists (j : Fin 32) (v : VecLen) : Bool := decide (j.val < Config.NVEC ∧ v.bits ≤ Config.VLEN.bits)

/-- A read through a view: the low bits of the canonical storage, fresh (R37, R278). -/
def vecRead (c : CpuState) (j : Fin 32) (v : VecLen) : Option (BitVec v.bits) :=
  if vecViewExists j v then some (c.vreg[j.val].setWidth v.bits) else none

/-- A write through a view: its bits, and above them what `VEC_NARROW_WRITE` says (R38). A view that does not exist
is not written. -/
def vecWrite (c : CpuState) (j : Fin 32) (v : VecLen) (new : BitVec v.bits) : CpuState :=
  if vecViewExists j v then
    let kept : BitVec 512 :=
      match Config.VEC_NARROW_WRITE with
      | .preserve => c.vreg[j.val] >>> v.bits <<< v.bits
      | .zero => 0
    { c with vreg := c.vreg.set j.val (kept ||| new.setWidth 512) }
  else c

end Sys2Proof.Machine
end

