-- ==== Sys2Proof/Machine/Operands.lean ====
section
/-! DEFINITION. Operand resolution (R130 to R138) and the effective-address datapath (R139 to R145). The variants `VReg`
and `SReg` of R130 appear in no admitted row and are never resolved (R136), so they are not built (log entry 19). -/

namespace Sys2Proof.Machine

/-- The memory operand of R130. Its size in bytes is the operand size's (R146). -/
structure MemOperand where
  seg   : Option Seg
  base  : Option RegNum
  index : Option RegNum
  scale : BitVec 2
  disp  : Word
  ripRel : Bool
  asz32 : Bool
  deriving DecidableEq, Repr

/-- An operand (R130). -/
inductive Operand where
  | reg (n : RegNum) (v : RegView)
  | mem (o : MemOperand)
  | imm (v : Word)
  deriving DecidableEq, Repr

/-! ## From the instruction's fields to operands -/

/-- `Sel8(n, rexPresent)` (R27). -/
def sel8 (n : RegNum) (rexPresent : Bool) : RegNum × RegView :=
  if ¬ rexPresent ∧ 4 ≤ n.val ∧ n.val ≤ 7 then (n - 4, .h8) else (n, .l8)

/-- `RegView(n, osz)` (R131). -/
def regView (p : Pfx) (k : OSize) (n : RegNum) : RegNum × RegView :=
  match k with
  | .o8 => sel8 n p.rexPresent
  | .o16 => (n, .w16)
  | .o32 => (n, .w32)
  | .o64 => (n, .w64)

/-- A register operand (R131). -/
def regOperand (p : Pfx) (k : OSize) (n : RegNum) : Operand := .reg (regView p k n).1 (regView p k n).2

/-- The operand of ModRM.reg (R106). -/
def regField (p : Pfx) (k : OSize) (reg : BitVec 3) : Operand := regOperand p k (regNum p.bits.r reg)

/-- The operand of the register field of B0+r and B8+r (R106). -/
def opcodeReg (p : Pfx) (k : OSize) (r : BitVec 3) : Operand := regOperand p k (regNum p.bits.b r)

/-- The displacement, sign-extended (R105). -/
def dispValue : Disp → Word
  | .none => 0
  | .d8 v => v.signExtend 64
  | .d32 v => v.signExtend 64

/-- The index register; number 4 means no index (R102, R106). -/
def indexReg (p : Pfx) (idx : BitVec 3) : Option RegNum :=
  if regNum p.bits.x idx = 4 then none else some (regNum p.bits.x idx)

/-- The memory operand of an addressing form (R101 to R107). -/
def memOperand (p : Pfx) : MemForm → MemOperand
  | .base b d =>
    { seg := p.seg, base := some (regNum p.bits.b b), index := none, scale := 0, disp := dispValue d,
      ripRel := false, asz32 := p.adsz32 }
  | .sib ss i b d =>
    { seg := p.seg, base := some (regNum p.bits.b b), index := indexReg p i, scale := ss, disp := dispValue d,
      ripRel := false, asz32 := p.adsz32 }
  | .sibNoBase ss i d =>
    { seg := p.seg, base := none, index := indexReg p i, scale := ss, disp := d.signExtend 64,
      ripRel := false, asz32 := p.adsz32 }
  | .ripRel d =>
    { seg := p.seg, base := none, index := none, scale := 0, disp := d.signExtend 64,
      ripRel := true, asz32 := p.adsz32 }

/-- The r/m operand (R100). -/
def rmOperand (p : Pfx) (k : OSize) : RM → Operand
  | .reg r => regOperand p k (regNum p.bits.b r)
  | .mem m => .mem (memOperand p m)

/-- iw or id, sign-extended at operand size 64, and io (R108). -/
def immValue (k : OSize) : Imm → BitVec k.bits
  | .i16 v => v.signExtend k.bits
  | .i32 v => v.signExtend k.bits
  | .i64 v => v.setWidth k.bits

/-- An immediate operand whose value is already extended to the operand size (R132). -/
def immOperand {k : OSize} (v : BitVec k.bits) : Operand := .imm (v.setWidth 64)

/-- The target of a branch with a sign-extended displacement (R135). -/
def relTarget (next rel : Word) : Word := next + rel

/-! ## The effective-address datapath -/

/-- The offset at address size 64 (R139). -/
def off64 (s : State) (o : MemOperand) : Word :=
  let b := (o.base.map s.x).getD 0
  let i := (o.index.map s.x).getD 0
  b + (i <<< o.scale.toNat) + o.disp

/-- The offset at address size 32, zero-extended (R140). -/
def off32 (s : State) (o : MemOperand) : Word :=
  let b : BitVec 32 := ((o.base.map s.x).getD 0).setWidth 32
  let i : BitVec 32 := ((o.index.map s.x).getD 0).setWidth 32
  (b + (i <<< o.scale.toNat) + o.disp.setWidth 32).setWidth 64

/-- The RIP-relative offset, from the address of the next instruction (R141). -/
def ripOff (next : Word) (o : MemOperand) : Word :=
  if o.asz32 then ((next + o.disp).setWidth 32).setWidth 64 else next + o.disp

/-- The offset of a memory operand: what LEA writes (R143, R145). -/
def offset (s : State) (next : Word) (o : MemOperand) : Word :=
  if o.ripRel then ripOff next o else if o.asz32 then off32 s o else off64 s o

/-- The segment base that is added (R142). -/
def segBase (s : State) : Option Seg → Word
  | none => 0
  | some .FS => s.cpu.fsBase
  | some .GS => s.cpu.gsBase

/-- `EA(o)` (R143). `next` is `pc +_64 size`. -/
def effAddr (s : State) (next : Word) (o : MemOperand) : Word := segBase s o.seg + offset s next o

/-! ## Reading and writing operands -/

/-- `ReadOp(o)` (R137). -/
def readOp (s : State) (next : Word) (k : OSize) : Operand → Except AccessStop (BitVec k.bits)
  | .reg n v => .ok ((s.regRead n v).setWidth k.bits)
  | .mem o => s.memRead (effAddr s next o) k
  | .imm v => .ok (v.setWidth k.bits)

/-- `WriteOp(o, v)` (R138). The address comes from the state the instruction starts with (R134). An immediate is never
written (R132): no form has one as its destination. -/
def writeOp (s : State) (next : Word) (k : OSize) (o : Operand) (v : BitVec k.bits) : Except AccessStop State :=
  match o with
  | .reg n w => .ok (s.regWrite n w (v.setWidth w.bits))
  | .mem o => s.memWrite (effAddr s next o) k v
  | .imm _ => .ok s

end Sys2Proof.Machine
end

