-- ==== Sys2Proof/Machine/Alu.lean ====
section
/-! DEFINITION. The ALU template (R154) and INC (R163), and the meaning of each row of the groups 80, 81 and 83
(R155 to R162), of XOR 30 to 33 (R161) and of INC FE /0 and FF /0 (R163). -/

namespace Sys2Proof.Machine

/-- The end of an ALU instruction (R154): flags, `icount` and `pc`. AND, OR and XOR have drawn AF (R153). -/
def aluFinish (op : AluOp) {w : Nat} (o : AluOut w) (f : Flags) (next : Word) (s : State) : StepResult :=
  .next (((s.setFlags (f.afterAlu o)).useDraws (aluDraws op)).continueAt next)

/-- `AluExec(op, dst, src, osz)` (R154) of an instruction of bytes `bs`. -/
def aluExec (op : AluOp) (k : OSize) (dst src : Operand) (bs : List Byte) (s : State) : StepResult :=
  let next := s.nextPc bs
  match readOp s next k dst with
  | .error e => s.stopAccess bs e
  | .ok a =>
    match readOp s next k src with
    | .error e => s.stopAccess bs e
    | .ok b =>
      let o := aluEval op a b s.cpu.flags.CF (Config.drawBit s.draws)
      if op = .cmp then aluFinish op o s.cpu.flags next s
      else
        match writeOp s next k dst o.r with
        | .error e => s.stopAccess bs e
        | .ok s' => aluFinish op o s.cpu.flags next s'

/-- INC (R163) of an instruction of bytes `bs`. -/
def incExec (k : OSize) (dst : Operand) (bs : List Byte) (s : State) : StepResult :=
  let next := s.nextPc bs
  match readOp s next k dst with
  | .error e => s.stopAccess bs e
  | .ok a =>
    let o := addC a 1 false
    match writeOp s next k dst o.r with
    | .error e => s.stopAccess bs e
    | .ok s' => .next ((s'.setFlags (s.cpu.flags.afterInc o)).continueAt next)

/-- A row of group 80 (R154): r/m8 and imm8. -/
def alu80 (op : AluOp) (p : Pfx) (dst : RM) (imm : BitVec 8) (s : State) : StepResult :=
  aluExec op .o8 (rmOperand p .o8 dst) (immOperand (k := .o8) imm) (encode (instr80 op p dst imm)) s

/-- A row of group 81 (R154): r/m and imm16 or imm32, sign-extended at operand size 64 (R108). -/
def alu81 (op : AluOp) (p : Pfx) (dst : RM) (imm : Imm) (s : State) : StepResult :=
  aluExec op p.osz (rmOperand p p.osz dst) (immOperand (immValue p.osz imm)) (encode (instr81 op p dst imm)) s

/-- A row of group 83 (R154): r/m and imm8 sign-extended to the operand size (R108). -/
def alu83 (op : AluOp) (p : Pfx) (dst : RM) (imm : BitVec 8) (s : State) : StepResult :=
  aluExec op p.osz (rmOperand p p.osz dst) (immOperand (imm.signExtend p.osz.bits)) (encode (instr83 op p dst imm)) s

/-- ADD r/m8, imm8: 80 /0 (R155). -/
def execAddRm8Imm8 (p : Pfx) (dst : RM) (imm : BitVec 8) (s : State) : StepResult := alu80 .add p dst imm s

/-- OR r/m8, imm8: 80 /1 (R156). -/
def execOrRm8Imm8 (p : Pfx) (dst : RM) (imm : BitVec 8) (s : State) : StepResult := alu80 .or p dst imm s

/-- ADC r/m8, imm8: 80 /2 (R157). -/
def execAdcRm8Imm8 (p : Pfx) (dst : RM) (imm : BitVec 8) (s : State) : StepResult := alu80 .adc p dst imm s

/-- SBB r/m8, imm8: 80 /3 (R158). -/
def execSbbRm8Imm8 (p : Pfx) (dst : RM) (imm : BitVec 8) (s : State) : StepResult := alu80 .sbb p dst imm s

/-- AND r/m8, imm8: 80 /4 (R159). -/
def execAndRm8Imm8 (p : Pfx) (dst : RM) (imm : BitVec 8) (s : State) : StepResult := alu80 .and p dst imm s

/-- SUB r/m8, imm8: 80 /5 (R160). -/
def execSubRm8Imm8 (p : Pfx) (dst : RM) (imm : BitVec 8) (s : State) : StepResult := alu80 .sub p dst imm s

/-- XOR r/m8, imm8: 80 /6 (R161). -/
def execXorRm8Imm8 (p : Pfx) (dst : RM) (imm : BitVec 8) (s : State) : StepResult := alu80 .xor p dst imm s

/-- CMP r/m8, imm8: 80 /7 (R162). -/
def execCmpRm8Imm8 (p : Pfx) (dst : RM) (imm : BitVec 8) (s : State) : StepResult := alu80 .cmp p dst imm s

/-- ADD r/m, imm16/32: 81 /0 (R155). -/
def execAddRmImm (p : Pfx) (dst : RM) (imm : Imm) (s : State) : StepResult := alu81 .add p dst imm s

/-- OR r/m, imm16/32: 81 /1 (R156). -/
def execOrRmImm (p : Pfx) (dst : RM) (imm : Imm) (s : State) : StepResult := alu81 .or p dst imm s

/-- ADC r/m, imm16/32: 81 /2 (R157). -/
def execAdcRmImm (p : Pfx) (dst : RM) (imm : Imm) (s : State) : StepResult := alu81 .adc p dst imm s

/-- SBB r/m, imm16/32: 81 /3 (R158). -/
def execSbbRmImm (p : Pfx) (dst : RM) (imm : Imm) (s : State) : StepResult := alu81 .sbb p dst imm s

/-- AND r/m, imm16/32: 81 /4 (R159). -/
def execAndRmImm (p : Pfx) (dst : RM) (imm : Imm) (s : State) : StepResult := alu81 .and p dst imm s

/-- SUB r/m, imm16/32: 81 /5 (R160). -/
def execSubRmImm (p : Pfx) (dst : RM) (imm : Imm) (s : State) : StepResult := alu81 .sub p dst imm s

/-- XOR r/m, imm16/32: 81 /6 (R161). -/
def execXorRmImm (p : Pfx) (dst : RM) (imm : Imm) (s : State) : StepResult := alu81 .xor p dst imm s

/-- CMP r/m, imm16/32: 81 /7 (R162). -/
def execCmpRmImm (p : Pfx) (dst : RM) (imm : Imm) (s : State) : StepResult := alu81 .cmp p dst imm s

/-- ADD r/m, imm8: 83 /0 (R155). -/
def execAddRmImm8 (p : Pfx) (dst : RM) (imm : BitVec 8) (s : State) : StepResult := alu83 .add p dst imm s

/-- OR r/m, imm8: 83 /1 (R156). -/
def execOrRmImm8 (p : Pfx) (dst : RM) (imm : BitVec 8) (s : State) : StepResult := alu83 .or p dst imm s

/-- ADC r/m, imm8: 83 /2 (R157). -/
def execAdcRmImm8 (p : Pfx) (dst : RM) (imm : BitVec 8) (s : State) : StepResult := alu83 .adc p dst imm s

/-- SBB r/m, imm8: 83 /3 (R158). -/
def execSbbRmImm8 (p : Pfx) (dst : RM) (imm : BitVec 8) (s : State) : StepResult := alu83 .sbb p dst imm s

/-- AND r/m, imm8: 83 /4 (R159). -/
def execAndRmImm8 (p : Pfx) (dst : RM) (imm : BitVec 8) (s : State) : StepResult := alu83 .and p dst imm s

/-- SUB r/m, imm8: 83 /5 (R160). -/
def execSubRmImm8 (p : Pfx) (dst : RM) (imm : BitVec 8) (s : State) : StepResult := alu83 .sub p dst imm s

/-- XOR r/m, imm8: 83 /6 (R161). -/
def execXorRmImm8 (p : Pfx) (dst : RM) (imm : BitVec 8) (s : State) : StepResult := alu83 .xor p dst imm s

/-- CMP r/m, imm8: 83 /7 (R162). -/
def execCmpRmImm8 (p : Pfx) (dst : RM) (imm : BitVec 8) (s : State) : StepResult := alu83 .cmp p dst imm s

/-- XOR r/m8, r8: 30 (R161). -/
def execXorRm8R8 (p : Pfx) (dst : RM) (src : BitVec 3) (s : State) : StepResult :=
  aluExec .xor .o8 (rmOperand p .o8 dst) (regField p .o8 src) (encode (.xorRm8R8 p dst src)) s

/-- XOR r/m, r: 31 (R161). -/
def execXorRmR (p : Pfx) (dst : RM) (src : BitVec 3) (s : State) : StepResult :=
  aluExec .xor p.osz (rmOperand p p.osz dst) (regField p p.osz src) (encode (.xorRmR p dst src)) s

/-- XOR r8, r/m8: 32 (R161). -/
def execXorR8Rm8 (p : Pfx) (dst : BitVec 3) (src : RM) (s : State) : StepResult :=
  aluExec .xor .o8 (regField p .o8 dst) (rmOperand p .o8 src) (encode (.xorR8Rm8 p dst src)) s

/-- XOR r, r/m: 33 (R161). -/
def execXorRRm (p : Pfx) (dst : BitVec 3) (src : RM) (s : State) : StepResult :=
  aluExec .xor p.osz (regField p p.osz dst) (rmOperand p p.osz src) (encode (.xorRRm p dst src)) s

/-- INC r/m8: FE /0 (R163). -/
def execIncRm8 (p : Pfx) (dst : RM) (s : State) : StepResult :=
  incExec .o8 (rmOperand p .o8 dst) (encode (.incRm8 p dst)) s

/-- INC r/m: FF /0 (R163). -/
def execIncRm (p : Pfx) (dst : RM) (s : State) : StepResult :=
  incExec p.osz (rmOperand p p.osz dst) (encode (.incRm p dst)) s

end Sys2Proof.Machine
end

