-- ==== Sys2Proof/Machine/Control.lean ====
section
/-! DEFINITION. The meaning of each control-transfer row: JMP (R191), the sixteen conditional jumps in two widths (R192
to R209), CALL (R210) and RET (R211). -/

namespace Sys2Proof.Machine

/-- JMP (R191) of an instruction of bytes `bs` with a sign-extended displacement. -/
def jmpExec (rel : Word) (bs : List Byte) (s : State) : StepResult :=
  .next (s.redirectTo (relTarget (s.nextPc bs) rel))

/-- `JccExec(cc, t)` (R192). -/
def jccExec (c : Cond) (rel : Word) (bs : List Byte) (s : State) : StepResult :=
  if condHolds c s.cpu.flags then .next (s.redirectTo (relTarget (s.nextPc bs) rel))
  else .next (s.continueAt (s.nextPc bs))

/-- A conditional jump with a rel8 field (R192). -/
def jcc8 (c : Cond) (rel : BitVec 8) (s : State) : StepResult :=
  jccExec c (rel.signExtend 64) (encode (instrJcc8 c rel)) s

/-- A conditional jump with a rel32 field (R192). -/
def jcc32 (c : Cond) (rel : BitVec 32) (s : State) : StepResult :=
  jccExec c (rel.signExtend 64) (encode (instrJcc32 c rel)) s

/-- JMP rel8: EB (R191). -/
def execJmpRel8 (rel : BitVec 8) (s : State) : StepResult := jmpExec (rel.signExtend 64) (encode (.jmpRel8 rel)) s

/-- JMP rel32: E9 (R191). -/
def execJmpRel32 (rel : BitVec 32) (s : State) : StepResult := jmpExec (rel.signExtend 64) (encode (.jmpRel32 rel)) s

/-- JO rel8: 70 (R194). -/
def execJoRel8 (rel : BitVec 8) (s : State) : StepResult := jcc8 .o rel s

/-- JNO rel8: 71 (R195). -/
def execJnoRel8 (rel : BitVec 8) (s : State) : StepResult := jcc8 .no rel s

/-- JB rel8: 72 (R196). -/
def execJbRel8 (rel : BitVec 8) (s : State) : StepResult := jcc8 .b rel s

/-- JAE rel8: 73 (R197). -/
def execJaeRel8 (rel : BitVec 8) (s : State) : StepResult := jcc8 .ae rel s

/-- JE rel8: 74 (R198). -/
def execJeRel8 (rel : BitVec 8) (s : State) : StepResult := jcc8 .e rel s

/-- JNE rel8: 75 (R199). -/
def execJneRel8 (rel : BitVec 8) (s : State) : StepResult := jcc8 .ne rel s

/-- JBE rel8: 76 (R200). -/
def execJbeRel8 (rel : BitVec 8) (s : State) : StepResult := jcc8 .be rel s

/-- JA rel8: 77 (R201). -/
def execJaRel8 (rel : BitVec 8) (s : State) : StepResult := jcc8 .a rel s

/-- JS rel8: 78 (R202). -/
def execJsRel8 (rel : BitVec 8) (s : State) : StepResult := jcc8 .s rel s

/-- JNS rel8: 79 (R203). -/
def execJnsRel8 (rel : BitVec 8) (s : State) : StepResult := jcc8 .ns rel s

/-- JP rel8: 7A (R204). -/
def execJpRel8 (rel : BitVec 8) (s : State) : StepResult := jcc8 .p rel s

/-- JNP rel8: 7B (R205). -/
def execJnpRel8 (rel : BitVec 8) (s : State) : StepResult := jcc8 .np rel s

/-- JL rel8: 7C (R206). -/
def execJlRel8 (rel : BitVec 8) (s : State) : StepResult := jcc8 .l rel s

/-- JGE rel8: 7D (R207). -/
def execJgeRel8 (rel : BitVec 8) (s : State) : StepResult := jcc8 .ge rel s

/-- JLE rel8: 7E (R208). -/
def execJleRel8 (rel : BitVec 8) (s : State) : StepResult := jcc8 .le rel s

/-- JG rel8: 7F (R209). -/
def execJgRel8 (rel : BitVec 8) (s : State) : StepResult := jcc8 .g rel s

/-- JO rel32: 0F 80 (R194). -/
def execJoRel32 (rel : BitVec 32) (s : State) : StepResult := jcc32 .o rel s

/-- JNO rel32: 0F 81 (R195). -/
def execJnoRel32 (rel : BitVec 32) (s : State) : StepResult := jcc32 .no rel s

/-- JB rel32: 0F 82 (R196). -/
def execJbRel32 (rel : BitVec 32) (s : State) : StepResult := jcc32 .b rel s

/-- JAE rel32: 0F 83 (R197). -/
def execJaeRel32 (rel : BitVec 32) (s : State) : StepResult := jcc32 .ae rel s

/-- JE rel32: 0F 84 (R198). -/
def execJeRel32 (rel : BitVec 32) (s : State) : StepResult := jcc32 .e rel s

/-- JNE rel32: 0F 85 (R199). -/
def execJneRel32 (rel : BitVec 32) (s : State) : StepResult := jcc32 .ne rel s

/-- JBE rel32: 0F 86 (R200). -/
def execJbeRel32 (rel : BitVec 32) (s : State) : StepResult := jcc32 .be rel s

/-- JA rel32: 0F 87 (R201). -/
def execJaRel32 (rel : BitVec 32) (s : State) : StepResult := jcc32 .a rel s

/-- JS rel32: 0F 88 (R202). -/
def execJsRel32 (rel : BitVec 32) (s : State) : StepResult := jcc32 .s rel s

/-- JNS rel32: 0F 89 (R203). -/
def execJnsRel32 (rel : BitVec 32) (s : State) : StepResult := jcc32 .ns rel s

/-- JP rel32: 0F 8A (R204). -/
def execJpRel32 (rel : BitVec 32) (s : State) : StepResult := jcc32 .p rel s

/-- JNP rel32: 0F 8B (R205). -/
def execJnpRel32 (rel : BitVec 32) (s : State) : StepResult := jcc32 .np rel s

/-- JL rel32: 0F 8C (R206). -/
def execJlRel32 (rel : BitVec 32) (s : State) : StepResult := jcc32 .l rel s

/-- JGE rel32: 0F 8D (R207). -/
def execJgeRel32 (rel : BitVec 32) (s : State) : StepResult := jcc32 .ge rel s

/-- JLE rel32: 0F 8E (R208). -/
def execJleRel32 (rel : BitVec 32) (s : State) : StepResult := jcc32 .le rel s

/-- JG rel32: 0F 8F (R209). -/
def execJgRel32 (rel : BitVec 32) (s : State) : StepResult := jcc32 .g rel s

/-- CALL rel32: E8 (R210): the address of the next instruction is pushed, then the target is taken. -/
def execCallRel32 (rel : BitVec 32) (s : State) : StepResult :=
  let bs := encode (.callRel32 rel)
  let ret := s.nextPc bs
  match s.memWrite (s.x rsp - 8) .o64 ret with
  | .error e => s.stopAccess bs e
  | .ok s' => .next ((s'.setX rsp (s.x rsp - 8)).redirectTo (relTarget ret (rel.signExtend 64)))

/-- RET: C3 (R211): the target is popped. -/
def execRet (s : State) : StepResult :=
  match s.memRead (s.x rsp) .o64 with
  | .error e => s.stopAccess (encode .ret) e
  | .ok t => .next ((s.setX rsp (s.x rsp + 8)).redirectTo t)

end Sys2Proof.Machine
end

