-- ==== Sys2Proof/Machine/Move.lean ====
section
/-! DEFINITION. The meaning of each MOV row (R180 to R184) and of LEA (R185). They read and write no flag. -/

namespace Sys2Proof.Machine

/-- Every MOV form (R180 to R183): read the source, write the destination. -/
def movExec (k : OSize) (dst src : Operand) (bs : List Byte) (s : State) : StepResult :=
  let next := s.nextPc bs
  match readOp s next k src with
  | .error e => s.stopAccess bs e
  | .ok v =>
    match writeOp s next k dst v with
    | .error e => s.stopAccess bs e
    | .ok s' => .next (s'.continueAt next)

/-- MOV r/m8, r8: 88 (R180). -/
def execMovRm8R8 (p : Pfx) (dst : RM) (src : BitVec 3) (s : State) : StepResult :=
  movExec .o8 (rmOperand p .o8 dst) (regField p .o8 src) (encode (.movRm8R8 p dst src)) s

/-- MOV r/m, r: 89 (R180). -/
def execMovRmR (p : Pfx) (dst : RM) (src : BitVec 3) (s : State) : StepResult :=
  movExec p.osz (rmOperand p p.osz dst) (regField p p.osz src) (encode (.movRmR p dst src)) s

/-- MOV r8, r/m8: 8A (R181). -/
def execMovR8Rm8 (p : Pfx) (dst : BitVec 3) (src : RM) (s : State) : StepResult :=
  movExec .o8 (regField p .o8 dst) (rmOperand p .o8 src) (encode (.movR8Rm8 p dst src)) s

/-- MOV r, r/m: 8B (R181). -/
def execMovRRm (p : Pfx) (dst : BitVec 3) (src : RM) (s : State) : StepResult :=
  movExec p.osz (regField p p.osz dst) (rmOperand p p.osz src) (encode (.movRRm p dst src)) s

/-- MOV r8, imm8: B0+r (R182). -/
def execMovR8Imm8 (p : Pfx) (dst : BitVec 3) (imm : BitVec 8) (s : State) : StepResult :=
  movExec .o8 (opcodeReg p .o8 dst) (immOperand (k := .o8) imm) (encode (.movR8Imm8 p dst imm)) s

/-- MOV r, imm: B8+r, the immediate not extended (R182). -/
def execMovRImm (p : Pfx) (dst : BitVec 3) (imm : Imm) (s : State) : StepResult :=
  movExec p.osz (opcodeReg p p.osz dst) (immOperand (immValue p.osz imm)) (encode (.movRImm p dst imm)) s

/-- MOV r/m8, imm8: C6 /0 (R183). -/
def execMovRm8Imm8 (p : Pfx) (dst : RM) (imm : BitVec 8) (s : State) : StepResult :=
  movExec .o8 (rmOperand p .o8 dst) (immOperand (k := .o8) imm) (encode (.movRm8Imm8 p dst imm)) s

/-- MOV r/m, imm: C7 /0, the imm32 sign-extended at operand size 64 (R183). -/
def execMovRmImm (p : Pfx) (dst : RM) (imm : Imm) (s : State) : StepResult :=
  movExec p.osz (rmOperand p p.osz dst) (immOperand (immValue p.osz imm)) (encode (.movRmImm p dst imm)) s

/-- LEA r, m: 8D (R185): the offset without a segment base, truncated to the operand size; no memory access. -/
def execLeaRM (p : Pfx) (dst : BitVec 3) (src : MemForm) (s : State) : StepResult :=
  let bs := encode (.leaRM p dst src)
  let next := s.nextPc bs
  let rv := regView p p.osz (regNum p.bits.r dst)
  .next ((s.regWrite rv.1 rv.2 ((offset s next (memOperand p src)).setWidth rv.2.bits)).continueAt next)

end Sys2Proof.Machine
end

