-- ==== Sys2Proof/Machine/System.lean ====
section
/-! DEFINITION. SYSCALL (R220, R221, R225) and the execution of an illegal instruction (R222). -/

namespace Sys2Proof.Machine

/-- What SYSCALL hands to the collaborator (R220): full 64-bit registers, and the instruction's address and length. -/
def syscallRequest (s : State) : SyscallRequest :=
  { nr := s.x rax, arg0 := s.x rdi, arg1 := s.x rsi, arg2 := s.x rdx, arg3 := s.x 10, arg4 := s.x 8, arg5 := s.x 9,
    pc := s.cpu.pc, size := BitVec.ofNat 64 (encode .syscall).length }

/-- The state after SYSCALL for one answer of the collaborator and one pair of draws (R220). The collaborator's changes
to memory are complete (R221, R225). The counter moves past both draws; on an exit neither is used (log entry 21). -/
def syscallWith (ans : SyscallAnswer) (drawnRcx drawnR11 : Word) (s : State) : State :=
  let s := (s.setMem (s.mem.applyAll ans.actions)).useDraws 2
  match ans.result with
  | .ret v => (((s.setX rax v).setX rcx drawnRcx).setX 11 drawnR11).continueAt (s.nextPc (encode .syscall))
  | .exitProcess code => s.exitWith code

/-- SYSCALL: 0F 05 (R220). The answer and the values of rcx and r11 are free values (log entries 8 and 9). -/
def execSyscall (s : State) : StepResult :=
  .next (syscallWith (Config.syscallHost s.draws (syscallRequest s) s.mem)
    (Config.drawWord s.draws) (Config.drawWord (s.draws + 1)) s)

/-- The execution of an `Illegal(pc, bytes)` object (R222): a Trap whose address is `pc`. -/
def execIllegal (bytes : List Byte) (s : State) : StepResult :=
  .next (s.takeTrap .illegalInstruction { addr := s.cpu.pc, access := none, pc := s.cpu.pc, bytes := bytes })

end Sys2Proof.Machine
end

