-- ==== Sys2Proof/Machine/Dispatch.lean ====
section
/-! DEFINITION. One arm for each instruction: its meaning. -/

namespace Sys2Proof.Machine

def exec (i : Instr) (s : State) : Host.Outcome State Fault Refusal :=
  match i with
  | .addRm8Imm8 a b c => Sys2Proof.Machine.execAddRm8Imm8 a b c s
  | .orRm8Imm8 a b c => Sys2Proof.Machine.execOrRm8Imm8 a b c s
  | .adcRm8Imm8 a b c => Sys2Proof.Machine.execAdcRm8Imm8 a b c s
  | .sbbRm8Imm8 a b c => Sys2Proof.Machine.execSbbRm8Imm8 a b c s
  | .andRm8Imm8 a b c => Sys2Proof.Machine.execAndRm8Imm8 a b c s
  | .subRm8Imm8 a b c => Sys2Proof.Machine.execSubRm8Imm8 a b c s
  | .xorRm8Imm8 a b c => Sys2Proof.Machine.execXorRm8Imm8 a b c s
  | .cmpRm8Imm8 a b c => Sys2Proof.Machine.execCmpRm8Imm8 a b c s
  | .addRmImm a b c => Sys2Proof.Machine.execAddRmImm a b c s
  | .orRmImm a b c => Sys2Proof.Machine.execOrRmImm a b c s
  | .adcRmImm a b c => Sys2Proof.Machine.execAdcRmImm a b c s
  | .sbbRmImm a b c => Sys2Proof.Machine.execSbbRmImm a b c s
  | .andRmImm a b c => Sys2Proof.Machine.execAndRmImm a b c s
  | .subRmImm a b c => Sys2Proof.Machine.execSubRmImm a b c s
  | .xorRmImm a b c => Sys2Proof.Machine.execXorRmImm a b c s
  | .cmpRmImm a b c => Sys2Proof.Machine.execCmpRmImm a b c s
  | .addRmImm8 a b c => Sys2Proof.Machine.execAddRmImm8 a b c s
  | .orRmImm8 a b c => Sys2Proof.Machine.execOrRmImm8 a b c s
  | .adcRmImm8 a b c => Sys2Proof.Machine.execAdcRmImm8 a b c s
  | .sbbRmImm8 a b c => Sys2Proof.Machine.execSbbRmImm8 a b c s
  | .andRmImm8 a b c => Sys2Proof.Machine.execAndRmImm8 a b c s
  | .subRmImm8 a b c => Sys2Proof.Machine.execSubRmImm8 a b c s
  | .xorRmImm8 a b c => Sys2Proof.Machine.execXorRmImm8 a b c s
  | .cmpRmImm8 a b c => Sys2Proof.Machine.execCmpRmImm8 a b c s
  | .xorRm8R8 a b c => Sys2Proof.Machine.execXorRm8R8 a b c s
  | .xorRmR a b c => Sys2Proof.Machine.execXorRmR a b c s
  | .xorR8Rm8 a b c => Sys2Proof.Machine.execXorR8Rm8 a b c s
  | .xorRRm a b c => Sys2Proof.Machine.execXorRRm a b c s
  | .incRm8 a b => Sys2Proof.Machine.execIncRm8 a b s
  | .incRm a b => Sys2Proof.Machine.execIncRm a b s
  | .movRm8R8 a b c => Sys2Proof.Machine.execMovRm8R8 a b c s
  | .movRmR a b c => Sys2Proof.Machine.execMovRmR a b c s
  | .movR8Rm8 a b c => Sys2Proof.Machine.execMovR8Rm8 a b c s
  | .movRRm a b c => Sys2Proof.Machine.execMovRRm a b c s
  | .movR8Imm8 a b c => Sys2Proof.Machine.execMovR8Imm8 a b c s
  | .movRImm a b c => Sys2Proof.Machine.execMovRImm a b c s
  | .movRm8Imm8 a b c => Sys2Proof.Machine.execMovRm8Imm8 a b c s
  | .movRmImm a b c => Sys2Proof.Machine.execMovRmImm a b c s
  | .leaRM a b c => Sys2Proof.Machine.execLeaRM a b c s
  | .jmpRel8 a => Sys2Proof.Machine.execJmpRel8 a s
  | .jmpRel32 a => Sys2Proof.Machine.execJmpRel32 a s
  | .joRel8 a => Sys2Proof.Machine.execJoRel8 a s
  | .jnoRel8 a => Sys2Proof.Machine.execJnoRel8 a s
  | .jbRel8 a => Sys2Proof.Machine.execJbRel8 a s
  | .jaeRel8 a => Sys2Proof.Machine.execJaeRel8 a s
  | .jeRel8 a => Sys2Proof.Machine.execJeRel8 a s
  | .jneRel8 a => Sys2Proof.Machine.execJneRel8 a s
  | .jbeRel8 a => Sys2Proof.Machine.execJbeRel8 a s
  | .jaRel8 a => Sys2Proof.Machine.execJaRel8 a s
  | .jsRel8 a => Sys2Proof.Machine.execJsRel8 a s
  | .jnsRel8 a => Sys2Proof.Machine.execJnsRel8 a s
  | .jpRel8 a => Sys2Proof.Machine.execJpRel8 a s
  | .jnpRel8 a => Sys2Proof.Machine.execJnpRel8 a s
  | .jlRel8 a => Sys2Proof.Machine.execJlRel8 a s
  | .jgeRel8 a => Sys2Proof.Machine.execJgeRel8 a s
  | .jleRel8 a => Sys2Proof.Machine.execJleRel8 a s
  | .jgRel8 a => Sys2Proof.Machine.execJgRel8 a s
  | .joRel32 a => Sys2Proof.Machine.execJoRel32 a s
  | .jnoRel32 a => Sys2Proof.Machine.execJnoRel32 a s
  | .jbRel32 a => Sys2Proof.Machine.execJbRel32 a s
  | .jaeRel32 a => Sys2Proof.Machine.execJaeRel32 a s
  | .jeRel32 a => Sys2Proof.Machine.execJeRel32 a s
  | .jneRel32 a => Sys2Proof.Machine.execJneRel32 a s
  | .jbeRel32 a => Sys2Proof.Machine.execJbeRel32 a s
  | .jaRel32 a => Sys2Proof.Machine.execJaRel32 a s
  | .jsRel32 a => Sys2Proof.Machine.execJsRel32 a s
  | .jnsRel32 a => Sys2Proof.Machine.execJnsRel32 a s
  | .jpRel32 a => Sys2Proof.Machine.execJpRel32 a s
  | .jnpRel32 a => Sys2Proof.Machine.execJnpRel32 a s
  | .jlRel32 a => Sys2Proof.Machine.execJlRel32 a s
  | .jgeRel32 a => Sys2Proof.Machine.execJgeRel32 a s
  | .jleRel32 a => Sys2Proof.Machine.execJleRel32 a s
  | .jgRel32 a => Sys2Proof.Machine.execJgRel32 a s
  | .callRel32 a => Sys2Proof.Machine.execCallRel32 a s
  | .ret => Sys2Proof.Machine.execRet s
  | .syscall => Sys2Proof.Machine.execSyscall s

end Sys2Proof.Machine
end

