-- ==== Sys2Proof/Machine/Fetch.lean ====
section
/-! DEFINITION. Fetch and decode at the program counter (R70, R92, R93), the decoded instruction's record (R44, R110), and
the bytes a program word is placed as. -/

namespace Sys2Proof.Machine

/-- The record of a decoded instruction (R44): its row and operands, and where and what it was decoded from. -/
structure Instruction where
  programCounter : Word
  rawBytes       : List Byte
  latch          : Latch
  instr          : Instr
  deriving DecidableEq, Repr

/-- `size` equals the length of `rawBytes` (R44). -/
def Instruction.size (r : Instruction) : Nat := r.rawBytes.length

/-- `decode(pc)` (R92): an instruction, an illegal object with every byte fetched (R114), the Trap of a fetch fault
(R93, R233), or a refusal (R118). -/
inductive Decoded where
  | insn (r : Instruction)
  | illegal (pc : Word) (bytes : List Byte)
  | trap (info : TrapInfo)
  | refused (r : DecodeRefusal)
  deriving DecidableEq, Repr

/-- The bytes of `bs` that come before its last bytes `rest`. -/
def consumed (bs rest : List Byte) : List Byte := bs.take (bs.length - rest.length)

/-- Fetch and decode at `pc` (R92, R93). The decoder never needs more than `maxLen` bytes (log entry 24), so the byte it
needs past the bytes at hand is the one that `Fetch` faults on. -/
def decodeAt (m : Memory) (pc : Word) : Decoded :=
  let bs := codeBytes m pc maxLen
  match decode bs with
  | .ok (l, i) rest => .insn { programCounter := pc, rawBytes := consumed bs rest, latch := l, instr := i }
  | .illegal rest => .illegal pc (consumed bs rest)
  | .refused r => .refused r
  | .more => .trap { addr := pc + BitVec.ofNat 64 bs.length, access := some .execute, pc := pc, bytes := bs }

/-- A byte made executable, with what it held and the other bits of its protection kept; outside every region, a byte
that can only be executed. -/
def makeExecutable (m : Memory) (a : Word) : Memory :=
  match m.regionAt a with
  | some r => if r.prot.exec then m else m.apply (.protect a.toNat 1 { r.prot with exec := true })
  | none => m.apply (.allocate { base := a.toNat, size := 1, prot := { read := false, write := false, exec := true } })

/-- Code bytes placed at an address: each byte is made executable and stored (R272: what the loader does). -/
def placeCode (m : Memory) (a : Word) : List Byte → Memory
  | [] => m
  | b :: bs => placeCode ((makeExecutable m a).setByte a b) (a + 1) bs

end Sys2Proof.Machine
end

