-- ==== Sys2Proof/Machine/Step.lean ====
section
/-! DEFINITION. One step of the block (R243), and a program word placed where the next step fetches. -/

namespace Sys2Proof.Machine

/-- Why a thread takes no step: its run ended, a Trap stopped it, or it was refused (R234, R238, R242; log entry 2). -/
def State.stopped (s : State) : Option StepResult :=
  match s.refusalMark with
  | some r => some (.refused r)
  | none =>
    match s.port with
    | .exited code => some (.fault (.threadExited code))
    | .trapped t => some (.fault (.threadTrapped t))
    | .ready => none
    | .continued _ => none
    | .redirected _ => none

/-- `Step(S)` (R243). The latch is cleared at the start of an instruction and holds the fields of the instruction that
is executed (R41; log entry 18). -/
def step (s : State) : Host.Outcome State Fault Refusal :=
  match s.stopped with
  | some r => r
  | none =>
    match decodeAt s.mem s.cpu.pc with
    | .insn r => exec r.instr (s.setLatch r.latch)
    | .illegal _ bytes => execIllegal bytes (s.setLatch .empty)
    | .trap info => .next ((s.setLatch .empty).takeTrap .segmentationViolation info)
    | .refused r => .refused (.decoder r)

/-- The state with the instruction of a table word placed at `pc`, where `step` fetches (log entries 4 and 14). The
stops of `State.stopped` are cleared, for a stopped thread fetches nothing. -/
def State.withFetchWord (s : State) (nbits w : Nat) : State :=
  { s with
    mem := placeCode s.mem s.cpu.pc (tableBytes nbits w)
    refusalMark := none
    port := match s.port with
      | .exited _ => .ready
      | .trapped _ => .ready
      | .ready => .ready
      | .continued n => .continued n
      | .redirected t => .redirected t }

end Sys2Proof.Machine
end

