-- ==== Sys2Proof/Machine/Disasm.lean ====
section
/-! DEFINITION. The diagnostics port (R45, R124): the text of an instruction. It has no effect on execution. -/

namespace Sys2Proof.Machine

/-- The 64-bit register names (R22). -/
def names64 : List String :=
  ["rax", "rcx", "rdx", "rbx", "rsp", "rbp", "rsi", "rdi", "r8", "r9", "r10", "r11", "r12", "r13", "r14", "r15"]

/-- The 32-bit register names (R22). -/
def names32 : List String :=
  ["eax", "ecx", "edx", "ebx", "esp", "ebp", "esi", "edi", "r8d", "r9d", "r10d", "r11d", "r12d", "r13d", "r14d", "r15d"]

/-- The 16-bit register names (R22). -/
def names16 : List String :=
  ["ax", "cx", "dx", "bx", "sp", "bp", "si", "di", "r8w", "r9w", "r10w", "r11w", "r12w", "r13w", "r14w", "r15w"]

/-- The low-byte register names (R22). -/
def names8 : List String :=
  ["al", "cl", "dl", "bl", "spl", "bpl", "sil", "dil", "r8b", "r9b", "r10b", "r11b", "r12b", "r13b", "r14b", "r15b"]

/-- The high-byte register names (R22). -/
def namesHigh : List String :=
  ["ah", "ch", "dh", "bh"]

/-- The name of a register view (R22, R123). -/
def viewName (n : RegNum) : RegView → String
  | .l8 => names8.getD n.val ""
  | .h8 => namesHigh.getD n.val ""
  | .w16 => names16.getD n.val ""
  | .w32 => names32.getD n.val ""
  | .w64 => names64.getD n.val ""

/-- The digits of a number in lower-case hexadecimal, without leading zeros; `fuel` bounds their count. -/
def hexDigits : Nat → Nat → List Char
  | 0, _ => []
  | fuel + 1, n =>
    (if n < 16 then [] else hexDigits fuel (n / 16)) ++ [(Nat.digitChar (n % 16))]

/-- A number of at most 64 bits in hexadecimal (R124). -/
def hexText (n : Nat) : String := "0x" ++ String.ofList (hexDigits 16 n)

/-- A signed value: `-0x` and the magnitude, or `0x` and the value (R124 point 2). -/
def signedText (v : Int) : String := if v < 0 then "-" ++ hexText v.natAbs else hexText v.natAbs

/-- A displacement after another part: `+0x..` or `-0x..` (R124 point 3). -/
def dispText (v : Int) : String := if v < 0 then signedText v else "+" ++ signedText v

/-- The parts of a memory operand between the brackets (R124 point 3). -/
def memParts (o : MemOperand) : String :=
  let v : RegView := if o.asz32 then .w32 else .w64
  let d := o.disp.toInt
  if o.ripRel then (if o.asz32 then "eip" else "rip") ++ dispText d
  else
    let b := match o.base with
      | some n => viewName n v
      | none => ""
    let i := match o.index with
      | some n => (if o.base.isSome then "+" else "") ++ viewName n v ++ "*" ++ toString (2 ^ o.scale.toNat)
      | none => ""
    let dd :=
      if o.base.isNone ∧ o.index.isNone then signedText d
      else if d = 0 then "" else dispText d
    b ++ i ++ dd

/-- A memory operand, with its segment override (R124 point 3). -/
def memText (o : MemOperand) : String :=
  (match o.seg with
    | some .FS => "fs:"
    | some .GS => "gs:"
    | none => "") ++ "[" ++ memParts o ++ "]"

/-- The size keyword of a memory operand whose size no register operand implies (R124 point 4). -/
def sizeKeyword : OSize → String
  | .o8 => "BYTE PTR "
  | .o16 => "WORD PTR "
  | .o32 => "DWORD PTR "
  | .o64 => "QWORD PTR "

/-- A register or memory operand; `sized` asks for the size keyword (R124). -/
def operandText (k : OSize) (sized : Bool) : Operand → String
  | .reg n v => viewName n v
  | .mem o => (if sized then sizeKeyword k else "") ++ memText o
  | .imm v => hexText v.toNat

/-- Mnemonic, one space, and the operands separated by a comma (R124 point 1). -/
def line (mnemonic : String) (operands : List String) : String :=
  match operands with
  | [] => mnemonic
  | o :: os => mnemonic ++ " " ++ os.foldl (fun t u => t ++ "," ++ u) o

/-- The mnemonics of the ALU operations (R124 point 6). -/
def aluName : AluOp → String
  | .add => "add"
  | .or => "or"
  | .adc => "adc"
  | .sbb => "sbb"
  | .and => "and"
  | .sub => "sub"
  | .xor => "xor"
  | .cmp => "cmp"

/-- The mnemonics of the conditional jumps (R193, R124 point 6). -/
def jccName : Cond → String
  | .o => "jo"
  | .no => "jno"
  | .b => "jb"
  | .ae => "jae"
  | .e => "je"
  | .ne => "jne"
  | .be => "jbe"
  | .a => "ja"
  | .s => "js"
  | .ns => "jns"
  | .p => "jp"
  | .np => "jnp"
  | .l => "jl"
  | .ge => "jge"
  | .le => "jle"
  | .g => "jg"

/-- iw or id of rows 81 and C7: signed when it is sign-extended, at operand size 64; else unsigned (R124 point 2). -/
def immWText (k : OSize) (i : Imm) : String :=
  if k = .o64 then signedText (immValue k i).toInt else hexText (immValue k i).toNat

/-- A branch target: its absolute address (R124 point 5). -/
def targetText (pc : Word) (bs : List Byte) (rel : Word) : String :=
  hexText (relTarget (pc + BitVec.ofNat 64 bs.length) rel).toNat

def text80 (op : AluOp) (p : Pfx) (d : RM) (i : BitVec 8) : String :=
  line (aluName op) [operandText .o8 true (rmOperand p .o8 d), hexText i.toNat]

def text81 (op : AluOp) (p : Pfx) (d : RM) (i : Imm) : String :=
  line (aluName op) [operandText p.osz true (rmOperand p p.osz d), immWText p.osz i]

def text83 (op : AluOp) (p : Pfx) (d : RM) (i : BitVec 8) : String :=
  line (aluName op) [operandText p.osz true (rmOperand p p.osz d), signedText i.toInt]

def textRmReg (name : String) (k : OSize) (p : Pfx) (m : RM) (r : BitVec 3) : String :=
  line name [operandText k false (rmOperand p k m), operandText k false (regField p k r)]

def textRegRm (name : String) (k : OSize) (p : Pfx) (r : BitVec 3) (m : RM) : String :=
  line name [operandText k false (regField p k r), operandText k false (rmOperand p k m)]

def textJcc8 (c : Cond) (pc : Word) (r : BitVec 8) : String :=
  line (jccName c) [targetText pc (encode (instrJcc8 c r)) (r.signExtend 64)]

def textJcc32 (c : Cond) (pc : Word) (r : BitVec 32) : String :=
  line (jccName c) [targetText pc (encode (instrJcc32 c r)) (r.signExtend 64)]

/-- The text of an instruction at an address (R124). -/
def instrText (pc : Word) : Instr → String
  | .addRm8Imm8 p d i => text80 .add p d i
  | .orRm8Imm8 p d i => text80 .or p d i
  | .adcRm8Imm8 p d i => text80 .adc p d i
  | .sbbRm8Imm8 p d i => text80 .sbb p d i
  | .andRm8Imm8 p d i => text80 .and p d i
  | .subRm8Imm8 p d i => text80 .sub p d i
  | .xorRm8Imm8 p d i => text80 .xor p d i
  | .cmpRm8Imm8 p d i => text80 .cmp p d i
  | .addRmImm p d i => text81 .add p d i
  | .orRmImm p d i => text81 .or p d i
  | .adcRmImm p d i => text81 .adc p d i
  | .sbbRmImm p d i => text81 .sbb p d i
  | .andRmImm p d i => text81 .and p d i
  | .subRmImm p d i => text81 .sub p d i
  | .xorRmImm p d i => text81 .xor p d i
  | .cmpRmImm p d i => text81 .cmp p d i
  | .addRmImm8 p d i => text83 .add p d i
  | .orRmImm8 p d i => text83 .or p d i
  | .adcRmImm8 p d i => text83 .adc p d i
  | .sbbRmImm8 p d i => text83 .sbb p d i
  | .andRmImm8 p d i => text83 .and p d i
  | .subRmImm8 p d i => text83 .sub p d i
  | .xorRmImm8 p d i => text83 .xor p d i
  | .cmpRmImm8 p d i => text83 .cmp p d i
  | .xorRm8R8 p m r => textRmReg "xor" .o8 p m r
  | .xorRmR p m r => textRmReg "xor" p.osz p m r
  | .xorR8Rm8 p r m => textRegRm "xor" .o8 p r m
  | .xorRRm p r m => textRegRm "xor" p.osz p r m
  | .incRm8 p d => line "inc" [operandText .o8 true (rmOperand p .o8 d)]
  | .incRm p d => line "inc" [operandText p.osz true (rmOperand p p.osz d)]
  | .movRm8R8 p m r => textRmReg "mov" .o8 p m r
  | .movRmR p m r => textRmReg "mov" p.osz p m r
  | .movR8Rm8 p r m => textRegRm "mov" .o8 p r m
  | .movRRm p r m => textRegRm "mov" p.osz p r m
  | .movR8Imm8 p r i => line "mov" [operandText .o8 false (opcodeReg p .o8 r), hexText i.toNat]
  | .movRImm p r i => line "mov" [operandText p.osz false (opcodeReg p p.osz r), hexText (immValue p.osz i).toNat]
  | .movRm8Imm8 p d i => line "mov" [operandText .o8 true (rmOperand p .o8 d), hexText i.toNat]
  | .movRmImm p d i => line "mov" [operandText p.osz true (rmOperand p p.osz d), immWText p.osz i]
  | .leaRM p r m => line "lea" [operandText p.osz false (regField p p.osz r), memText (memOperand p m)]
  | .jmpRel8 r => line "jmp" [targetText pc (encode (.jmpRel8 r)) (r.signExtend 64)]
  | .jmpRel32 r => line "jmp" [targetText pc (encode (.jmpRel32 r)) (r.signExtend 64)]
  | .joRel8 r => textJcc8 .o pc r
  | .jnoRel8 r => textJcc8 .no pc r
  | .jbRel8 r => textJcc8 .b pc r
  | .jaeRel8 r => textJcc8 .ae pc r
  | .jeRel8 r => textJcc8 .e pc r
  | .jneRel8 r => textJcc8 .ne pc r
  | .jbeRel8 r => textJcc8 .be pc r
  | .jaRel8 r => textJcc8 .a pc r
  | .jsRel8 r => textJcc8 .s pc r
  | .jnsRel8 r => textJcc8 .ns pc r
  | .jpRel8 r => textJcc8 .p pc r
  | .jnpRel8 r => textJcc8 .np pc r
  | .jlRel8 r => textJcc8 .l pc r
  | .jgeRel8 r => textJcc8 .ge pc r
  | .jleRel8 r => textJcc8 .le pc r
  | .jgRel8 r => textJcc8 .g pc r
  | .joRel32 r => textJcc32 .o pc r
  | .jnoRel32 r => textJcc32 .no pc r
  | .jbRel32 r => textJcc32 .b pc r
  | .jaeRel32 r => textJcc32 .ae pc r
  | .jeRel32 r => textJcc32 .e pc r
  | .jneRel32 r => textJcc32 .ne pc r
  | .jbeRel32 r => textJcc32 .be pc r
  | .jaRel32 r => textJcc32 .a pc r
  | .jsRel32 r => textJcc32 .s pc r
  | .jnsRel32 r => textJcc32 .ns pc r
  | .jpRel32 r => textJcc32 .p pc r
  | .jnpRel32 r => textJcc32 .np pc r
  | .jlRel32 r => textJcc32 .l pc r
  | .jgeRel32 r => textJcc32 .ge pc r
  | .jleRel32 r => textJcc32 .le pc r
  | .jgRel32 r => textJcc32 .g pc r
  | .callRel32 r => line "call" [targetText pc (encode (.callRel32 r)) (r.signExtend 64)]
  | .ret => line "ret" []
  | .syscall => line "syscall" []

/-- The text of an illegal instruction (R124 point 7). -/
def illegalText : String := "(bad)"

end Sys2Proof.Machine
end

