-- ==== Sys2Proof/Machine/HostPort.lean ====
section
/-! DEFINITION. The host-state port (R45): what the host may do between two steps (R84, R246, R247). -/

namespace Sys2Proof.Machine

/-- A host action. The host's choices are inputs of the model (R246). -/
inductive HostAction where
  /-- sets `pc` and lets a trapped thread run again: signal delivery, syscall return, cancellation (R238, R246) -/
  | redirect (t : Word)
  /-- writes a view of a general register (R246) -/
  | writeReg (n : RegNum) (v : RegView) (new : BitVec v.bits)
  /-- writes the nine flags (R246) -/
  | setFlags (f : Flags)
  /-- `setFlagsWord(w)` (R32, R246) -/
  | setFlagsWord (w : Word)
  /-- writes the FS base (R35, R246) -/
  | setFsBase (v : Word)
  /-- writes the GS base (R35, R246) -/
  | setGsBase (v : Word)
  /-- writes a view of a vector register (R38, R246) -/
  | writeVec (j : Fin 32) (v : VecLen) (new : BitVec v.bits)
  /-- changes the region map or region contents (R84, R246) -/
  | memory (a : MemoryAction)
  /-- replaces the whole CpuState (R21, R247) -/
  | swap (c : CpuState)
  deriving DecidableEq, Repr

/-- A thread whose run has ended stays ended (R242); any other is ready again (R238, R239; log entry 17). -/
def Port.resume : Port → Port
  | .exited code => .exited code
  | .ready => .ready
  | .continued _ => .ready
  | .redirected _ => .ready
  | .trapped _ => .ready

/-- The effect of a host action. The block makes no check on what the host writes (R246). The trap record is kept
(R234). A snapshot swap replaces every field of R20 at once, and lets a trapped thread run again (R239, R247). -/
def HostAction.apply (s : State) : HostAction → State
  | .redirect t => { s with cpu := { s.cpu with pc := t }, port := s.port.resume }
  | .writeReg n v new => s.regWrite n v new
  | .setFlags f => s.setFlags f
  | .setFlagsWord w => s.setFlags (flagsOfWord w)
  | .setFsBase v => { s with cpu := { s.cpu with fsBase := v } }
  | .setGsBase v => { s with cpu := { s.cpu with gsBase := v } }
  | .writeVec j v new => { s with cpu := vecWrite s.cpu j v new }
  | .memory a => s.setMem (s.mem.apply a)
  | .swap c => { s with cpu := c, port := s.port.resume }

/-- Host actions in order. -/
def applyHost (l : List HostAction) (s : State) : State := l.foldl HostAction.apply s

end Sys2Proof.Machine
end

