-- ==== Sys2Proof/Machine/Loop.lean ====
section
/-! DEFINITION. The dispatch loop (R243): a step, its outcome recorded, then the host's actions at the instruction
boundary (R241). -/

namespace Sys2Proof.Machine

/-- The state after a step's outcome. A refusal sets the refusal mark and writes nothing else (R230, R232, R234;
log entry 22, DESIGN CHOICE). A stopped thread stays as it is. -/
def settle (s : State) : StepResult → State
  | .next t => t
  | .refused r => s.markRefused r
  | .fault _ => s

/-- The run has come to its end: it exited (R242), or a refusal took its meaning away (R234). -/
def State.ended (s : State) : Bool :=
  s.refusalMark.isSome ||
    match s.port with
    | .exited _ => true
    | .ready => false
    | .continued _ => false
    | .redirected _ => false
    | .trapped _ => false

/-- One turn of `Run(S)` (R243): `Step`, then what the host does before the next one (R246, R247), or in answer to a
Trap (R238). A run that has ended keeps its end state: the host acts on it no more (R234, R242). -/
def turn (s : State) (acts : List HostAction) : State :=
  let t := settle s (step s)
  if t.ended then t else applyHost acts t

/-- `Run(S)` (R243) for as many turns as the schedule of host inputs has. -/
def runWith (s : State) (schedule : List (List HostAction)) : State := schedule.foldl turn s

end Sys2Proof.Machine
end

