-- ==== Sys2Proof/Safety.lean ====
section
/-! DEFINITION. The terms the statements use: the invariant of the state, when an access passes, which access an
instruction makes (R71), which registers and flags it writes (R26, R30), what it leaves alone, and the ALU results and
flags in the spec's own arithmetic. A run is safe where its steps answer a next state. -/

namespace Sys2Proof.Machine

/-! ## The invariant -/

/-- The vector file uses only the registers and bits that exist (R37). -/
def vecCanonical (c : CpuState) : Prop :=
  ∀ j : Fin 32, (Config.NVEC ≤ j.val → c.vreg[j.val] = 0) ∧
    ∀ b, Config.VLEN.bits ≤ b → c.vreg[j.val].getLsbD b = false

/-- The address space is canonical (R61, R62), and so is the vector file (R37). -/
def State.Inv (s : State) : Prop := s.mem.wf ∧ vecCanonical s.cpu

/-- A launch parameter that a loader can give: its address space and its vector file are canonical (R61, R37). -/
def Launch.ok (l : Launch) : Prop := l.mem.wf ∧ vecCanonical (State.launch l).cpu

/-- A host action that names a possible CpuState (R247): a swapped-in vector file is canonical. -/
def HostAction.ok : HostAction → Prop
  | .swap c => vecCanonical c
  | .redirect _ | .writeReg _ _ _ | .setFlags _ | .setFlagsWord _ | .setFsBase _ | .setGsBase _ | .writeVec _ _ _
  | .memory _ => True

/-! ## Accesses -/

/-- The alignment check of R73 passes. -/
def State.alignOk (s : State) (a : Word) (k : OSize) : Prop := s.cpu.flags.AC = true → a.toNat % k.bytes = 0

/-- A read of `k` at `a` passes every check (R66, R73). -/
def State.canRead (s : State) (a : Word) (k : OSize) : Prop :=
  s.alignOk a k ∧ ∀ i < k.bytes, s.mem.readable (a + BitVec.ofNat 64 i) = true

/-- A write of `k` at `a` passes every check (R67, R73). -/
def State.canWrite (s : State) (a : Word) (k : OSize) : Prop :=
  s.alignOk a k ∧ ∀ i < k.bytes,
    s.mem.writable (a + BitVec.ofNat 64 i) = true ∧ s.mem.executable (a + BitVec.ofNat 64 i) = false

/-- The bytes at `a` are the bytes of `v`, little-endian (R65). -/
def State.holdsAt (s : State) (a : Word) (k : OSize) (v : BitVec k.bits) : Prop :=
  ∀ i < k.bytes, s.mem.byteAt (a + BitVec.ofNat 64 i) = some (v.extractLsb' (8 * i) 8)

/-- A memory access of an instruction: where, how wide, and whether it reads and writes (R71). -/
structure MemAccess where
  addr   : Word
  size   : OSize
  reads  : Bool
  writes : Bool
  deriving DecidableEq, Repr

/-- The access through an r/m operand. -/
def rmAccess (i : Instr) (s : State) (p : Pfx) (k : OSize) (m : RM) (reads writes : Bool) : Option MemAccess :=
  match m with
  | .reg _ => none
  | .mem m =>
    some { addr := effAddr s (s.nextPc (encode i)) (memOperand p m), size := k, reads := reads, writes := writes }

/-- The memory access of each instruction (R71). -/
def memAccess (i : Instr) (s : State) : Option MemAccess :=
  match i with
  | .addRm8Imm8 p d _ | .orRm8Imm8 p d _ | .adcRm8Imm8 p d _ | .sbbRm8Imm8 p d _
  | .andRm8Imm8 p d _ | .subRm8Imm8 p d _ | .xorRm8Imm8 p d _ => rmAccess i s p .o8 d true true
  | .cmpRm8Imm8 p d _ => rmAccess i s p .o8 d true false
  | .addRmImm p d _ | .orRmImm p d _ | .adcRmImm p d _ | .sbbRmImm p d _
  | .andRmImm p d _ | .subRmImm p d _ | .xorRmImm p d _
  | .addRmImm8 p d _ | .orRmImm8 p d _ | .adcRmImm8 p d _ | .sbbRmImm8 p d _
  | .andRmImm8 p d _ | .subRmImm8 p d _ | .xorRmImm8 p d _ => rmAccess i s p p.osz d true true
  | .cmpRmImm p d _ | .cmpRmImm8 p d _ => rmAccess i s p p.osz d true false
  | .xorRm8R8 p d _ => rmAccess i s p .o8 d true true
  | .xorRmR p d _ => rmAccess i s p p.osz d true true
  | .xorR8Rm8 p _ m => rmAccess i s p .o8 m true false
  | .xorRRm p _ m => rmAccess i s p p.osz m true false
  | .incRm8 p d => rmAccess i s p .o8 d true true
  | .incRm p d => rmAccess i s p p.osz d true true
  | .movRm8R8 p d _ => rmAccess i s p .o8 d false true
  | .movRmR p d _ => rmAccess i s p p.osz d false true
  | .movR8Rm8 p _ m => rmAccess i s p .o8 m true false
  | .movRRm p _ m => rmAccess i s p p.osz m true false
  | .movRm8Imm8 p d _ => rmAccess i s p .o8 d false true
  | .movRmImm p d _ => rmAccess i s p p.osz d false true
  | .callRel32 _ => some { addr := s.x rsp - 8, size := .o64, reads := false, writes := true }
  | .ret => some { addr := s.x rsp, size := .o64, reads := true, writes := false }
  | .movR8Imm8 _ _ _ | .movRImm _ _ _ | .leaRM _ _ _ | .jmpRel8 _ | .jmpRel32 _ | .syscall
  | .joRel8 _ | .jnoRel8 _ | .jbRel8 _ | .jaeRel8 _ | .jeRel8 _ | .jneRel8 _ | .jbeRel8 _ | .jaRel8 _
  | .jsRel8 _ | .jnsRel8 _ | .jpRel8 _ | .jnpRel8 _ | .jlRel8 _ | .jgeRel8 _ | .jleRel8 _ | .jgRel8 _
  | .joRel32 _ | .jnoRel32 _ | .jbRel32 _ | .jaeRel32 _ | .jeRel32 _ | .jneRel32 _ | .jbeRel32 _ | .jaRel32 _
  | .jsRel32 _ | .jnsRel32 _ | .jpRel32 _ | .jnpRel32 _ | .jlRel32 _ | .jgeRel32 _ | .jleRel32 _ | .jgRel32 _ => none

/-! ## Registers -/

/-- The register an r/m destination names, if it is one. -/
def rmReg (p : Pfx) (k : OSize) : RM → List RegNum
  | .reg r => [(regView p k (regNum p.bits.b r)).1]
  | .mem _ => []

/-- The general registers an instruction may write (R26): its register destination, and rsp, rax, rcx or r11 where the
instruction writes them implicitly. -/
def regsWritten (i : Instr) : List RegNum :=
  match i with
  | .addRm8Imm8 p d _ | .orRm8Imm8 p d _ | .adcRm8Imm8 p d _ | .sbbRm8Imm8 p d _
  | .andRm8Imm8 p d _ | .subRm8Imm8 p d _ | .xorRm8Imm8 p d _ => rmReg p .o8 d
  | .addRmImm p d _ | .orRmImm p d _ | .adcRmImm p d _ | .sbbRmImm p d _
  | .andRmImm p d _ | .subRmImm p d _ | .xorRmImm p d _
  | .addRmImm8 p d _ | .orRmImm8 p d _ | .adcRmImm8 p d _ | .sbbRmImm8 p d _
  | .andRmImm8 p d _ | .subRmImm8 p d _ | .xorRmImm8 p d _ => rmReg p p.osz d
  | .xorRm8R8 p d _ | .incRm8 p d | .movRm8R8 p d _ | .movRm8Imm8 p d _ => rmReg p .o8 d
  | .xorRmR p d _ | .incRm p d | .movRmR p d _ | .movRmImm p d _ => rmReg p p.osz d
  | .xorR8Rm8 p r _ | .movR8Rm8 p r _ => [(regView p .o8 (regNum p.bits.r r)).1]
  | .xorRRm p r _ | .movRRm p r _ | .leaRM p r _ => [(regView p p.osz (regNum p.bits.r r)).1]
  | .movR8Imm8 p r _ => [(regView p .o8 (regNum p.bits.b r)).1]
  | .movRImm p r _ => [(regView p p.osz (regNum p.bits.b r)).1]
  | .callRel32 _ | .ret => [rsp]
  | .syscall => [rax, rcx, 11]
  | .cmpRm8Imm8 _ _ _ | .cmpRmImm _ _ _ | .cmpRmImm8 _ _ _ | .jmpRel8 _ | .jmpRel32 _
  | .joRel8 _ | .jnoRel8 _ | .jbRel8 _ | .jaeRel8 _ | .jeRel8 _ | .jneRel8 _ | .jbeRel8 _ | .jaRel8 _
  | .jsRel8 _ | .jnsRel8 _ | .jpRel8 _ | .jnpRel8 _ | .jlRel8 _ | .jgeRel8 _ | .jleRel8 _ | .jgRel8 _
  | .joRel32 _ | .jnoRel32 _ | .jbRel32 _ | .jaeRel32 _ | .jeRel32 _ | .jneRel32 _ | .jbeRel32 _ | .jaRel32 _
  | .jsRel32 _ | .jnsRel32 _ | .jpRel32 _ | .jnpRel32 _ | .jlRel32 _ | .jgeRel32 _ | .jleRel32 _ | .jgRel32 _ => []

/-- Every general register but those listed is as before. -/
def SameRegsBut (s t : State) (l : List RegNum) : Prop := ∀ n, n ∉ l → t.x n = s.x n

/-! ## Flags -/

/-- The names of the nine flags (R20). -/
inductive FlagName where
  | CF
  | PF
  | AF
  | ZF
  | SF
  | DF
  | OF
  | AC
  | ID
  deriving DecidableEq, Repr

def Flags.get (f : Flags) : FlagName → Bool
  | .CF => f.CF
  | .PF => f.PF
  | .AF => f.AF
  | .ZF => f.ZF
  | .SF => f.SF
  | .DF => f.DF
  | .OF => f.OF
  | .AC => f.AC
  | .ID => f.ID

/-- The flags each instruction writes (R30). -/
def flagsWritten (i : Instr) : List FlagName :=
  match i with
  | .addRm8Imm8 _ _ _ | .orRm8Imm8 _ _ _ | .adcRm8Imm8 _ _ _ | .sbbRm8Imm8 _ _ _
  | .andRm8Imm8 _ _ _ | .subRm8Imm8 _ _ _ | .xorRm8Imm8 _ _ _ | .cmpRm8Imm8 _ _ _
  | .addRmImm _ _ _ | .orRmImm _ _ _ | .adcRmImm _ _ _ | .sbbRmImm _ _ _
  | .andRmImm _ _ _ | .subRmImm _ _ _ | .xorRmImm _ _ _ | .cmpRmImm _ _ _
  | .addRmImm8 _ _ _ | .orRmImm8 _ _ _ | .adcRmImm8 _ _ _ | .sbbRmImm8 _ _ _
  | .andRmImm8 _ _ _ | .subRmImm8 _ _ _ | .xorRmImm8 _ _ _ | .cmpRmImm8 _ _ _
  | .xorRm8R8 _ _ _ | .xorRmR _ _ _ | .xorR8Rm8 _ _ _ | .xorRRm _ _ _ => [.CF, .PF, .AF, .ZF, .SF, .OF]
  | .incRm8 _ _ | .incRm _ _ => [.PF, .AF, .ZF, .SF, .OF]
  | .movRm8R8 _ _ _ | .movRmR _ _ _ | .movR8Rm8 _ _ _ | .movRRm _ _ _ | .movR8Imm8 _ _ _ | .movRImm _ _ _
  | .movRm8Imm8 _ _ _ | .movRmImm _ _ _ | .leaRM _ _ _ | .jmpRel8 _ | .jmpRel32 _ | .callRel32 _ | .ret | .syscall
  | .joRel8 _ | .jnoRel8 _ | .jbRel8 _ | .jaeRel8 _ | .jeRel8 _ | .jneRel8 _ | .jbeRel8 _ | .jaRel8 _
  | .jsRel8 _ | .jnsRel8 _ | .jpRel8 _ | .jnpRel8 _ | .jlRel8 _ | .jgeRel8 _ | .jleRel8 _ | .jgRel8 _
  | .joRel32 _ | .jnoRel32 _ | .jbRel32 _ | .jaeRel32 _ | .jeRel32 _ | .jneRel32 _ | .jbeRel32 _ | .jaRel32 _
  | .jsRel32 _ | .jnsRel32 _ | .jpRel32 _ | .jnpRel32 _ | .jlRel32 _ | .jgeRel32 _ | .jleRel32 _ | .jgRel32 _ => []

/-- Every flag but those listed is as before. -/
def SameFlagsBut (s t : State) (l : List FlagName) : Prop := ∀ f, f ∉ l → t.cpu.flags.get f = s.cpu.flags.get f

/-! ## Memory -/

/-- Every byte of memory reads as before. -/
def SameBytes (s t : State) : Prop := ∀ b, t.mem.byteAt b = s.mem.byteAt b

/-- Every byte outside the `n` bytes from `a` reads as before. -/
def SameBytesOutside (s t : State) (a : Word) (n : Nat) : Prop :=
  ∀ b, (∀ i < n, b ≠ a + BitVec.ofNat 64 i) → t.mem.byteAt b = s.mem.byteAt b

/-! ## How an instruction ends -/

/-- The thread went on to the next instruction: `Continue` (R28, R39, R230). -/
def Continued (s t : State) (size : Nat) : Prop :=
  t.cpu.pc = s.cpu.pc + BitVec.ofNat 64 size ∧ t.cpu.icount = s.cpu.icount + 1 ∧ t.port = .continued t.cpu.pc

/-- The thread went to `target`: `Redirect` (R39, R190, R230). -/
def Redirected (s t : State) (target : Word) : Prop :=
  t.cpu.pc = target ∧ t.cpu.icount = s.cpu.icount + 1 ∧ t.port = .redirected target

/-- The step ended in a Trap (R230). -/
def State.isTrapped (s : State) : Bool :=
  match s.port with
  | .trapped _ => true
  | .ready | .continued _ | .redirected _ | .exited _ => false

/-- What no instruction but SYSCALL changes: the region map, the segment bases, the vector registers, the latch and
the two marks (R34, R35, R38, R84, R234). -/
def SameSystem (s t : State) : Prop :=
  t.mem.regions = s.mem.regions ∧ t.cpu.fsBase = s.cpu.fsBase ∧ t.cpu.gsBase = s.cpu.gsBase ∧
  t.cpu.vreg = s.cpu.vreg ∧ t.latch = s.latch ∧ t.refusalMark = s.refusalMark ∧ t.trapRecord = s.trapRecord

/-! ## What an instruction does -/

/-- The instruction completes, writes one register view, stores nothing and goes on. -/
def WritesReg (i : Instr) (s t : State) (rv : RegNum × RegView) (v : BitVec rv.2.bits) : Prop :=
  exec i s = .next t ∧ t.x rv.1 = writeView rv.2 (s.x rv.1) v ∧ SameRegsBut s t [rv.1] ∧ SameBytes s t ∧
  SameSystem s t ∧ Continued s t i.size

/-- The instruction completes, stores `v` at `a`, writes no register and goes on. -/
def WritesMem (i : Instr) (s t : State) (a : Word) (k : OSize) (v : BitVec k.bits) : Prop :=
  exec i s = .next t ∧ t.holdsAt a k v ∧ SameBytesOutside s t a k.bytes ∧ SameRegsBut s t [] ∧
  SameSystem s t ∧ Continued s t i.size

/-- The instruction completes, writes no register, stores nothing and goes on. -/
def WritesNothing (i : Instr) (s t : State) : Prop :=
  exec i s = .next t ∧ SameRegsBut s t [] ∧ SameBytes s t ∧ SameSystem s t ∧ Continued s t i.size

/-- The value of a register view at the operand size. -/
def viewValue (s : State) (k : OSize) (rv : RegNum × RegView) : BitVec k.bits :=
  (s.regRead rv.1 rv.2).setWidth k.bits

/-- The register view of the rm field when mod is 11 (R100, R131). -/
def rmView (p : Pfx) (k : OSize) (r : BitVec 3) : RegNum × RegView := regView p k (regNum p.bits.b r)

/-- The register view of the reg field (R106, R131). -/
def regFieldView (p : Pfx) (k : OSize) (r : BitVec 3) : RegNum × RegView := regView p k (regNum p.bits.r r)

/-- The address of the memory operand of an instruction (R143). -/
def memAddr (i : Instr) (s : State) (p : Pfx) (m : MemForm) : Word :=
  effAddr s (s.nextPc (encode i)) (memOperand p m)

/-- The six flags the ALU operations write (R30). -/
def aluFlagNames : List FlagName := [.CF, .PF, .AF, .ZF, .SF, .OF]

/-! ## ALU results and flags in the spec's own arithmetic -/

/-- The result of an operation (R155 to R162), modulo `2^w`. -/
def aluResult {w : Nat} (op : AluOp) (a b : BitVec w) (cf : Bool) : BitVec w :=
  match op with
  | .add => a + b
  | .or => a ||| b
  | .adc => a + b + BitVec.ofNat w cf.toNat
  | .sbb => a - b - BitVec.ofNat w cf.toNat
  | .and => a &&& b
  | .sub => a - b
  | .xor => a ^^^ b
  | .cmp => a - b

/-- A value lies outside the signed range of `w` bits. -/
def outOfRange (w : Nat) (v : Int) : Prop := v < -(2 : Int) ^ (w - 1) ∨ (2 : Int) ^ (w - 1) ≤ v

/-- ZF, SF and PF of a result (R33, R150). -/
def ResultFlags {w : Nat} (r : BitVec w) (f : Flags) : Prop :=
  (f.ZF = true ↔ r = 0) ∧ f.SF = r.msb ∧ (f.PF = true ↔ ((List.range 8).countP fun i => r.getLsbD i) % 2 = 0)

/-- CF, OF and AF of an addition with carry-in `c`: AF is the carry out of bit 3 (R151). -/
def SumFlags {w : Nat} (a b : BitVec w) (c : Nat) (f : Flags) : Prop :=
  (f.CF = true ↔ 2 ^ w ≤ a.toNat + b.toNat + c) ∧ (f.OF = true ↔ outOfRange w (a.toInt + b.toInt + c)) ∧
  (f.AF = true ↔ 16 ≤ a.toNat % 16 + b.toNat % 16 + c)

/-- CF, OF and AF of a subtraction with borrow-in `c`: AF is the borrow into bit 4 (R152). -/
def DifferenceFlags {w : Nat} (a b : BitVec w) (c : Nat) (f : Flags) : Prop :=
  (f.CF = true ↔ a.toNat < b.toNat + c) ∧ (f.OF = true ↔ outOfRange w (a.toInt - b.toInt - c)) ∧
  (f.AF = true ↔ a.toNat % 16 < b.toNat % 16 + c)

/-- The six flags after an operation (R150 to R162). AF after AND, OR and XOR is not said (R153). -/
def AluFlags {w : Nat} (op : AluOp) (a b : BitVec w) (cf : Bool) (f : Flags) : Prop :=
  ResultFlags (aluResult op a b cf) f ∧
  match op with
  | .add => SumFlags a b 0 f
  | .adc => SumFlags a b cf.toNat f
  | .sub => DifferenceFlags a b 0 f
  | .cmp => DifferenceFlags a b 0 f
  | .sbb => DifferenceFlags a b cf.toNat f
  | .or => f.CF = false ∧ f.OF = false
  | .and => f.CF = false ∧ f.OF = false
  | .xor => f.CF = false ∧ f.OF = false

/-- The predicate column of R193. -/
def CondTrue (c : Cond) (f : Flags) : Prop :=
  match c with
  | .o => f.OF = true
  | .no => f.OF = false
  | .b => f.CF = true
  | .ae => f.CF = false
  | .e => f.ZF = true
  | .ne => f.ZF = false
  | .be => f.CF = true ∨ f.ZF = true
  | .a => f.CF = false ∧ f.ZF = false
  | .s => f.SF = true
  | .ns => f.SF = false
  | .p => f.PF = true
  | .np => f.PF = false
  | .l => f.SF ≠ f.OF
  | .ge => f.SF = f.OF
  | .le => f.ZF = true ∨ f.SF ≠ f.OF
  | .g => f.ZF = false ∧ f.SF = f.OF

end Sys2Proof.Machine
end

