-- ==== Sys2Proof/WellFormed.lean ====
section
/-! DEFINITION. Which terms of `Instr` are instructions: the terms that some byte string encodes. The prefix list is one
the legacy-prefix stage collects (R94), the form allows the prefixes (R112), the addressing form is one that ModRM and
SIB can say (R101 to R104), and the immediate has the length the operand size gives it (R108). -/

namespace Sys2Proof

/-- The legacy prefixes the decoder has seen followed by `rest`: no duplicate among them (R94). -/
def noDuplicate : List LegacyPrefix → List LegacyPrefix → Bool
  | _, [] => true
  | seen, q :: rest => !isDuplicate seen q && noDuplicate (seen ++ [q]) rest

/-- 0x66 and 0x67 at most once, and at most one segment override (R90, R94). -/
def Pfx.wf (p : Pfx) : Bool := noDuplicate [] p.legacy

/-- The addressing forms that exist: `rm = 100` announces a SIB byte, and with mod 00 the base fields 101 mean
RIP-relative or no base (R101, R103, R104). -/
def MemForm.wf : MemForm → Bool
  | .base b d => b != 4 && (d != .none || b != 5)
  | .sib _ _ b d => d != .none || b != 5
  | .sibNoBase _ _ _ => true
  | .ripRel _ => true

def RM.wf : RM → Bool
  | .reg _ => true
  | .mem m => m.wf

def RM.isReg : RM → Bool
  | .reg _ => true
  | .mem _ => false

/-- iw at operand size 16, id at 32 and 64 (R108, rows 81 and C7). -/
def Imm.wfW (k : OSize) : Imm → Bool
  | .i16 _ => k == .o16
  | .i32 _ => k == .o32 || k == .o64
  | .i64 _ => false

/-- iw, id or io at operand size 16, 32 or 64 (R108, rows B8+r). -/
def Imm.wfV (k : OSize) : Imm → Bool
  | .i16 _ => k == .o16
  | .i32 _ => k == .o32
  | .i64 _ => k == .o64

/-- The checks of an instruction of form `f` with an r/m operand. -/
def wfModrm (f : OpForm) (p : Pfx) (rm : RM) : Bool := p.wf && rm.wf && f.pfxAllowed p rm.isReg

/-- The checks of an instruction of form `f` without an r/m operand. -/
def wfPlain (f : OpForm) (p : Pfx) : Bool := p.wf && f.pfxAllowed p false

/-- The term is an instruction. -/
def Instr.wf : Instr → Bool
  | .addRm8Imm8 p d _ | .orRm8Imm8 p d _ | .adcRm8Imm8 p d _ | .sbbRm8Imm8 p d _
  | .andRm8Imm8 p d _ | .subRm8Imm8 p d _ | .xorRm8Imm8 p d _ | .cmpRm8Imm8 p d _ => wfModrm .grp80 p d
  | .addRmImm p d i | .orRmImm p d i | .adcRmImm p d i | .sbbRmImm p d i
  | .andRmImm p d i | .subRmImm p d i | .xorRmImm p d i | .cmpRmImm p d i => wfModrm .grp81 p d && i.wfW p.osz
  | .addRmImm8 p d _ | .orRmImm8 p d _ | .adcRmImm8 p d _ | .sbbRmImm8 p d _
  | .andRmImm8 p d _ | .subRmImm8 p d _ | .xorRmImm8 p d _ | .cmpRmImm8 p d _ => wfModrm .grp83 p d
  | .xorRm8R8 p d _ => wfModrm .xor30 p d
  | .xorRmR p d _ => wfModrm .xor31 p d
  | .xorR8Rm8 p _ m => wfModrm .xor32 p m
  | .xorRRm p _ m => wfModrm .xor33 p m
  | .incRm8 p d => wfModrm .grpFE p d
  | .incRm p d => wfModrm .grpFF p d
  | .movRm8R8 p d _ => wfModrm .mov88 p d
  | .movRmR p d _ => wfModrm .mov89 p d
  | .movR8Rm8 p _ m => wfModrm .mov8A p m
  | .movRRm p _ m => wfModrm .mov8B p m
  | .movR8Imm8 p r _ => wfPlain (.movB0 r) p
  | .movRImm p r i => wfPlain (.movB8 r) p && i.wfV p.osz
  | .movRm8Imm8 p d _ => wfModrm .grpC6 p d
  | .movRmImm p d i => wfModrm .grpC7 p d && i.wfW p.osz
  | .leaRM p _ m => wfModrm .lea8D p (.mem m)
  | .jmpRel8 _ | .jmpRel32 _
  | .joRel8 _ | .jnoRel8 _ | .jbRel8 _ | .jaeRel8 _ | .jeRel8 _ | .jneRel8 _ | .jbeRel8 _ | .jaRel8 _
  | .jsRel8 _ | .jnsRel8 _ | .jpRel8 _ | .jnpRel8 _ | .jlRel8 _ | .jgeRel8 _ | .jleRel8 _ | .jgRel8 _
  | .joRel32 _ | .jnoRel32 _ | .jbRel32 _ | .jaeRel32 _ | .jeRel32 _ | .jneRel32 _ | .jbeRel32 _ | .jaRel32 _
  | .jsRel32 _ | .jnsRel32 _ | .jpRel32 _ | .jnpRel32 _ | .jlRel32 _ | .jgeRel32 _ | .jleRel32 _ | .jgRel32 _
  | .callRel32 _ | .ret | .syscall => true

end Sys2Proof
end

