-- ==== Sys2Proof/Certificates/Slice0/Obligations.lean ====
section
/-! DEFINITION. The statements for the provers. Each docstring names the rules of spec/ it formalises, and the log entry
of any choice of the model's own that a clause rests on. -/

open Sys2Proof Sys2Proof.Machine

/-! ## Encoding -/

/-- For every instruction and every byte string after it, the decoder reads the encoded instruction back, with its
latch, and leaves the rest (R90 to R112). -/
def Obligations.DecodeOfEncodeIsTheInstruction : Prop :=
  ∀ (i : Instr) (rest : List Byte), i.wf = true → decode (encode i ++ rest) = .ok (i.latch, i) rest

/-- Whatever the decoder admits is an instruction, and the bytes it consumed are exactly that instruction's encoding
(R28, R93, R110). -/
def Obligations.DecoderConsumesExactlyItsEncoding : Prop :=
  ∀ (bs rest : List Byte) (l : Latch) (i : Instr),
    decode bs = .ok (l, i) rest → bs = encode i ++ rest ∧ l = i.latch ∧ i.wf = true

/-- The decoder never needs a sixteenth byte; instructions of 1 byte and of 15 bytes exist, and only one with three
legacy prefixes and REX.W is longer than the 14 bytes that R7 and R91 say (log entry 24, the model's inference). -/
def Obligations.InstructionLengthBounds : Prop :=
  (∀ bs : List Byte, 15 ≤ bs.length → decode bs ≠ .more) ∧
  (∃ i : Instr, i.wf = true ∧ i.size = 1) ∧ (∃ i : Instr, i.wf = true ∧ i.size = 15) ∧
  ∀ i : Instr, i.wf = true → Config.MAXLEN < i.size →
    i.size = 15 ∧ i.latch.pfx.legacy.length = 3 ∧ i.latch.pfx.bits.w = true

/-- The first verdict wins: bytes after the last one the decoder needed change nothing (R93, R235). -/
def Obligations.LaterBytesChangeNoVerdict : Prop :=
  ∀ bs more : List Byte,
    (∀ a rest, decode bs = .ok a rest → decode (bs ++ more) = .ok a (rest ++ more)) ∧
    (∀ rest, decode bs = .illegal rest → decode (bs ++ more) = .illegal (rest ++ more)) ∧
    (∀ r, decode bs = .refused r → decode (bs ++ more) = .refused r)

/-- The two encodings the source spells out decode to their instructions, with their texts (R127, R128). -/
def Obligations.SourceEncodingsDecode : Prop :=
  (decode [0x83, 0xD0, 0xFF] =
      .ok ({ pfx := .none, opcode := [0x83], modrm := some 0xD0, sib := none, disp := [], imm := [0xFF] },
        .adcRmImm8 .none (.reg 0) 0xFF) [] ∧
    Pfx.none.osz = .o32 ∧ rmOperand .none .o32 (.reg 0) = .reg rax .w32 ∧
    (0xFF : BitVec 8).signExtend 32 = 0xFFFFFFFF#32 ∧
    instrText 0 (.adcRmImm8 .none (.reg 0) 0xFF) = "adc eax,-0x1") ∧
  (let p : Pfx := { legacy := [], rex := some { w := true, r := false, x := false, b := true } }
   decode [0x49, 0x8D, 0x74, 0x24, 0x01] =
      .ok ({ pfx := p, opcode := [0x8D], modrm := some 0x74, sib := some 0x24, disp := [0x01], imm := [] },
        .leaRM p 6 (.sib 0 4 4 (.d8 1))) [] ∧
    p.osz = .o64 ∧ regField p .o64 6 = .reg rsi .w64 ∧
    memOperand p (.sib 0 4 4 (.d8 1)) =
      { seg := none, base := some 12, index := none, scale := 0, disp := 1, ripRel := false, asz32 := false } ∧
    instrText 0 (.leaRM p 6 (.sib 0 4 4 (.d8 1))) = "lea rsi,[r12+0x1]")

/-- One word of each family, written out from its encoding, decodes to the instruction it stands for (R97, R98). -/
def Obligations.FamilyWordsDecode : Prop :=
  decode [0x80, 0xC4, 0x01] = .ok ((Instr.addRm8Imm8 .none (.reg 4) 1).latch, .addRm8Imm8 .none (.reg 4) 1) [] ∧
  decode [0x31, 0xC0] = .ok ((Instr.xorRmR .none (.reg 0) 0).latch, .xorRmR .none (.reg 0) 0) [] ∧
  decode [0xFF, 0xC1] = .ok ((Instr.incRm .none (.reg 1)).latch, .incRm .none (.reg 1)) [] ∧
  decode [0x88, 0xE1] = .ok ((Instr.movRm8R8 .none (.reg 1) 4).latch, .movRm8R8 .none (.reg 1) 4) [] ∧
  decode [0x0F, 0x84, 0x00, 0x01, 0x00, 0x00] = .ok ((Instr.jeRel32 0x100).latch, .jeRel32 0x100) [] ∧
  decode [0xE8, 0x0B, 0x00, 0x00, 0x00] = .ok ((Instr.callRel32 11).latch, .callRel32 11) [] ∧
  decode [0x0F, 0x05] = .ok (Instr.syscall.latch, .syscall) []

/-- Each instruction's opcode key matches its own row of the 76 and no other (R126). -/
def Obligations.OpcodeKeySelectsOneRow : Prop :=
  opcodeTable.length = 76 ∧
  ∀ (i : Instr) (n : Nat) (r : OpcodeRow), opcodeTable[n]? = some r →
    (i.key &&& r.maskBits = r.matchBits ↔ n = i.row)

/-- The bytes of prefixes, in the order of R90. -/
def Sys2Proof.Pfx.bytes (p : Pfx) : List Byte := p.legacy.map LegacyPrefix.byte ++ (p.rex.map Rex.byte).toList

/-- The illegal encodings are exactly: a REX byte or 0x66 in opcode position, and LEA with mod = 11. The decoder stops
at the deciding byte (R114). That LEA with mod = 11 is illegal also under a segment override, which R112 would refuse on
the same byte, is the model's choice (log entry 13). -/
def Obligations.IllegalEncodingsAreExactlyThree : Prop :=
  ∀ bs rest : List Byte,
    decode bs = .illegal rest ↔
      ∃ p : Pfx, p.wf = true ∧
        ((p.rexPresent = true ∧ ∃ b, isRexByte b = true ∧ bs = p.bytes ++ b :: rest) ∨
         ((p.rexPresent = true ∨ p.opsz16 = true) ∧ bs = p.bytes ++ 0x66 :: rest) ∨
         (∃ m, modOf m = 3 ∧ bs = p.bytes ++ 0x8D :: m :: rest))

/-- The prefix bytes that are refused where they stand: LOCK, REP, REPNE and the null segment overrides; a second 0x67
or a second segment override; and, after REX, any of these and 0x67, 0x64, 0x65 (R94, R95). -/
def Obligations.PrefixBytesRefused : Prop :=
  ∀ (p : Pfx) (b : Byte) (rest : List Byte), p.wf = true →
    (p.rex = none → b ∈ ([0xF0, 0xF2, 0xF3, 0x26, 0x2E, 0x36, 0x3E] : List Byte) →
      decode (p.bytes ++ b :: rest) = .refused .prefixNotAdmitted) ∧
    (p.rex = none → (b = 0x67 ∧ p.adsz32 = true ∨ (b = 0x64 ∨ b = 0x65) ∧ p.seg ≠ none) →
      decode (p.bytes ++ b :: rest) = .refused .duplicatePrefix) ∧
    (p.rexPresent = true → b ∈ ([0x67, 0x64, 0x65, 0xF0, 0xF2, 0xF3, 0x26, 0x2E, 0x36, 0x3E] : List Byte) →
      decode (p.bytes ++ b :: rest) = .refused .legacyPrefixAfterRex)

/-- A one-byte or two-byte opcode outside the maps is refused, and so is a member of C6, C7, FE or FF other than /0
(R97, R98, R99). That the group member is refused as such also under a prefix that R112 would refuse on the same byte is
the model's choice (log entry 13). -/
def Obligations.OpcodesOutsideTheMapsRefused : Prop :=
  ∀ (p : Pfx) (b : Byte) (rest : List Byte), p.wf = true →
    (b ∉ ([0x0F, 0x26, 0x2E, 0x36, 0x3E, 0x64, 0x65, 0x66, 0x67, 0xF0, 0xF2, 0xF3] : List Byte) →
      ¬ (0x30 ≤ b ∧ b ≤ 0x33) → ¬ (0x40 ≤ b ∧ b ≤ 0x4F) → ¬ (0x70 ≤ b ∧ b ≤ 0x7F) →
      ¬ (0x88 ≤ b ∧ b ≤ 0x8B) → ¬ (0xB0 ≤ b ∧ b ≤ 0xBF) →
      b ∉ ([0x80, 0x81, 0x83, 0x8D, 0xC3, 0xC6, 0xC7, 0xE8, 0xE9, 0xEB, 0xFE, 0xFF] : List Byte) →
      decode (p.bytes ++ b :: rest) = .refused .opcodeNotAdmitted) ∧
    (b ≠ 0x05 → ¬ (0x80 ≤ b ∧ b ≤ 0x8F) →
      decode (p.bytes ++ 0x0F :: b :: rest) = .refused .opcodeNotAdmitted) ∧
    (∀ op ∈ ([0xC6, 0xC7, 0xFE, 0xFF] : List Byte), regOf b ≠ 0 →
      decode (p.bytes ++ op :: b :: rest) = .refused .groupMemberNotAdmitted)

/-- The prefixes that no register operand and no B8+r admits: 0x67, 0x64 and 0x65 (R112). -/
def Sys2Proof.Pfx.namesMemory (p : Pfx) : Prop := p.adsz32 = true ∨ p.seg.isSome = true

/-- The rows of R112's table: after admitted prefixes, the decoder refuses with `PrefixNotApplicable` exactly where the
table has a no. Group members other than /0 of C6, C7, FE and FF, and LEA with mod = 11, have verdicts of their own. -/
def Obligations.PrefixApplicabilityFollowsTheTable : Prop :=
  ∀ (p : Pfx) (op m : Byte) (rest : List Byte), p.wf = true →
    (op ∈ ([0x81, 0x83, 0xC7, 0xFF, 0x31, 0x33, 0x89, 0x8B] : List Byte) →
      (op ∈ ([0xC7, 0xFF] : List Byte) → regOf m = 0) →
      (decode (p.bytes ++ op :: m :: rest) = .refused .prefixNotApplicable ↔ modOf m = 3 ∧ p.namesMemory)) ∧
    (op ∈ ([0x80, 0xC6, 0xFE, 0x30, 0x32, 0x88, 0x8A] : List Byte) →
      (op ∈ ([0xC6, 0xFE] : List Byte) → regOf m = 0) →
      (decode (p.bytes ++ op :: m :: rest) = .refused .prefixNotApplicable ↔
        p.opsz16 = true ∨ modOf m = 3 ∧ p.namesMemory)) ∧
    (modOf m ≠ 3 →
      (decode (p.bytes ++ 0x8D :: m :: rest) = .refused .prefixNotApplicable ↔ p.seg ≠ none)) ∧
    (0xB0 ≤ op ∧ op ≤ 0xB7 →
      (decode (p.bytes ++ op :: rest) = .refused .prefixNotApplicable ↔ p.legacy ≠ [])) ∧
    (0xB8 ≤ op ∧ op ≤ 0xBF →
      (decode (p.bytes ++ op :: rest) = .refused .prefixNotApplicable ↔ p.namesMemory)) ∧
    (op ∈ ([0xC3, 0xE8, 0xE9, 0xEB] : List Byte) ∨ (0x70 ≤ op ∧ op ≤ 0x7F) →
      (decode (p.bytes ++ op :: rest) = .refused .prefixNotApplicable ↔ p ≠ .none)) ∧
    (op = 0x05 ∨ (0x80 ≤ op ∧ op ≤ 0x8F) →
      (decode (p.bytes ++ 0x0F :: op :: rest) = .refused .prefixNotApplicable ↔ p ≠ .none))

/-! ## A step -/

/-- The bytes `bs` stand at `pc` in executable memory. -/
def Sys2Proof.Machine.State.codeIs (s : State) (bs : List Byte) : Prop :=
  ∀ k b, bs[k]? = some b →
    s.mem.executable (s.cpu.pc + BitVec.ofNat 64 k) = true ∧ s.mem.byte (s.cpu.pc + BitVec.ofNat 64 k) = b

/-- When a thread is not stopped and the bytes at `pc` are an instruction's, a step is that instruction's meaning on the
state whose latch holds its fields (R41, R243). -/
def Obligations.StepRunsTheDecodedInstruction : Prop :=
  ∀ (s : State) (i : Instr), s.stopped = none → i.wf = true → s.codeIs (encode i) →
    step s = exec i (s.setLatch i.latch)

/-- When the decoder needs a byte that is not executable, the step traps with that byte's address and the bytes before
it, and changes nothing else (R70, R93, R233). -/
def Obligations.FetchFaultTrapsAtTheExactByte : Prop :=
  ∀ (s : State) (bs : List Byte), s.stopped = none → s.codeIs bs → decode bs = .more →
    s.mem.executable (s.cpu.pc + BitVec.ofNat 64 bs.length) = false →
    step s = .next ((s.setLatch .empty).takeTrap .segmentationViolation
      { addr := s.cpu.pc + BitVec.ofNat 64 bs.length, access := some .execute, pc := s.cpu.pc, bytes := bs })

/-- An illegal encoding traps with `addr = pc` and every byte the decoder fetched, and changes nothing else
(R115, R222). -/
def Obligations.IllegalInstructionTraps : Prop :=
  ∀ (s : State) (bs : List Byte), s.stopped = none → s.codeIs bs → decode bs = .illegal [] →
    step s = .next ((s.setLatch .empty).takeTrap .illegalInstruction
      { addr := s.cpu.pc, access := none, pc := s.cpu.pc, bytes := bs })

/-- Bytes the decoder refuses make the step a refusal with the decoder's reason; the loop sets the refusal mark and
nothing else, whatever the host would do (R118, R230, R234). -/
def Obligations.RefusedBytesRefuseTheStep : Prop :=
  ∀ (s : State) (bs : List Byte) (r : DecodeRefusal), s.stopped = none → s.codeIs bs → decode bs = .refused r →
    step s = .refused (.decoder r) ∧ ∀ acts, turn s acts = s.markRefused (.decoder r)

/-- A refused thread and an exited one take no further step, and every schedule of host inputs leaves them as they are;
the state a step exits with is the end state of the run. A trapped thread takes no step until the host redirects it, and
its trap record is kept (R234, R238, R242, R243). The form of the stops is the model's (log entry 2). -/
def Obligations.StoppedThreadsTakeNoStep : Prop :=
  (∀ (s : State) (r : Refusal), s.refusalMark = some r →
    step s = .refused r ∧ ∀ schedule, runWith s schedule = s) ∧
  (∀ (s : State) (code : BitVec 32), s.refusalMark = none → s.port = .exited code →
    step s = .fault (.threadExited code) ∧ ∀ schedule, runWith s schedule = s) ∧
  (∀ s : State, let t := settle s (step s)
    (t.refusalMark ≠ none ∨ ∃ code, t.port = .exited code) →
    ∀ acts schedule, runWith s (acts :: schedule) = t) ∧
  ∀ (s : State) (tr : Trap) (target : Word), s.refusalMark = none → s.port = .trapped tr →
    step s = .fault (.threadTrapped tr) ∧ turn s [] = s ∧
    (let t := turn s [.redirect target]
     t.stopped = none ∧ t.cpu.pc = target ∧ t.trapRecord = s.trapRecord)

/-- Every step keeps the address space canonical (R61, R62) and the vector file within what exists (R37). -/
def Obligations.StepKeepsTheInvariant : Prop :=
  ∀ s t : State, s.Inv → step s = .next t → t.Inv

/-- The invariant holds at reset. -/
def Obligations.ResetMeetsTheInvariant : Prop := State.reset.Inv

/-- From every launch a loader can give, through every schedule of host inputs, the invariant holds (R61, R246,
R247). -/
def Obligations.EveryRunKeepsTheInvariant : Prop :=
  ∀ (l : Launch) (schedule : List (List HostAction)), l.ok → (∀ acts ∈ schedule, ∀ a ∈ acts, a.ok) →
    (runWith (.launch l) schedule).Inv

/-- The state after a Trap is the state before it: registers, flags, `pc`, `icount` and memory are unchanged, and the
trap record holds the Trap. Only a Trap writes the trap record, and no step that answers a next state changes the
refusal mark (R232, R234). -/
def Obligations.TrapLeavesTheStateUnchanged : Prop :=
  ∀ s t : State, step s = .next t → t.refusalMark = s.refusalMark ∧
    (∀ tr, t.port = .trapped tr →
      t.cpu = s.cpu ∧ t.mem = s.mem ∧ t.trapRecord = some tr ∧ tr.info.pc = s.cpu.pc) ∧
    (t.isTrapped = false → t.trapRecord = s.trapRecord)

/-- `icount` grows by exactly 1 on Continue, Redirect and Exit, and is unchanged on Trap (R39). -/
def Obligations.InstructionCounterCountsCompletions : Prop :=
  ∀ s t : State, step s = .next t →
    t.cpu.icount = if t.isTrapped then s.cpu.icount else s.cpu.icount + 1

/-- After a step the outcome port holds one of the four outcomes, and `pc` is the Continue or Redirect address, or has
not moved on Trap and Exit (R230). A Trap's kind has code 1, with `addr = pc` and no access kind, or code 2, with an
access kind of code 0, 1 or 2 (R231, R233). -/
def Obligations.OutcomePortTellsWherePcIs : Prop :=
  ∀ s t : State, step s = .next t →
    match t.port with
    | .ready => False
    | .continued n => t.cpu.pc = n
    | .redirected n => t.cpu.pc = n
    | .trapped tr => t.cpu.pc = s.cpu.pc ∧
        (tr.kind.code = 1 ∧ tr.info.addr = s.cpu.pc ∧ tr.info.access = none ∨
          tr.kind.code = 2 ∧ ∃ a, tr.info.access = some a ∧ a.code < 3)
    | .exited _ => t.cpu.pc = s.cpu.pc

/-- No instruction's meaning faults, and an instruction is refused only for a misaligned access under AC or a store into
executable memory (R73, R82, R118). -/
def Obligations.ExecStopsOnlyForTheTwoDataRefusals : Prop :=
  ∀ (i : Instr) (s : State), (∀ f, exec i s ≠ .fault f) ∧
    ∀ r, exec i s = .refused r → r = .alignmentCheckUnmodelled ∨ r = .selfModifyingCode

/-! ## Frames over all instructions -/

/-- Every general register but an instruction's destination, and the ones it writes implicitly, is unchanged (R26). -/
def Obligations.RegistersOutsideTheDestinationsUnchanged : Prop :=
  ∀ (i : Instr) (s t : State), exec i s = .next t → SameRegsBut s t (regsWritten i)

/-- Every flag but those R30 lists for the instruction is unchanged; so DF, AC and ID always are (R30, R34). -/
def Obligations.FlagsOutsideTheWrittenOnesUnchanged : Prop :=
  (∀ (i : Instr) (s t : State), exec i s = .next t → SameFlagsBut s t (flagsWritten i)) ∧
  ∀ i : Instr, FlagName.DF ∉ flagsWritten i ∧ FlagName.AC ∉ flagsWritten i ∧ FlagName.ID ∉ flagsWritten i

/-- Every byte but those the instruction stores to reads as before; the bytes are the ones R71 gives. SYSCALL, whose
collaborator may change memory (R221), has a statement of its own. -/
def Obligations.BytesOutsideTheStoreUnchanged : Prop :=
  ∀ (i : Instr) (s t : State), i ≠ .syscall → exec i s = .next t →
    match memAccess i s with
    | some a => if a.writes then SameBytesOutside s t a.addr a.size.bytes else SameBytes s t
    | none => SameBytes s t

/-- No instruction writes a segment base, a vector register or the latch, and none but SYSCALL changes the region map
(R35, R38, R84). -/
def Obligations.SegmentBasesVectorsAndRegionsUnchanged : Prop :=
  ∀ (i : Instr) (s t : State), exec i s = .next t →
    t.cpu.fsBase = s.cpu.fsBase ∧ t.cpu.gsBase = s.cpu.gsBase ∧ t.cpu.vreg = s.cpu.vreg ∧ t.latch = s.latch ∧
    (i ≠ .syscall → t.mem.regions = s.mem.regions)

/-- No instruction but SYSCALL changes a byte that can be executed (R67, R82). -/
def Obligations.ExecutableBytesNeverChange : Prop :=
  ∀ (i : Instr) (s t : State) (b : Word), i ≠ .syscall → exec i s = .next t → s.mem.executable b = true →
    t.mem.executable b = true ∧ t.mem.byteAt b = s.mem.byteAt b

/-! ## When an instruction completes, traps or is refused -/

/-- Every instruction completes when its access passes its checks: it ends in Continue, Redirect or Exit and counts
(R39, R66, R67, R71, R73). -/
def Obligations.EveryInstructionCompletesWhenItsAccessPasses : Prop :=
  ∀ (i : Instr) (s : State),
    (∀ a, memAccess i s = some a →
      (a.reads = true → s.canRead a.addr a.size) ∧ (a.writes = true → s.canWrite a.addr a.size)) →
    ∃ t, exec i s = .next t ∧ t.isTrapped = false ∧ t.cpu.icount = s.cpu.icount + 1

/-- A read that fails its permission check traps with the first failing byte, access read, and the instruction's bytes
(R66, R68, R233, R236). -/
def Obligations.FailedReadTraps : Prop :=
  ∀ (i : Instr) (s : State) (a : MemAccess) (n : Nat), memAccess i s = some a → a.reads = true →
    s.alignOk a.addr a.size → n < a.size.bytes →
    (∀ j < n, s.mem.readable (a.addr + BitVec.ofNat 64 j) = true) →
    s.mem.readable (a.addr + BitVec.ofNat 64 n) = false →
    exec i s = .next (s.takeTrap .segmentationViolation
      { addr := a.addr + BitVec.ofNat 64 n, access := some .read, pc := s.cpu.pc, bytes := encode i })

/-- A write that fails its permission check, after the read, if any, has passed, traps with the first failing byte,
access write (R67, R68, R69, R236). -/
def Obligations.FailedWriteTraps : Prop :=
  ∀ (i : Instr) (s : State) (a : MemAccess) (n : Nat), memAccess i s = some a → a.writes = true →
    (a.reads = true → s.canRead a.addr a.size) → s.alignOk a.addr a.size → n < a.size.bytes →
    (∀ j < n, s.mem.writable (a.addr + BitVec.ofNat 64 j) = true) →
    s.mem.writable (a.addr + BitVec.ofNat 64 n) = false →
    exec i s = .next (s.takeTrap .segmentationViolation
      { addr := a.addr + BitVec.ofNat 64 n, access := some .write, pc := s.cpu.pc, bytes := encode i })

/-- A misaligned access of more than one byte while AC = 1 is refused, whatever the permissions (R73, R236). -/
def Obligations.MisalignedAccessUnderACRefused : Prop :=
  ∀ (i : Instr) (s : State) (a : MemAccess), memAccess i s = some a → s.cpu.flags.AC = true →
    a.addr.toNat % a.size.bytes ≠ 0 → exec i s = .refused .alignmentCheckUnmodelled

/-- A store that passes its permission checks and touches an executable byte is refused (R67, R82, R236). -/
def Obligations.StoreIntoCodeRefused : Prop :=
  ∀ (i : Instr) (s : State) (a : MemAccess) (n : Nat), memAccess i s = some a → a.writes = true →
    (a.reads = true → s.canRead a.addr a.size) → s.alignOk a.addr a.size → n < a.size.bytes →
    (∀ j < a.size.bytes, s.mem.writable (a.addr + BitVec.ofNat 64 j) = true) →
    s.mem.executable (a.addr + BitVec.ofNat 64 n) = true → exec i s = .refused .selfModifyingCode

/-! ## Arithmetic and logic -/

/-- An ALU operation on a register destination: result, flags, frame and completion. -/
def Sys2Proof.Machine.AluToReg (op : AluOp) (i : Instr) (s : State) (k : OSize) (rv : RegNum × RegView)
    (b : BitVec k.bits) : Prop :=
  ∃ t, WritesReg i s t rv ((aluResult op (viewValue s k rv) b s.cpu.flags.CF).setWidth rv.2.bits) ∧
    AluFlags op (viewValue s k rv) b s.cpu.flags.CF t.cpu.flags ∧ SameFlagsBut s t aluFlagNames

/-- ADD, OR, ADC, SBB, AND, SUB and XOR of an immediate to a register, in the groups 80, 81 and 83: the result goes to
the register view, the flags are those of the operation, and the instruction continues (R151 to R161, R165). -/
def Obligations.AluImmediateToRegister : Prop :=
  ∀ (op : AluOp) (p : Pfx) (r : BitVec 3) (s : State), op ≠ .cmp →
    (∀ imm : BitVec 8, AluToReg op (instr80 op p (.reg r) imm) s .o8 (rmView p .o8 r) imm) ∧
    (∀ imm : Imm, AluToReg op (instr81 op p (.reg r) imm) s p.osz (rmView p p.osz r) (immValue p.osz imm)) ∧
    (∀ imm : BitVec 8, AluToReg op (instr83 op p (.reg r) imm) s p.osz (rmView p p.osz r) (imm.signExtend p.osz.bits))

/-- An ALU operation on a memory destination that passes its checks: result, flags, frame and completion. -/
def Sys2Proof.Machine.AluToMem (op : AluOp) (i : Instr) (s : State) (k : OSize) (a : Word) (b : BitVec k.bits) :
    Prop :=
  s.mem.wf → s.canRead a k → s.canWrite a k → ∀ v : BitVec k.bits, s.holdsAt a k v →
    ∃ t, WritesMem i s t a k (aluResult op v b s.cpu.flags.CF) ∧
      AluFlags op v b s.cpu.flags.CF t.cpu.flags ∧ SameFlagsBut s t aluFlagNames

/-- The same seven operations on a memory destination: the operand at the effective address is replaced by the result
(R151 to R161). -/
def Obligations.AluImmediateToMemory : Prop :=
  ∀ (op : AluOp) (p : Pfx) (m : MemForm) (s : State), op ≠ .cmp →
    (∀ imm : BitVec 8, let i := instr80 op p (.mem m) imm; AluToMem op i s .o8 (memAddr i s p m) imm) ∧
    (∀ imm : Imm, let i := instr81 op p (.mem m) imm
      AluToMem op i s p.osz (memAddr i s p m) (immValue p.osz imm)) ∧
    (∀ imm : BitVec 8, let i := instr83 op p (.mem m) imm
      AluToMem op i s p.osz (memAddr i s p m) (imm.signExtend p.osz.bits))

/-- CMP writes the flags of the subtraction and nothing else. -/
def Sys2Proof.Machine.Compares (i : Instr) (s : State) (k : OSize) (a b : BitVec k.bits) : Prop :=
  ∃ t, WritesNothing i s t ∧ AluFlags .cmp a b s.cpu.flags.CF t.cpu.flags ∧ SameFlagsBut s t aluFlagNames

/-- CMP of a register or of a readable memory operand with an immediate sets the flags of the difference and writes no
register and no byte (R152, R162). -/
def Obligations.CompareSetsFlagsOnly : Prop :=
  ∀ (p : Pfx) (s : State),
    (∀ (r : BitVec 3) (imm : BitVec 8),
      Compares (.cmpRm8Imm8 p (.reg r) imm) s .o8 (viewValue s .o8 (rmView p .o8 r)) imm ∧
      Compares (.cmpRmImm8 p (.reg r) imm) s p.osz (viewValue s p.osz (rmView p p.osz r))
        (imm.signExtend p.osz.bits)) ∧
    (∀ (r : BitVec 3) (imm : Imm),
      Compares (.cmpRmImm p (.reg r) imm) s p.osz (viewValue s p.osz (rmView p p.osz r)) (immValue p.osz imm)) ∧
    (∀ (m : MemForm) (imm : BitVec 8) (v : BitVec OSize.o8.bits), let i := Instr.cmpRm8Imm8 p (.mem m) imm
      s.canRead (memAddr i s p m) .o8 → s.holdsAt (memAddr i s p m) .o8 v → Compares i s .o8 v imm) ∧
    (∀ (m : MemForm) (imm : BitVec 8) (v : BitVec p.osz.bits), let i := Instr.cmpRmImm8 p (.mem m) imm
      s.canRead (memAddr i s p m) p.osz → s.holdsAt (memAddr i s p m) p.osz v →
      Compares i s p.osz v (imm.signExtend p.osz.bits)) ∧
    (∀ (m : MemForm) (imm : Imm) (v : BitVec p.osz.bits), let i := Instr.cmpRmImm p (.mem m) imm
      s.canRead (memAddr i s p m) p.osz → s.holdsAt (memAddr i s p m) p.osz v →
      Compares i s p.osz v (immValue p.osz imm))

/-- XOR between registers, in its four register/memory forms; a register XORed with itself is cleared (R161). -/
def Obligations.XorOfRegisters : Prop :=
  ∀ (p : Pfx) (d r : BitVec 3) (s : State),
    AluToReg .xor (.xorRm8R8 p (.reg d) r) s .o8 (rmView p .o8 d) (viewValue s .o8 (regFieldView p .o8 r)) ∧
    AluToReg .xor (.xorRmR p (.reg d) r) s p.osz (rmView p p.osz d) (viewValue s p.osz (regFieldView p p.osz r)) ∧
    AluToReg .xor (.xorR8Rm8 p d (.reg r)) s .o8 (regFieldView p .o8 d) (viewValue s .o8 (rmView p .o8 r)) ∧
    AluToReg .xor (.xorRRm p d (.reg r)) s p.osz (regFieldView p p.osz d) (viewValue s p.osz (rmView p p.osz r)) ∧
    (rmView p p.osz d = regFieldView p p.osz r →
      ∃ t, WritesReg (.xorRmR p (.reg d) r) s t (rmView p p.osz d) 0 ∧ t.cpu.flags.ZF = true)

/-- XOR with a memory operand that passes its checks: forms 30 and 31 replace it, forms 32 and 33 read it into a
register (R161). -/
def Obligations.XorWithMemory : Prop :=
  ∀ (p : Pfx) (m : MemForm) (r : BitVec 3) (s : State),
    (let i := Instr.xorRm8R8 p (.mem m) r
     AluToMem .xor i s .o8 (memAddr i s p m) (viewValue s .o8 (regFieldView p .o8 r))) ∧
    (let i := Instr.xorRmR p (.mem m) r
     AluToMem .xor i s p.osz (memAddr i s p m) (viewValue s p.osz (regFieldView p p.osz r))) ∧
    (∀ v : BitVec OSize.o8.bits, let i := Instr.xorR8Rm8 p r (.mem m)
      s.canRead (memAddr i s p m) .o8 → s.holdsAt (memAddr i s p m) .o8 v →
      AluToReg .xor i s .o8 (regFieldView p .o8 r) v) ∧
    (∀ v : BitVec p.osz.bits, let i := Instr.xorRRm p r (.mem m)
      s.canRead (memAddr i s p m) p.osz → s.holdsAt (memAddr i s p m) p.osz v →
      AluToReg .xor i s p.osz (regFieldView p p.osz r) v)

/-- The flags after INC of `a`: those of an addition of 1, without CF. -/
def Sys2Proof.Machine.IncFlags {w : Nat} (a : BitVec w) (f : Flags) : Prop :=
  ResultFlags (a + 1) f ∧ (f.OF = true ↔ outOfRange w (a.toInt + 1)) ∧ (f.AF = true ↔ a.toNat % 16 = 15)

/-- INC of a register or of a memory operand that passes its checks adds 1 modulo 2^osz, sets OF, AF, ZF, SF and PF and
keeps CF (R163). -/
def Obligations.IncrementKeepsCarry : Prop :=
  ∀ (p : Pfx) (s : State),
    (∀ r : BitVec 3, ∃ t, WritesReg (.incRm8 p (.reg r)) s t (rmView p .o8 r)
        ((viewValue s .o8 (rmView p .o8 r) + 1).setWidth _) ∧
      IncFlags (viewValue s .o8 (rmView p .o8 r)) t.cpu.flags ∧ SameFlagsBut s t [.PF, .AF, .ZF, .SF, .OF]) ∧
    (∀ r : BitVec 3, ∃ t, WritesReg (.incRm p (.reg r)) s t (rmView p p.osz r)
        ((viewValue s p.osz (rmView p p.osz r) + 1).setWidth _) ∧
      IncFlags (viewValue s p.osz (rmView p p.osz r)) t.cpu.flags ∧ SameFlagsBut s t [.PF, .AF, .ZF, .SF, .OF]) ∧
    (∀ (m : MemForm) (v : BitVec OSize.o8.bits), let i := Instr.incRm8 p (.mem m)
      s.mem.wf → s.canRead (memAddr i s p m) .o8 → s.canWrite (memAddr i s p m) .o8 →
      s.holdsAt (memAddr i s p m) .o8 v →
      ∃ t, WritesMem i s t (memAddr i s p m) .o8 (v + 1) ∧ IncFlags v t.cpu.flags ∧
        SameFlagsBut s t [.PF, .AF, .ZF, .SF, .OF]) ∧
    (∀ (m : MemForm) (v : BitVec p.osz.bits), let i := Instr.incRm p (.mem m)
      s.mem.wf → s.canRead (memAddr i s p m) p.osz → s.canWrite (memAddr i s p m) p.osz →
      s.holdsAt (memAddr i s p m) p.osz v →
      ∃ t, WritesMem i s t (memAddr i s p m) p.osz (v + 1) ∧ IncFlags v t.cpu.flags ∧
        SameFlagsBut s t [.PF, .AF, .ZF, .SF, .OF])

/-! ## Data movement -/

/-- The instruction writes the value to the register view and no flag. -/
def Sys2Proof.Machine.MovesToReg (i : Instr) (s : State) (k : OSize) (rv : RegNum × RegView) (v : BitVec k.bits) :
    Prop :=
  ∃ t, WritesReg i s t rv (v.setWidth rv.2.bits) ∧ t.cpu.flags = s.cpu.flags

/-- MOV between registers, in the forms 88, 89, 8A and 8B, moves exactly osz bits and writes no flag (R180, R181,
R184). -/
def Obligations.MovBetweenRegisters : Prop :=
  ∀ (p : Pfx) (d r : BitVec 3) (s : State),
    MovesToReg (.movRm8R8 p (.reg d) r) s .o8 (rmView p .o8 d) (viewValue s .o8 (regFieldView p .o8 r)) ∧
    MovesToReg (.movRmR p (.reg d) r) s p.osz (rmView p p.osz d) (viewValue s p.osz (regFieldView p p.osz r)) ∧
    MovesToReg (.movR8Rm8 p d (.reg r)) s .o8 (regFieldView p .o8 d) (viewValue s .o8 (rmView p .o8 r)) ∧
    MovesToReg (.movRRm p d (.reg r)) s p.osz (regFieldView p p.osz d) (viewValue s p.osz (rmView p p.osz r))

/-- MOV of an immediate to a register, in the forms B0+r, B8+r, C6 /0 and C7 /0; the immediate of B8+r is not extended
and that of C7 is sign-extended at operand size 64 (R108, R182, R183). -/
def Obligations.MovImmediateToRegister : Prop :=
  ∀ (p : Pfx) (r : BitVec 3) (s : State),
    (∀ imm : BitVec 8, MovesToReg (.movR8Imm8 p r imm) s .o8 (rmView p .o8 r) imm ∧
      MovesToReg (.movRm8Imm8 p (.reg r) imm) s .o8 (rmView p .o8 r) imm) ∧
    (∀ imm : BitVec 16, p.osz = .o16 →
      MovesToReg (.movRImm p r (.i16 imm)) s .o16 (rmView p .o16 r) imm ∧
      MovesToReg (.movRmImm p (.reg r) (.i16 imm)) s .o16 (rmView p .o16 r) imm) ∧
    (∀ imm : BitVec 32, p.osz = .o32 →
      MovesToReg (.movRImm p r (.i32 imm)) s .o32 (rmView p .o32 r) imm ∧
      MovesToReg (.movRmImm p (.reg r) (.i32 imm)) s .o32 (rmView p .o32 r) imm) ∧
    (∀ imm : BitVec 64, p.osz = .o64 → MovesToReg (.movRImm p r (.i64 imm)) s .o64 (rmView p .o64 r) imm) ∧
    (∀ imm : BitVec 32, p.osz = .o64 →
      MovesToReg (.movRmImm p (.reg r) (.i32 imm)) s .o64 (rmView p .o64 r) (imm.signExtend 64))

/-- The instruction stores the value and writes no flag. -/
def Sys2Proof.Machine.MovesToMem (i : Instr) (s : State) (k : OSize) (a : Word) (v : BitVec k.bits) : Prop :=
  s.mem.wf → s.canWrite a k → ∃ t, WritesMem i s t a k v ∧ t.cpu.flags = s.cpu.flags

/-- MOV to memory, in the forms 88, 89, C6 /0 and C7 /0, stores exactly osz bits at the effective address and writes no
flag (R180, R183, R184). -/
def Obligations.MovToMemory : Prop :=
  ∀ (p : Pfx) (m : MemForm) (s : State),
    (∀ r : BitVec 3, let i := Instr.movRm8R8 p (.mem m) r
      MovesToMem i s .o8 (memAddr i s p m) (viewValue s .o8 (regFieldView p .o8 r))) ∧
    (∀ r : BitVec 3, let i := Instr.movRmR p (.mem m) r
      MovesToMem i s p.osz (memAddr i s p m) (viewValue s p.osz (regFieldView p p.osz r))) ∧
    (∀ imm : BitVec 8, let i := Instr.movRm8Imm8 p (.mem m) imm; MovesToMem i s .o8 (memAddr i s p m) imm) ∧
    (∀ imm : Imm, let i := Instr.movRmImm p (.mem m) imm
      MovesToMem i s p.osz (memAddr i s p m) (immValue p.osz imm))

/-- MOV from memory, in the forms 8A and 8B, loads exactly osz bits from the effective address, little-endian, and
writes no flag; the address is taken from the registers the instruction starts with (R65, R134, R181). -/
def Obligations.MovFromMemory : Prop :=
  ∀ (p : Pfx) (m : MemForm) (r : BitVec 3) (s : State),
    (∀ v : BitVec OSize.o8.bits, let i := Instr.movR8Rm8 p r (.mem m)
      s.canRead (memAddr i s p m) .o8 → s.holdsAt (memAddr i s p m) .o8 v →
      MovesToReg i s .o8 (regFieldView p .o8 r) v) ∧
    (∀ v : BitVec p.osz.bits, let i := Instr.movRRm p r (.mem m)
      s.canRead (memAddr i s p m) p.osz → s.holdsAt (memAddr i s p m) p.osz v →
      MovesToReg i s p.osz (regFieldView p p.osz r) v)

/-- LEA writes the offset, truncated to the operand size, without a segment base, and makes no access (R145, R185). -/
def Obligations.LeaWritesTheOffset : Prop :=
  ∀ (p : Pfx) (r : BitVec 3) (m : MemForm) (s : State), let i := Instr.leaRM p r m
    ∃ t, WritesReg i s t (regFieldView p p.osz r)
        ((offset s (s.nextPc (encode i)) (memOperand p m)).setWidth (regFieldView p p.osz r).2.bits) ∧
      t.cpu.flags = s.cpu.flags ∧ memAccess i s = none

/-- The index that an operand has from REX.X and the SIB index field: none where they number 4, and else the register
they number (R102, R106). -/
def Sys2Proof.Machine.MemOperand.indexIs (o : MemOperand) (p : Pfx) (idx : BitVec 3) : Prop :=
  let n := 8 * p.bits.x.toNat + idx.toNat
  (n = 4 → o.index = none) ∧ (n ≠ 4 → ∃ r, o.index = some r ∧ r.val = n)

/-- The base that an operand has from REX.B and a base field (R103, R106). -/
def Sys2Proof.Machine.MemOperand.baseIs (o : MemOperand) (p : Pfx) (b : BitVec 3) : Prop :=
  ∃ r, o.base = some r ∧ r.val = 8 * p.bits.b.toNat + b.toNat

/-- The operand that the fields of an encoding give: base, index, scale, sign-extended displacement, and what 0x67, 0x64
and 0x65 say (R94, R102 to R107). -/
def Sys2Proof.Machine.FieldsGiveTheOperand (p : Pfx) : Prop :=
  (∀ m : MemForm, ((memOperand p m).asz32 = true ↔ .addrsize ∈ p.legacy) ∧
    ((memOperand p m).seg = some .FS ↔ .segFS ∈ p.legacy) ∧ ((memOperand p m).seg = some .GS ↔ .segGS ∈ p.legacy)) ∧
  (∀ (b : BitVec 3) (d : Disp), let o := memOperand p (.base b d)
    o.baseIs p b ∧ o.index = none ∧ o.ripRel = false) ∧
  (∀ (ss : BitVec 2) (idx b : BitVec 3) (d : Disp), let o := memOperand p (.sib ss idx b d)
    o.baseIs p b ∧ o.indexIs p idx ∧ o.scale = ss ∧ o.ripRel = false) ∧
  (∀ (ss : BitVec 2) (idx : BitVec 3) (d : BitVec 32), let o := memOperand p (.sibNoBase ss idx d)
    o.base = none ∧ o.indexIs p idx ∧ o.scale = ss ∧ o.ripRel = false ∧ o.disp.toInt = d.toInt) ∧
  (∀ d : BitVec 32, let o := memOperand p (.ripRel d)
    o.base = none ∧ o.index = none ∧ o.ripRel = true ∧ o.disp.toInt = d.toInt) ∧
  (∀ (ss : BitVec 2) (idx b : BitVec 3) (v : BitVec 8) (w : BitVec 32),
    (∀ m ∈ [MemForm.base b .none, .sib ss idx b .none], (memOperand p m).disp = 0) ∧
    (∀ m ∈ [MemForm.base b (.d8 v), .sib ss idx b (.d8 v)], (memOperand p m).disp.toInt = v.toInt) ∧
    ∀ m ∈ [MemForm.base b (.d32 w), .sib ss idx b (.d32 w)], (memOperand p m).disp.toInt = w.toInt)

/-- From an encoding's fields to the effective address: the operand the fields give, and its address in exact
arithmetic: base, index times scale and displacement modulo 2^64, or modulo 2^32 under 0x67; from the next instruction
for the RIP-relative form; plus the segment base (R102 to R107, R139, R140, R141, R142). -/
def Obligations.EffectiveAddressArithmetic : Prop :=
  (LegacyPrefix.opsize.byte = 0x66 ∧ LegacyPrefix.addrsize.byte = 0x67 ∧ LegacyPrefix.segFS.byte = 0x64 ∧
    LegacyPrefix.segGS.byte = 0x65) ∧
  (∀ p : Pfx, p.wf = true → FieldsGiveTheOperand p) ∧
  (∀ (i : Instr) (s : State) (p : Pfx) (m : MemForm),
    memAddr i s p m = effAddr s (s.cpu.pc + BitVec.ofNat 64 i.size) (memOperand p m)) ∧
  ∀ (s : State) (next : Word) (o : MemOperand),
    (let b := match o.base with | some n => (s.x n).toNat | none => 0
     let i := match o.index with | some n => (s.x n).toNat | none => 0
     (o.ripRel = false → o.asz32 = false →
       (offset s next o).toNat = (b + i * 2 ^ o.scale.toNat + o.disp.toNat) % 2 ^ 64) ∧
     (o.ripRel = false → o.asz32 = true →
       (offset s next o).toNat =
         (b % 2 ^ 32 + i % 2 ^ 32 * 2 ^ o.scale.toNat + o.disp.toNat % 2 ^ 32) % 2 ^ 32)) ∧
    (o.ripRel = true → o.asz32 = false → (offset s next o).toNat = (next.toNat + o.disp.toNat) % 2 ^ 64) ∧
    (o.ripRel = true → o.asz32 = true → (offset s next o).toNat = (next.toNat + o.disp.toNat) % 2 ^ 32) ∧
    (o.seg = none → effAddr s next o = offset s next o) ∧
    (o.seg = some .FS → effAddr s next o = s.cpu.fsBase + offset s next o) ∧
    (o.seg = some .GS → effAddr s next o = s.cpu.gsBase + offset s next o)

/-! ## Control transfer -/

/-- The instruction completes, goes to a target and writes no register, flag or byte. -/
def Sys2Proof.Machine.JumpsTo (i : Instr) (s : State) (target : Word) : Prop :=
  ∃ t, exec i s = .next t ∧ Redirected s t target ∧ SameRegsBut s t [] ∧ SameBytes s t ∧ SameSystem s t ∧
    t.cpu.flags = s.cpu.flags

/-- JMP goes to the address of the next instruction plus the sign-extended displacement; its forms have 2 and 5 bytes
(R135, R190, R191). -/
def Obligations.JumpTarget : Prop :=
  (∀ (rel : BitVec 8) (s : State), JumpsTo (.jmpRel8 rel) s (s.cpu.pc + 2 + rel.signExtend 64)) ∧
  (∀ (rel : BitVec 32) (s : State), JumpsTo (.jmpRel32 rel) s (s.cpu.pc + 5 + rel.signExtend 64))

/-- The instruction completes, goes on and writes no register, flag or byte. -/
def Sys2Proof.Machine.FallsThrough (i : Instr) (s : State) (size : Nat) : Prop :=
  ∃ t, exec i s = .next t ∧ Continued s t size ∧ SameRegsBut s t [] ∧ SameBytes s t ∧ SameSystem s t ∧
    t.cpu.flags = s.cpu.flags

/-- Each of the sixteen conditional jumps, in both widths, goes to its target when the predicate of its condition code
holds of the flags, and falls through otherwise; its forms have 2 and 6 bytes (R192 to R209). -/
def Obligations.ConditionalJumpFollowsItsPredicate : Prop :=
  ∀ (c : Cond) (s : State),
    (∀ rel : BitVec 8,
      (CondTrue c s.cpu.flags → JumpsTo (instrJcc8 c rel) s (s.cpu.pc + 2 + rel.signExtend 64)) ∧
      (¬ CondTrue c s.cpu.flags → FallsThrough (instrJcc8 c rel) s 2)) ∧
    (∀ rel : BitVec 32,
      (CondTrue c s.cpu.flags → JumpsTo (instrJcc32 c rel) s (s.cpu.pc + 6 + rel.signExtend 64)) ∧
      (¬ CondTrue c s.cpu.flags → FallsThrough (instrJcc32 c rel) s 6))

/-- CALL stores the address of the next instruction in the 8 bytes below rsp, lowers rsp by 8 and goes to its target
(R210). -/
def Obligations.CallPushesTheReturnAddress : Prop :=
  ∀ (rel : BitVec 32) (s : State), s.mem.wf → s.canWrite (s.x rsp - 8) .o64 →
    ∃ t, exec (.callRel32 rel) s = .next t ∧ t.holdsAt (s.x rsp - 8) .o64 (s.cpu.pc + 5 : Word) ∧
      t.x rsp = s.x rsp - 8 ∧ Redirected s t (s.cpu.pc + 5 + rel.signExtend 64) ∧
      SameBytesOutside s t (s.x rsp - 8) 8 ∧ SameRegsBut s t [rsp] ∧ SameSystem s t ∧ t.cpu.flags = s.cpu.flags

/-- RET goes to the 8-byte value at rsp and raises rsp by 8 (R211). -/
def Obligations.RetPopsItsTarget : Prop :=
  ∀ (s : State) (target : BitVec OSize.o64.bits), s.canRead (s.x rsp) .o64 → s.holdsAt (s.x rsp) .o64 target →
    ∃ t, exec .ret s = .next t ∧ t.x rsp = s.x rsp + 8 ∧ Redirected s t target ∧ SameBytes s t ∧
      SameRegsBut s t [rsp] ∧ SameSystem s t ∧ t.cpu.flags = s.cpu.flags

/-! ## SYSCALL -/

/-- SYSCALL asks the collaborator with the number in rax and the arguments in rdi, rsi, rdx, r10, r8 and r9. A result
goes to all of rax, only rcx and r11 beside it may change, no flag does, and the thread continues; an exit ends the
run with its code and moves neither `pc` nor a register. Memory changes only as the collaborator's operations say
(R220, R221). The answer is a free value: the statement holds whatever it is (log entries 8 and 9). -/
def Obligations.SyscallWritesTheAnswer : Prop :=
  ∀ s : State,
    let ans := Config.syscallHost s.draws
      { nr := s.x 0, arg0 := s.x 7, arg1 := s.x 6, arg2 := s.x 2, arg3 := s.x 10, arg4 := s.x 8, arg5 := s.x 9,
        pc := s.cpu.pc, size := 2 } s.mem
    ∃ t, exec .syscall s = .next t ∧ t.cpu.icount = s.cpu.icount + 1 ∧ t.cpu.flags = s.cpu.flags ∧
      t.mem = s.mem.applyAll ans.actions ∧ t.cpu.fsBase = s.cpu.fsBase ∧ t.cpu.gsBase = s.cpu.gsBase ∧
      t.cpu.vreg = s.cpu.vreg ∧
      match ans.result with
      | .ret v => t.x 0 = v ∧ SameRegsBut s t [0, 1, 11] ∧ t.cpu.pc = s.cpu.pc + 2 ∧ t.port = .continued t.cpu.pc
      | .exitProcess code => t.port = .exited code ∧ SameRegsBut s t [] ∧ t.cpu.pc = s.cpu.pc

/-! ## Registers, flags and memory -/

/-- Reading and writing the views of a register: 32 bits zero-extend, 16 and 8 bits leave the other bits, the high byte
is bits 15:8 (R23, R24, R25). -/
def Obligations.RegisterViewRules : Prop :=
  ∀ (s : State) (n : RegNum),
    (s.regRead n .w64 = s.x n ∧ s.regRead n .w32 = (s.x n).setWidth 32 ∧ s.regRead n .w16 = (s.x n).setWidth 16 ∧
      s.regRead n .l8 = (s.x n).setWidth 8 ∧ s.regRead n .h8 = (s.x n >>> 8).setWidth 8) ∧
    (∀ v : BitVec 64, (s.regWrite n .w64 v).x n = v) ∧
    (∀ v : BitVec 32, ((s.regWrite n .w32 v).x n).toNat = v.toNat) ∧
    (∀ (v : BitVec 16) (b : Nat), b < 64 →
      ((s.regWrite n .w16 v).x n).getLsbD b = if b < 16 then v.getLsbD b else (s.x n).getLsbD b) ∧
    (∀ (v : BitVec 8) (b : Nat), b < 64 →
      ((s.regWrite n .l8 v).x n).getLsbD b = (if b < 8 then v.getLsbD b else (s.x n).getLsbD b) ∧
      ((s.regWrite n .h8 v).x n).getLsbD b =
        if 8 ≤ b ∧ b < 16 then v.getLsbD (b - 8) else (s.x n).getLsbD b) ∧
    (∀ (k : RegView) (v : BitVec k.bits) (m : RegNum), m ≠ n → (s.regWrite n k v).x m = s.x m)

/-- Which register and which view an operand names. A REX byte is 0100WRXB; a register number is a REX bit over a 3-bit
field, REX.B for rm and the opcode's field and REX.R for reg; the operand size is 64 with REX.W, else 16 with 0x66, else
32; the views at 16, 32 and 64 bits are the register's own. Without REX the byte register numbers 4 to 7 are ah, ch, dh
and bh; with any REX byte, 0x40 included, and for every other number, they are low bytes (R27, R95, R106, R107,
R131). -/
def Obligations.RegisterSelection : Prop :=
  (∀ n : RegNum, sel8 n false = if 4 ≤ n.val ∧ n.val ≤ 7 then (n - 4, .h8) else (n, .l8)) ∧
  (∀ n : RegNum, sel8 n true = (n, .l8)) ∧
  (∀ p : Pfx, p.rex = some (Rex.ofByte 0x40) → p.rexPresent = true) ∧
  (∀ b : Byte, isRexByte b = true → let x := Rex.ofByte b
    b.toNat = 64 + 8 * x.w.toNat + 4 * x.r.toNat + 2 * x.x.toNat + x.b.toNat) ∧
  (∀ p : Pfx, (p.rex = none → p.rexPresent = false ∧ p.bits = ⟨false, false, false, false⟩) ∧
    ∀ x, p.rex = some x → p.rexPresent = true ∧ p.bits = x) ∧
  (∀ p : Pfx, (p.bits.w = true → p.osz = .o64) ∧
    (p.bits.w = false → .opsize ∈ p.legacy → p.osz = .o16) ∧
    (p.bits.w = false → .opsize ∉ p.legacy → p.osz = .o32)) ∧
  (∀ (e : Bool) (low : BitVec 3), (regNum e low).val = 8 * e.toNat + low.toNat) ∧
  (∀ (p : Pfx) (n : RegNum), regView p .o8 n = sel8 n p.rexPresent ∧ regView p .o16 n = (n, .w16) ∧
    regView p .o32 n = (n, .w32) ∧ regView p .o64 n = (n, .w64)) ∧
  ∀ (p : Pfx) (k : OSize) (f : BitVec 3),
    rmOperand p k (.reg f) = .reg (rmView p k f).1 (rmView p k f).2 ∧
    regField p k f = .reg (regFieldView p k f).1 (regFieldView p k f).2 ∧
    opcodeReg p k f = rmOperand p k (.reg f) ∧ rmView p k f = regView p k (regNum p.bits.b f) ∧
    regFieldView p k f = regView p k (regNum p.bits.r f)

/-- Unpacking the packed flags word gives the flags back, whatever the fixed bits are, and the bits stand where R31 puts
them (R31, R32). That R31 is followed, and not two words of spec/95 with bit 9 set, is the model's inference (log
entry 12). -/
def Obligations.FlagsWordPacksAndUnpacks : Prop :=
  (∀ f : Flags, flagsOfWord (getFlagsWord f) = f) ∧
  (∀ (f : Flags) (w : Word), flagsOfWord (w &&& ~~~ Config.flagBits ||| f.pack) = f) ∧
  ∀ f : Flags, f.pack.toNat = f.CF.toNat + 4 * f.PF.toNat + 16 * f.AF.toNat + 64 * f.ZF.toNat + 128 * f.SF.toNat +
    1024 * f.DF.toNat + 2048 * f.OF.toNat + 2 ^ 18 * f.AC.toNat + 2 ^ 21 * f.ID.toNat

/-- What a write stored is what reads of any width give back byte by byte; a read of the same width gives the value;
other bytes are untouched (R65, R66, R67, R72). -/
def Obligations.ReadAfterWrite : Prop :=
  ∀ (s t : State) (a : Word) (k : OSize) (v : BitVec k.bits), s.mem.wf → s.memWrite a k v = .ok t →
    t.holdsAt a k v ∧ SameBytesOutside s t a k.bytes ∧ t.cpu = s.cpu ∧ t.mem.regions = s.mem.regions ∧
    (t.canRead a k → t.memRead a k = .ok v)

/-- A read's bytes are those of the value it returns, least significant first, and a read is defined exactly when it
passes its checks (R66). -/
def Obligations.ReadAssemblesLittleEndian : Prop :=
  ∀ (s : State) (a : Word) (k : OSize) (v : BitVec k.bits),
    s.memRead a k = .ok v ↔ s.canRead a k ∧ s.holdsAt a k v

/-- Two canonical address spaces with the same regions that read the same everywhere are equal data (log entry 5). -/
def Obligations.CanonicalMemoriesAreEqual : Prop :=
  ∀ m n : Memory, m.wf → n.wf → m.regions = n.regions → (∀ a, m.byteAt a = n.byteAt a) → m = n

/-! ## Launch and the host -/

/-- The value at launch of every piece of state, for every launch parameter (R43, R271). -/
def Obligations.LaunchValues : Prop :=
  ∀ l : Launch, let s := State.launch l
    s.cpu.pc = l.entry ∧ s.x rsp = l.rsp ∧ (∀ n : RegNum, n ≠ rsp → s.x n = l.gpr[n.val]) ∧ s.cpu.flags = l.flags ∧
    s.cpu.fsBase = l.fsBase ∧ s.cpu.gsBase = l.gsBase ∧ s.cpu.vreg = l.vreg ∧ s.cpu.icount = 0 ∧
    s.latch = .empty ∧ s.refusalMark = none ∧ s.trapRecord = none ∧ s.mem = l.mem ∧ s.stopped = none

/-- A snapshot swap replaces every field of the CpuState at once and touches neither memory nor the trap record
(R21, R247). -/
def Obligations.SnapshotSwapReplacesTheCpuState : Prop :=
  ∀ (s : State) (c : CpuState), let t := (HostAction.swap c).apply s
    t.cpu = c ∧ t.mem = s.mem ∧ t.trapRecord = s.trapRecord ∧ t.refusalMark = s.refusalMark

/-- A write through a vector view that exists is read back by that view and by every narrower one; the bits above it are
kept or cleared as VEC_NARROW_WRITE says; other registers are unchanged (R37, R38). -/
def Obligations.VectorViewsShareOneStorage : Prop :=
  ∀ (c : CpuState) (j : Fin 32) (v u : VecLen) (new : BitVec v.bits), vecViewExists j v = true → u.bits ≤ v.bits →
    vecRead (vecWrite c j v new) j u = some (new.setWidth u.bits) ∧
    (∀ b, v.bits ≤ b → b < 512 → (vecWrite c j v new).vreg[j.val].getLsbD b =
      match Config.VEC_NARROW_WRITE with
      | .preserve => c.vreg[j.val].getLsbD b
      | .zero => false) ∧
    (∀ i : Fin 32, i ≠ j → (vecWrite c j v new).vreg[i.val] = c.vreg[i.val])

/-- Protecting a range changes the protection of the mapped addresses in it, and no byte and no other address; unmapping
a range makes its addresses hold nothing, and leaves every other address as it was (R62, R84; log entry 7). -/
def Obligations.RegionOperationsChangeOnlyTheirRange : Prop :=
  ∀ (m : Memory) (base size : Nat) (a : Word), m.wf →
    (∀ p : Protection, let n := m.apply (.protect base size p)
      n.byteAt a = m.byteAt a ∧
      (n.regionAt a).map Region.prot =
        if base ≤ a.toNat ∧ a.toNat < base + size then (m.regionAt a).map fun _ => p
        else (m.regionAt a).map Region.prot) ∧
    (let n := m.apply (.unmap base size)
     if base ≤ a.toNat ∧ a.toNat < base + size then n.byteAt a = none
     else n.byteAt a = m.byteAt a ∧ (n.regionAt a).map Region.prot = (m.regionAt a).map Region.prot)
end

