-- ==== Sys2Proof/Laws/Bytes.lean ====
section
/-! SUPPORT. The laws of little-endian bytes (R65): bytes to a number and back. -/

namespace Sys2Proof

/-- The address after the first one, and `i` more. -/
theorem addr_succ (a : Word) (i : Nat) : a + 1 + BitVec.ofNat 64 i = a + BitVec.ofNat 64 (i + 1) := by
  apply BitVec.eq_of_toNat_eq; simp; omega

@[simp] theorem leBytes_length {w : Nat} (n : Nat) (v : BitVec w) : (leBytes n v).length = n := by
  induction n generalizing v with
  | zero => rfl
  | succ n ih => simp [leBytes, ih]

theorem leBytes_getElem? {w : Nat} (n : Nat) (v : BitVec w) (i : Nat) (hi : i < n) :
    (leBytes n v)[i]? = some (v.extractLsb' (8 * i) 8) := by
  induction n generalizing v i with
  | zero => omega
  | succ n ih =>
    cases i with
    | zero =>
      simp only [leBytes, List.getElem?_cons_zero, Option.some.injEq]
      apply BitVec.eq_of_getLsbD_eq; simp
    | succ i =>
      simp only [leBytes, List.getElem?_cons_succ]
      rw [ih _ i (by omega)]
      congr 1
      apply BitVec.eq_of_getLsbD_eq
      intro j hj
      simp [hj, show 8 + (8 * i + j) = 8 * (i + 1) + j by ring]

theorem leNat_leBytes {w : Nat} (n : Nat) (v : BitVec w) : leNat (leBytes n v) = v.toNat % 256 ^ n := by
  induction n generalizing v with
  | zero => simp [leBytes, leNat, Nat.mod_one]
  | succ n ih =>
    have e : v.toNat % 256 ^ (n + 1) = v.toNat % 256 + 256 * (v.toNat / 256 % 256 ^ n) := by
      rw [Nat.pow_succ', Nat.mod_mul]
    rw [leBytes, leNat, ih, e, BitVec.toNat_setWidth, BitVec.toNat_ushiftRight, Nat.shiftRight_eq_div_pow]

theorem leVal_leBytes {w n : Nat} (h : w = 8 * n) (v : BitVec w) : leVal w (leBytes n v) = v := by
  subst h
  apply BitVec.eq_of_toNat_eq
  have hv := v.isLt
  have e : (2 : Nat) ^ (8 * n) = 256 ^ n := by rw [Nat.pow_mul]
  rw [leVal, BitVec.toNat_ofNat, leNat_leBytes, e, Nat.mod_mod]
  exact Nat.mod_eq_of_lt (e ▸ hv)

theorem leNat_lt (bs : List Byte) : leNat bs < 256 ^ bs.length := by
  induction bs with
  | nil => simp [leNat]
  | cons b bs ih =>
    have := b.isLt
    simp only [leNat, List.length_cons, pow_succ]
    omega

theorem leBytes_leVal {w n : Nat} (h : w = 8 * n) (bs : List Byte) (hn : bs.length = n) :
    leBytes n (leVal w bs) = bs := by
  subst h
  subst hn
  induction bs with
  | nil => rfl
  | cons b bs ih =>
    have hb := b.isLt
    have hl := leNat_lt bs
    have h256 : (2 : Nat) ^ (8 * (bs.length + 1)) = 256 * 256 ^ bs.length := by
      rw [Nat.pow_mul, pow_succ]; ring
    simp only [List.length_cons, leBytes, List.cons.injEq]
    constructor
    · apply BitVec.eq_of_toNat_eq
      simp only [leVal, leNat, BitVec.toNat_setWidth, BitVec.toNat_ofNat, h256]
      rw [Nat.mod_eq_of_lt (a := _ + _) (by omega)]
      omega
    · refine Eq.trans ?_ ih
      have e : ∀ {w w' : Nat} (x : BitVec w) (y : BitVec w') (n : Nat), x.toNat = y.toNat → leBytes n x = leBytes n y := by
        intro w w' x y n
        induction n generalizing w w' with
        | zero => intro _; rfl
        | succ n ihn =>
          intro hxy
          simp only [leBytes, List.cons.injEq]
          exact ⟨BitVec.eq_of_toNat_eq (by simp [hxy]), ihn _ _ (by simp [hxy])⟩
      apply e
      simp only [leVal, leNat, BitVec.toNat_ushiftRight, BitVec.toNat_ofNat, h256, Nat.shiftRight_eq_div_pow]
      rw [Nat.mod_eq_of_lt (by omega), Nat.mod_eq_of_lt (by rw [Nat.pow_mul]; exact hl)]
      omega

/-- A value is the number of its bytes when each of its bytes is the byte there. -/
theorem leVal_eq_of_bytes {w n : Nat} (h : w = 8 * n) (bs : List Byte) (hn : bs.length = n) (v : BitVec w)
    (hv : ∀ i < n, bs[i]? = some (v.extractLsb' (8 * i) 8)) : leVal w bs = v := by
  rw [← leVal_leBytes h v]
  congr 1
  apply List.ext_getElem?
  intro i
  by_cases hi : i < n
  · rw [hv i hi, leBytes_getElem? n v i hi]
  · rw [List.getElem?_eq_none (by omega), List.getElem?_eq_none (by simp; omega)]

end Sys2Proof
end

