-- ==== Sys2Proof/Laws/Decode.lean ====
section
/-! SUPPORT. The small laws of the decoder's stages and of the encoder's fields. -/

namespace Sys2Proof

/-! ## Bit fields -/

@[simp] theorem modOf_fieldsByte (a : BitVec 2) (b c : BitVec 3) : modOf (fieldsByte a b c) = a := by
  revert a b c; decide

@[simp] theorem regOf_fieldsByte (a : BitVec 2) (b c : BitVec 3) : regOf (fieldsByte a b c) = b := by
  revert a b c; decide

@[simp] theorem rmOf_fieldsByte (a : BitVec 2) (b c : BitVec 3) : rmOf (fieldsByte a b c) = c := by
  revert a b c; decide

@[simp] theorem fieldsByte_of (m : Byte) : fieldsByte (modOf m) (regOf m) (rmOf m) = m := by
  revert m; decide

/-- A REX byte is in the REX pattern and holds its four bits. -/
theorem Rex.byte_fields (r : Rex) : isRexByte r.byte = true ∧ Rex.ofByte r.byte = r := by
  obtain ⟨w, r, x, b⟩ := r
  revert w r x b; decide

@[simp] theorem AluOp.ext_ofExt (e : BitVec 3) : (AluOp.ofExt e).ext = e := by revert e; decide

@[simp] theorem AluOp.ofExt_ext (op : AluOp) : AluOp.ofExt op.ext = op := by cases op <;> rfl

@[simp] theorem Cond.code_ofCode (c : BitVec 4) : (Cond.ofCode c).code = c := by revert c; decide

@[simp] theorem Cond.ofCode_code (c : Cond) : Cond.ofCode c.code = c := by cases c <;> rfl

/-! ## Prefixes -/

@[simp] theorem LegacyPrefix.ofByte_byte (q : LegacyPrefix) : LegacyPrefix.ofByte q.byte = some q := by
  cases q <;> rfl

/-- At most three legacy prefixes are distinct in the sense of R94. -/
theorem noDuplicate_length {l : List LegacyPrefix} (h : noDuplicate [] l = true) : l.length ≤ 3 := by
  match l with
  | [] | [_] | [_, _] | [_, _, _] => simp
  | a :: b :: c :: d :: l =>
    exfalso
    cases a <;> cases b <;> simp [noDuplicate, isDuplicate] at h <;> cases c <;> simp at h <;>
      (cases d <;> simp at h)

/-! ## The scan -/

/-- A stage's result handed on. -/
theorem Scan.andThen_ok {α β : Type} {x : Scan α} {f : α → List Byte → Scan β} {b : β} {rest : List Byte}
    (h : x.andThen f = .ok b rest) : ∃ a r, x = .ok a r ∧ f a r = .ok b rest := by
  cases x with
  | ok a r => exact ⟨a, r, rfl, h⟩
  | illegal r => cases h
  | refused r => cases h
  | more => cases h

/-- The next `n` bytes are read when they are there. -/
theorem scanBytes_append (bs rest : List Byte) (n : Nat) (h : bs.length = n) :
    scanBytes n (bs ++ rest) = .ok bs rest := by
  subst h
  induction bs with
  | nil => rfl
  | cons b bs ih => simp [scanBytes, scanByte, Scan.andThen, ih]

/-- What reading `n` bytes gives. -/
theorem scanBytes_ok {n : Nat} {bs a rest : List Byte} (h : scanBytes n bs = .ok a rest) :
    bs = a ++ rest ∧ a.length = n := by
  induction n generalizing bs a rest with
  | zero => cases h; exact ⟨rfl, rfl⟩
  | succ n ih =>
    obtain ⟨b, r, hb, h⟩ := Scan.andThen_ok h
    obtain ⟨t, r', ht, h⟩ := Scan.andThen_ok h
    cases h
    obtain ⟨rfl, hl⟩ := ih ht
    cases bs with
    | nil => cases hb
    | cons c bs => cases hb; exact ⟨rfl, by simp [hl]⟩

/-! ## Immediates and displacements -/

@[simp] theorem Imm.ofBytes_bytes (i : Imm) : Imm.ofBytes i.bytes = i := by
  cases i with
  | i16 v => simp [Imm.ofBytes, Imm.bytes, leVal_leBytes (n := 2) rfl v]
  | i32 v => simp [Imm.ofBytes, Imm.bytes, leVal_leBytes (n := 4) rfl v]
  | i64 v => simp [Imm.ofBytes, Imm.bytes, leVal_leBytes (n := 8) rfl v]

theorem Imm.bytes_length_wfW {k : OSize} {i : Imm} (h : i.wfW k = true) : i.bytes.length = immWLen k := by
  cases i <;> cases k <;> simp [Imm.wfW] at h <;> simp [Imm.bytes, immWLen]

theorem Imm.bytes_length_wfV {k : OSize} {i : Imm} (h : i.wfV k = true) : i.bytes.length = k.bytes := by
  cases i <;> cases k <;> simp [Imm.wfV] at h <;> simp [Imm.bytes]

theorem Imm.bytes_length_bounds (i : Imm) : 2 ≤ i.bytes.length ∧ i.bytes.length ≤ 8 := by
  cases i <;> simp [Imm.bytes]

theorem immWLen_le (k : OSize) : immWLen k ≤ 4 := by cases k <;> decide

theorem Disp.bytes_length_le (d : Disp) : d.bytes.length ≤ 4 := by cases d <;> simp [Disp.bytes]

/-! ## The r/m operand -/

/-- The ModRM byte of an operand, as the decoder's stages see it. -/
theorem RM.modrm_fields {rm : RM} (h : rm.wf = true) (reg : BitVec 3) :
    needsSib (rm.modrm reg) = rm.sib.isSome ∧ dispLen (rm.modrm reg) rm.sib = rm.dispBytes.length ∧
      (modOf (rm.modrm reg) == 3) = rm.isReg ∧ regOf (rm.modrm reg) = reg := by
  cases rm with
  | reg r => simp [RM.modrm, RM.sib, RM.dispBytes, RM.isReg, needsSib, dispLen]
  | mem m =>
    cases m with
    | base b d =>
      simp only [RM.wf, MemForm.wf] at h
      cases d <;> simp [RM.modrm, RM.sib, RM.dispBytes, RM.isReg, needsSib, dispLen, Disp.mod, Disp.bytes] at * <;>
        tauto
    | sib ss i b d =>
      simp only [RM.wf, MemForm.wf] at h
      cases d <;> simp [RM.modrm, RM.sib, RM.dispBytes, RM.isReg, needsSib, dispLen, Disp.mod, Disp.bytes] at * <;>
        tauto
    | sibNoBase ss i d => simp [RM.modrm, RM.sib, RM.dispBytes, RM.isReg, needsSib, dispLen]
    | ripRel d => simp [RM.modrm, RM.sib, RM.dispBytes, RM.isReg, needsSib, dispLen]

/-- SIB and displacement take at most five bytes. -/
theorem RM.sib_disp_length (rm : RM) : rm.sib.toList.length + rm.dispBytes.length ≤ 5 := by
  cases rm with
  | reg r => simp [RM.sib, RM.dispBytes]
  | mem m =>
    cases m with
    | base b d => have := d.bytes_length_le; simp [RM.sib, RM.dispBytes]; omega
    | sib ss i b d => have := d.bytes_length_le; simp [RM.sib, RM.dispBytes]; omega
    | sibNoBase ss i d => simp [RM.sib, RM.dispBytes]
    | ripRel d => simp [RM.sib, RM.dispBytes]

/-! ## Lengths (R91; log entry 24) -/

theorem Latch.bytes_length (l : Latch) : l.bytes.length =
    l.pfx.legacy.length + l.pfx.rex.toList.length + l.opcode.length + l.modrm.toList.length + l.sib.toList.length
      + l.disp.length + l.imm.length := by
  cases h : l.pfx.rex <;> simp [Latch.bytes, h] <;> omega

/-- An instruction with a ModRM byte and at most four bytes of immediate. -/
theorem modrmLatch_length {f : OpForm} {op : Byte} {p : Pfx} {reg : BitVec 3} {rm : RM} {imm : List Byte}
    (h : wfModrm f p rm = true) (hi : imm.length ≤ 4) :
    1 ≤ (modrmLatch op p reg rm imm).bytes.length ∧ (modrmLatch op p reg rm imm).bytes.length ≤ 15 := by
  simp only [wfModrm, Bool.and_eq_true] at h
  have h₁ := noDuplicate_length h.1.1
  have h₂ := rm.sib_disp_length
  have h₃ : p.rex.toList.length ≤ 1 := by cases p.rex <;> simp
  rw [Latch.bytes_length]
  simp only [modrmLatch, List.length_singleton, Option.toList_some]
  omega

/-- An instruction without a ModRM byte, of one opcode byte. -/
theorem plainLatch_length {f : OpForm} {op : Byte} {p : Pfx} {imm : List Byte} (h : wfPlain f p = true)
    (hi : imm.length ≤ 8) :
    1 ≤ (plainLatch [op] p imm).bytes.length ∧ (plainLatch [op] p imm).bytes.length ≤ 15 := by
  simp only [wfPlain, Bool.and_eq_true] at h
  have h₁ := noDuplicate_length h.1
  have h₃ : p.rex.toList.length ≤ 1 := by cases p.rex <;> simp
  rw [Latch.bytes_length]
  simp only [plainLatch, List.length_singleton, Option.toList_none, List.length_nil]
  omega

end Sys2Proof
end

