-- ==== Sys2Proof/Laws/Flags.lean ====
section
/-! SUPPORT. The ALU results and flags of the meanings are those of the spec's own arithmetic (R33, R150 to R163). -/

namespace Sys2Proof.Machine

/-! ## Results -/

theorem addC_r {w : Nat} (a b : BitVec w) (c : Bool) : (addC a b c).r = a + b + BitVec.ofNat w c.toNat := by
  apply BitVec.eq_of_toNat_eq; simp [addC]

theorem subB_r {w : Nat} (a b : BitVec w) (c : Bool) : (subB a b c).r = a - b - BitVec.ofNat w c.toNat := by
  simp only [subB, Int.sub_eq_add_neg, BitVec.ofInt_add, BitVec.ofInt_neg, BitVec.ofInt_natCast,
    BitVec.ofNat_toNat, BitVec.setWidth_eq, BitVec.sub_eq_add_neg]

/-- The result of an operation (R155 to R162). -/
theorem aluEval_r {w : Nat} (op : AluOp) (a b : BitVec w) (cf draw : Bool) :
    (aluEval op a b cf draw).r = aluResult op a b cf := by
  cases op <;> simp [aluEval, aluResult, addC_r, subB_r, logical]

/-! ## Flags -/

theorem popcount_eq {w : Nat} (r : BitVec w) (n : Nat) :
    popcount r n = (List.range n).countP fun i => r.getLsbD i := by
  induction n with
  | zero => rfl
  | succ n ih => rw [popcount, ih, List.range_succ, List.countP_append]; cases h : r.getLsbD n <;> simp [h]

theorem szp_flags {w : Nat} (f : Flags) (r : BitVec w) : ResultFlags r (f.szp r) := by
  simp [ResultFlags, Flags.szp, parity, popcount_eq]

theorem signedOverflow_iff (w : Nat) (v : Int) : signedOverflow w v = true ↔ outOfRange w v := by
  unfold signedOverflow outOfRange
  rw [Bool.not_eq_true', decide_eq_false_iff_not]
  omega

theorem adjustFlag_iff {w : Nat} (a b r : BitVec w) :
    adjustFlag a b r = true ↔ (a.toNat / 16 + b.toNat / 16 + r.toNat / 16) % 2 = 1 := by
  have e : ∀ x : BitVec w, x.getLsbD 4 = decide (x.toNat / 16 % 2 = 1) := fun x => by
    simp [BitVec.getLsbD, Nat.testBit_eq_decide_div_mod_eq]
  unfold adjustFlag
  rw [BitVec.getLsbD_xor, BitVec.getLsbD_xor, e, e, e]
  by_cases h₁ : a.toNat / 16 % 2 = 1 <;> by_cases h₂ : b.toNat / 16 % 2 = 1 <;>
    by_cases h₃ : r.toNat / 16 % 2 = 1 <;> simp [h₁, h₂, h₃] <;> omega

theorem addC_flags {w : Nat} (hw : 5 ≤ w) (a b : BitVec w) (c : Bool) (f : Flags) :
    SumFlags a b c.toNat (f.afterAlu (addC a b c)) := by
  refine ⟨by simp [Flags.afterAlu, Flags.szp, addC], ?_, ?_⟩
  · simp [Flags.afterAlu, Flags.szp, addC, signedOverflow_iff]
  · have hd : (32 : Nat) ∣ 2 ^ w := ⟨2 ^ (w - 5), by rw [show (32 : Nat) = 2 ^ 5 by rfl, ← pow_add]; congr 1; omega⟩
    have hr : (a.toNat + b.toNat + c.toNat) % 2 ^ w % 32 = (a.toNat + b.toNat + c.toNat) % 32 :=
      Nat.mod_mod_of_dvd _ hd
    have hc : c.toNat < 2 := c.toNat_lt
    simp only [Flags.afterAlu, Flags.szp, addC, adjustFlag_iff, BitVec.toNat_ofNat]
    omega

theorem subB_flags {w : Nat} (hw : 5 ≤ w) (a b : BitVec w) (c : Bool) (f : Flags) :
    DifferenceFlags a b c.toNat (f.afterAlu (subB a b c)) := by
  refine ⟨by simp [Flags.afterAlu, Flags.szp, subB], ?_, ?_⟩
  · simp [Flags.afterAlu, Flags.szp, subB, signedOverflow_iff]
  · have hd : (32 : Int) ∣ ((2 ^ w : Nat) : Int) :=
      ⟨2 ^ (w - 5), by
        rw [show (32 : Int) = 2 ^ 5 by rfl, ← pow_add, Nat.cast_pow, Nat.cast_ofNat]; congr 1; omega⟩
    have hr : ((a.toNat : Int) - b.toNat - c.toNat) % ((2 ^ w : Nat) : Int) % 32 =
        ((a.toNat : Int) - b.toNat - c.toNat) % 32 := Int.emod_emod_of_dvd _ hd
    have hp : (0 : Int) ≤ ((a.toNat : Int) - b.toNat - c.toNat) % ((2 ^ w : Nat) : Int) :=
      Int.emod_nonneg _ (by positivity)
    have hc : c.toNat < 2 := c.toNat_lt
    simp only [Flags.afterAlu, Flags.szp, subB, adjustFlag_iff, BitVec.toNat_ofInt]
    omega

/-- The six flags after an operation (R154). -/
theorem aluEval_flags {w : Nat} (hw : 5 ≤ w) (op : AluOp) (a b : BitVec w) (cf draw : Bool) (f : Flags) :
    AluFlags op a b cf (f.afterAlu (aluEval op a b cf draw)) := by
  refine ⟨?_, ?_⟩
  · rw [← aluEval_r op a b cf draw]; exact szp_flags _ _
  · cases op
    case add => exact addC_flags hw a b false f
    case adc => exact addC_flags hw a b cf f
    case sub => exact subB_flags hw a b false f
    case cmp => exact subB_flags hw a b false f
    case sbb => exact subB_flags hw a b cf f
    all_goals simp [Flags.afterAlu, Flags.szp, aluEval, logical]

/-- An ALU operation writes no other flag (R30). -/
theorem afterAlu_other {w : Nat} (f : Flags) (o : AluOut w) {n : FlagName} (h : n ∉ aluFlagNames) :
    (f.afterAlu o).get n = f.get n := by
  cases n <;> simp_all [aluFlagNames, Flags.get, Flags.afterAlu, Flags.szp]

/-- INC writes neither CF nor any other flag (R163). -/
theorem afterInc_other {w : Nat} (f : Flags) (o : AluOut w) {n : FlagName}
    (h : n ∉ [FlagName.PF, .AF, .ZF, .SF, .OF]) : (f.afterInc o).get n = f.get n := by
  cases n <;> simp_all [Flags.get, Flags.afterInc, Flags.szp]

/-! ## Conditions -/

theorem condHolds_iff (c : Cond) (f : Flags) : condHolds c f = true ↔ CondTrue c f := by
  cases c <;> simp [condHolds, CondTrue]

end Sys2Proof.Machine
end

