-- ==== Sys2Proof/Laws/Memory.lean ====
section
/-! SUPPORT. The laws of the address space: a read after a write, and every operation keeps the canonical form. -/

namespace Sys2Proof

/-! ## Cells -/

theorem lookupCell_storeCell_ne {a c : Nat} (b : Byte) (h : c ≠ a) (cs : List Host.Cell) :
    lookupCell c (storeCell a b cs) = lookupCell c cs := by
  induction cs with
  | nil => unfold storeCell; split <;> simp [lookupCell, h.symm]
  | cons d ds ih =>
    unfold storeCell
    split
    · simp [lookupCell, ih]
    · split
      · next hd => split <;> simp [lookupCell, hd, h.symm]
      · split <;> simp [lookupCell, h.symm]

theorem lookupCell_of_lt {a : Nat} (cs : List Host.Cell) (h : ∀ d ∈ cs, a < d.1) : lookupCell a cs = blankByte := by
  induction cs with
  | nil => rfl
  | cons d ds ih =>
    have := h d (by simp)
    rw [lookupCell, if_neg (by omega), ih fun e he => h e (by simp [he])]

theorem lookupCell_storeCell_same (a : Nat) (b : Byte) (cs : List Host.Cell)
    (hs : cs.Pairwise fun c d => c.1 < d.1) : lookupCell a (storeCell a b cs) = b := by
  induction cs with
  | nil => unfold storeCell; split <;> simp_all [lookupCell]
  | cons d ds ih =>
    obtain ⟨hd, hs⟩ := List.pairwise_cons.mp hs
    unfold storeCell
    split
    · next h => simp [lookupCell, ih hs, show d.1 ≠ a by omega]
    · split
      · next h =>
        split
        · next hb => rw [lookupCell_of_lt _ fun e he => h ▸ hd e he, hb]
        · simp [lookupCell]
      · next h₁ h₂ =>
        split
        · next hb =>
          rw [lookupCell_of_lt, hb]
          intro e he
          rcases List.mem_cons.mp he with rfl | he
          · omega
          · have := hd e he
            omega
        · simp [lookupCell]

theorem mem_storeCell {a : Nat} {b : Byte} {cs : List Host.Cell} {c : Host.Cell} (h : c ∈ storeCell a b cs) :
    c ∈ cs ∨ c = (a, b) ∧ b ≠ blankByte := by
  induction cs with
  | nil => unfold storeCell at h; split at h <;> simp_all
  | cons d ds ih =>
    unfold storeCell at h
    repeat' split at h
    all_goals simp only [List.mem_cons] at h ⊢; tauto

theorem storeCell_sorted {a : Nat} {b : Byte} {cs : List Host.Cell} (hs : cs.Pairwise fun c d => c.1 < d.1) :
    (storeCell a b cs).Pairwise fun c d => c.1 < d.1 := by
  induction cs with
  | nil => unfold storeCell; split <;> simp
  | cons d ds ih =>
    obtain ⟨hd, ht⟩ := List.pairwise_cons.mp hs
    unfold storeCell
    split
    · next h =>
      refine List.pairwise_cons.mpr ⟨fun e he => ?_, ih ht⟩
      rcases mem_storeCell he with he | ⟨rfl, -⟩
      · exact hd e he
      · exact h
    · split
      · next h =>
        split
        · exact ht
        · exact List.pairwise_cons.mpr ⟨fun e he => h ▸ hd e he, ht⟩
      · next h₁ h₂ =>
        split
        · exact hs
        · refine List.pairwise_cons.mpr ⟨fun e he => ?_, hs⟩
          rcases List.mem_cons.mp he with rfl | he
          · exact Nat.lt_of_le_of_ne (Nat.le_of_not_lt h₁) (Ne.symm h₂)
          · exact Nat.lt_of_le_of_lt (Nat.le_of_not_lt h₁) (hd e he)

/-! ## One byte -/

namespace Memory

variable (m : Memory)

@[simp] theorem setByte_regions (a : Word) (b : Byte) : (m.setByte a b).regions = m.regions := by
  unfold setByte; split <;> rfl

@[simp] theorem setByte_regionAt (a c : Word) (b : Byte) : (m.setByte a b).regionAt c = m.regionAt c := by
  simp [regionAt]

@[simp] theorem setByte_mapped (a c : Word) (b : Byte) : (m.setByte a b).mapped c = m.mapped c := by
  simp [mapped]

theorem mapped_iff (a : Word) : m.mapped a = true ↔ ∃ r ∈ m.regions, r.holds a.toNat = true := by
  simp [mapped, regionAt]

theorem byteAt_setByte_ne {a c : Word} (b : Byte) (h : c ≠ a) : (m.setByte a b).byteAt c = m.byteAt c := by
  have h' : c.toNat ≠ a.toNat := fun e => h (BitVec.eq_of_toNat_eq e)
  have hb : (m.setByte a b).byte c = m.byte c := by
    unfold byte setByte
    split
    · exact lookupCell_storeCell_ne b h' _
    · rfl
  rw [byteAt, byteAt, setByte_mapped, hb]

theorem byteAt_setByte_same {a : Word} (b : Byte) (hw : m.wf) (h : m.mapped a = true) :
    (m.setByte a b).byteAt a = some b := by
  rw [byteAt, setByte_mapped, if_pos h]
  simp [setByte, h, byte, lookupCell_storeCell_same _ _ _ hw.2.2.1]

theorem setByte_wf {a : Word} {b : Byte} (hw : m.wf) : (m.setByte a b).wf := by
  unfold setByte
  split
  · next h =>
    obtain ⟨h₁, h₂, h₃, h₄⟩ := hw
    refine ⟨h₁, h₂, storeCell_sorted h₃, fun c hc => ?_⟩
    rcases mem_storeCell hc with hc | ⟨rfl, hb⟩
    · exact h₄ c hc
    · exact ⟨hb, (mapped_iff m a).mp h⟩
  · exact hw

/-! ## Several bytes -/

@[simp] theorem writeBytes_regions (a : Word) (bs : List Byte) : (m.writeBytes a bs).regions = m.regions := by
  induction bs generalizing m a with
  | nil => rfl
  | cons b bs ih => simp [writeBytes, ih]

theorem writeBytes_wf {a : Word} {bs : List Byte} (hw : m.wf) : (m.writeBytes a bs).wf := by
  induction bs generalizing m a with
  | nil => exact hw
  | cons b bs ih => exact ih _ (m.setByte_wf hw)

theorem regionAt_of_regions {m n : Memory} (h : m.regions = n.regions) (a : Word) : m.regionAt a = n.regionAt a := by
  simp [regionAt, h]

/-- Bytes outside the written range read as before. -/
theorem byteAt_writeBytes_outside {a c : Word} (bs : List Byte)
    (h : ∀ i < bs.length, c ≠ a + BitVec.ofNat 64 i) : (m.writeBytes a bs).byteAt c = m.byteAt c := by
  induction bs generalizing m a with
  | nil => rfl
  | cons b bs ih =>
    rw [writeBytes, ih]
    · exact m.byteAt_setByte_ne b (by simpa using h 0 (by simp))
    · intro i hi
      have := h (i + 1) (by simpa using hi)
      rwa [show a + 1 + BitVec.ofNat 64 i = a + BitVec.ofNat 64 (i + 1) by
        apply BitVec.eq_of_toNat_eq; simp; omega]

/-- A written byte is read back; a range of less than 2^64 bytes does not meet itself. -/
theorem byteAt_writeBytes_inside {a : Word} (bs : List Byte) (hw : m.wf) (hn : bs.length ≤ 2 ^ 64)
    (hm : ∀ i < bs.length, m.mapped (a + BitVec.ofNat 64 i) = true) (i : Nat) (hi : i < bs.length) :
    (m.writeBytes a bs).byteAt (a + BitVec.ofNat 64 i) = bs[i]? := by
  induction bs generalizing m a i with
  | nil => simp at hi
  | cons b bs ih =>
    have e : ∀ j, a + 1 + BitVec.ofNat 64 j = a + BitVec.ofNat 64 (j + 1) := fun j => by
      apply BitVec.eq_of_toNat_eq; simp; omega
    simp only [List.length_cons] at hn hi hm
    cases i with
    | zero =>
      rw [writeBytes, byteAt_writeBytes_outside]
      · simpa using m.byteAt_setByte_same (a := a) b hw (by simpa using hm 0 (by omega))
      · intro j hj he
        have := congrArg BitVec.toNat he
        simp at this
        omega
    | succ i =>
      rw [writeBytes, ← e, ih _ (m.setByte_wf hw) (by omega) _ i (by omega)]
      · simp
      · intro j hj
        rw [e]
        simpa [mapped] using hm (j + 1) (by omega)

end Memory

end Sys2Proof
end

