-- ==== Sys2Proof/Laws/Regions.lean ====
section
/-! SUPPORT. The region operations of R84: each keeps the canonical form of the address space. -/

namespace Sys2Proof

/-! ## Parts of a region -/

theorem Region.holds_iff (r : Region) (a : Nat) : r.holds a = true ↔ r.base ≤ a ∧ a < r.limit := by
  simp [Region.holds]

theorem Region.mem_below {r q : Region} {lo : Nat} :
    q ∈ r.below lo ↔ r.base < min r.limit lo ∧ q = { r with size := min r.limit lo - r.base } := by
  unfold Region.below; split <;> simp_all

theorem Region.mem_above {r q : Region} {hi : Nat} :
    q ∈ r.above hi ↔
      max r.base hi < r.limit ∧ q = { r with base := max r.base hi, size := r.limit - max r.base hi } := by
  unfold Region.above; split <;> simp_all

theorem Region.mem_within {r q : Region} {lo hi : Nat} {p : Protection} :
    q ∈ r.within lo hi p ↔ max r.base lo < min r.limit hi ∧
      q = { base := max r.base lo, size := min r.limit hi - max r.base lo, prot := p } := by
  unfold Region.within; split <;> simp_all

/-- The parts a region is split into lie in it, are not empty and are in rising order. -/
def Region.Parts (f : Region → List Region) : Prop :=
  ∀ r : Region, 0 < r.size → (f r).Pairwise (fun q q' => q.limit ≤ q'.base) ∧
    ∀ q ∈ f r, 0 < q.size ∧ r.base ≤ q.base ∧ q.limit ≤ r.limit

theorem Region.parts_keep : Region.Parts fun r => [r] := fun r h => ⟨by simp, by simp [h]⟩

theorem Region.parts_protect {lo hi : Nat} (hl : lo ≤ hi) (p : Protection) :
    Region.Parts fun r => r.below lo ++ r.within lo hi p ++ r.above hi := by
  refine fun r _ => ⟨?_, ?_⟩
  · unfold Region.below Region.within Region.above
    dsimp only
    split <;> split <;> split <;> simp [Region.limit] at * <;> omega
  · intro q hq
    simp only [List.mem_append, Region.mem_below, Region.mem_within, Region.mem_above] at hq
    rcases hq with (⟨h, rfl⟩ | ⟨h, rfl⟩) | ⟨h, rfl⟩ <;> simp [Region.limit] at * <;> omega

theorem Region.parts_unmap {lo hi : Nat} (hl : lo ≤ hi) : Region.Parts fun r => r.below lo ++ r.above hi := by
  refine fun r _ => ⟨?_, ?_⟩
  · unfold Region.below Region.above
    dsimp only
    split <;> split <;> simp [Region.limit] at *
    omega
  · intro q hq
    simp only [List.mem_append, Region.mem_below, Region.mem_above] at hq
    rcases hq with ⟨h, rfl⟩ | ⟨h, rfl⟩ <;> simp [Region.limit] at * <;> omega

/-- The region map after every region is split: still canonical. -/
theorem Region.split_wf {f : Region → List Region} (hf : Region.Parts f) {l : List Region}
    (h₁ : ∀ r ∈ l, 0 < r.size ∧ r.limit ≤ 2 ^ 64) (h₂ : l.Pairwise fun r q => r.limit ≤ q.base) :
    (∀ r ∈ l.flatMap f, 0 < r.size ∧ r.limit ≤ 2 ^ 64) ∧
      (l.flatMap f).Pairwise fun r q => r.limit ≤ q.base := by
  refine ⟨fun q hq => ?_, ?_⟩
  · obtain ⟨r, hr, hq⟩ := List.mem_flatMap.mp hq
    have := (hf r (h₁ r hr).1).2 q hq
    have := h₁ r hr
    omega
  · refine List.pairwise_flatMap.mpr ⟨fun r hr => (hf r (h₁ r hr).1).1, ?_⟩
    refine h₂.imp_of_mem fun {r r'} hr hr' h q hq q' hq' => ?_
    have := (hf r (h₁ r hr).1).2 q hq
    have := (hf r' (h₁ r' hr').1).2 q' hq'
    omega

/-! ## Insertion -/

theorem mem_insertRegion {r q : Region} {l : List Region} : q ∈ insertRegion r l ↔ q = r ∨ q ∈ l := by
  induction l with
  | nil => simp [insertRegion]
  | cons a l ih =>
    unfold insertRegion
    split <;> simp [ih]
    tauto

theorem insertRegion_sorted {r : Region} {l : List Region} (hl : ∀ q ∈ l, 0 < q.size) (hr : 0 < r.size)
    (hs : l.Pairwise fun r q => r.limit ≤ q.base) (hd : ∀ q ∈ l, q.limit ≤ r.base ∨ r.limit ≤ q.base) :
    (insertRegion r l).Pairwise fun r q => r.limit ≤ q.base := by
  induction l with
  | nil => simp [insertRegion]
  | cons a l ih =>
    obtain ⟨ha, ht⟩ := List.pairwise_cons.mp hs
    have h₁ := hl a (by simp)
    have h₂ := hd a (by simp)
    unfold insertRegion
    split
    · refine List.pairwise_cons.mpr ⟨fun q hq => ?_,
        ih (fun q hq => hl q (by simp [hq])) ht fun q hq => hd q (by simp [hq])⟩
      rcases mem_insertRegion.mp hq with rfl | hq
      · simp only [Region.limit] at *; omega
      · exact ha q hq
    · refine List.pairwise_cons.mpr ⟨fun q hq => ?_, hs⟩
      rcases List.mem_cons.mp hq with rfl | hq
      · simp only [Region.limit] at *; omega
      · have := ha q hq
        simp only [Region.limit] at *; omega

/-! ## The operations -/

theorem Memory.apply_wf {m : Memory} (hw : m.wf) (a : MemoryAction) : (m.apply a).wf := by
  obtain ⟨h₁, h₂, h₃, h₄⟩ := hw
  cases a with
  | allocate r =>
    unfold Memory.apply
    dsimp only
    split
    · next h =>
      simp only [Memory.admits, Bool.and_eq_true, decide_eq_true_eq, List.all_eq_true] at h
      refine ⟨fun q hq => ?_, insertRegion_sorted (fun q hq => (h₁ q hq).1) h.1.1 h₂ h.2, h₃, fun c hc => ?_⟩
      · rcases mem_insertRegion.mp hq with rfl | hq
        · exact h.1
        · exact h₁ q hq
      · obtain ⟨hb, q, hq, hc⟩ := h₄ c hc
        exact ⟨hb, q, mem_insertRegion.mpr (.inr hq), hc⟩
    · exact ⟨h₁, h₂, h₃, h₄⟩
  | protect base size p =>
    unfold Memory.apply
    dsimp only
    split
    · next hlt =>
      have hs := Region.split_wf (Region.parts_protect (lo := base) (hi := base + size) (by omega) p) h₁ h₂
      refine ⟨hs.1, hs.2, h₃, fun c hc => ?_⟩
      obtain ⟨hb, q, hq, hc⟩ := h₄ c hc
      refine ⟨hb, ?_⟩
      rw [Region.holds_iff] at hc
      simp only [List.mem_flatMap, List.mem_append]
      by_cases ha : c.1 < base
      · refine ⟨_, ⟨q, hq, .inl (.inl (Region.mem_below.mpr ⟨by omega, rfl⟩))⟩, ?_⟩
        rw [Region.holds_iff]; simp only [Region.limit] at *; omega
      · by_cases hb : c.1 < base + size
        · refine ⟨_, ⟨q, hq, .inl (.inr (Region.mem_within.mpr ⟨by omega, rfl⟩))⟩, ?_⟩
          rw [Region.holds_iff]; simp only [Region.limit] at *; omega
        · refine ⟨_, ⟨q, hq, .inr (Region.mem_above.mpr ⟨by omega, rfl⟩)⟩, ?_⟩
          rw [Region.holds_iff]; simp only [Region.limit] at *; omega
    · simpa using ⟨h₁, h₂, h₃, h₄⟩
  | unmap base size =>
    have hf : (m.cells.filter fun c => !decide (base ≤ c.1 ∧ c.1 < base + size)).Pairwise fun c d => c.1 < d.1 :=
      h₃.sublist List.filter_sublist
    unfold Memory.apply
    dsimp only
    split
    · next hlt =>
      have hs := Region.split_wf (Region.parts_unmap (lo := base) (hi := base + size) (by omega)) h₁ h₂
      refine ⟨hs.1, hs.2, hf, fun c hc => ?_⟩
      obtain ⟨hc, ho⟩ := List.mem_filter.mp hc
      obtain ⟨hb, q, hq, hc⟩ := h₄ c hc
      refine ⟨hb, ?_⟩
      rw [Region.holds_iff] at hc
      simp only [Bool.not_eq_true', decide_eq_false_iff_not] at ho
      simp only [List.mem_flatMap, List.mem_append]
      by_cases ha : c.1 < base
      · refine ⟨_, ⟨q, hq, .inl (Region.mem_below.mpr ⟨by omega, rfl⟩)⟩, ?_⟩
        rw [Region.holds_iff]; simp only [Region.limit] at *; omega
      · refine ⟨_, ⟨q, hq, .inr (Region.mem_above.mpr ⟨by omega, rfl⟩)⟩, ?_⟩
        rw [Region.holds_iff]; simp only [Region.limit] at *; omega
    · refine ⟨by simpa using h₁, by simpa using h₂, hf, fun c hc => ?_⟩
      simpa using h₄ c (List.mem_filter.mp hc).1
  | write a bs => exact Memory.writeBytes_wf m ⟨h₁, h₂, h₃, h₄⟩

theorem Memory.applyAll_wf {m : Memory} (hw : m.wf) (l : List MemoryAction) : (m.applyAll l).wf := by
  unfold Memory.applyAll
  induction l generalizing m with
  | nil => exact hw
  | cons a l ih => exact ih (Memory.apply_wf hw a)

namespace Machine

theorem makeExecutable_wf {m : Memory} (hw : m.wf) (a : Word) : (makeExecutable m a).wf := by
  unfold makeExecutable
  split
  · split
    · exact hw
    · exact Memory.apply_wf hw _
  · exact Memory.apply_wf hw _

theorem placeCode_wf {m : Memory} (hw : m.wf) (a : Word) (bs : List Byte) : (placeCode m a bs).wf := by
  induction bs generalizing m a with
  | nil => exact hw
  | cons b bs ih => exact ih (Memory.setByte_wf _ (makeExecutable_wf hw a)) _

end Machine

end Sys2Proof
end

