-- ==== Sys2Proof/Laws/State.lean ====
section
/-! SUPPORT. One lemma per field of State and per update of it: what the field holds after the update. -/

namespace Sys2Proof.Machine

variable (s : State)

/-! ## setX -/

theorem State.setX_x (n m : RegNum) (v : Word) : (s.setX n v).x m = if m = n then v else s.x m := by
  unfold State.setX State.x
  by_cases h : m = n
  · subst h
    simp
  · have : n.val ≠ m.val := fun e => h (Fin.ext e.symm)
    simp [h, Vector.getElem_set_ne, this]

@[simp] theorem State.setX_x_same (n : RegNum) (v : Word) : (s.setX n v).x n = v := by simp [State.setX_x]

@[simp] theorem State.setX_x_ne {n m : RegNum} (v : Word) (h : m ≠ n) : (s.setX n v).x m = s.x m := by
  simp [State.setX_x, h]

@[simp] theorem State.setX_pc (n : RegNum) (v : Word) : (s.setX n v).cpu.pc = s.cpu.pc := rfl

@[simp] theorem State.setX_flags (n : RegNum) (v : Word) : (s.setX n v).cpu.flags = s.cpu.flags := rfl

@[simp] theorem State.setX_fsBase (n : RegNum) (v : Word) : (s.setX n v).cpu.fsBase = s.cpu.fsBase := rfl

@[simp] theorem State.setX_gsBase (n : RegNum) (v : Word) : (s.setX n v).cpu.gsBase = s.cpu.gsBase := rfl

@[simp] theorem State.setX_vreg (n : RegNum) (v : Word) : (s.setX n v).cpu.vreg = s.cpu.vreg := rfl

@[simp] theorem State.setX_icount (n : RegNum) (v : Word) : (s.setX n v).cpu.icount = s.cpu.icount := rfl

@[simp] theorem State.setX_mem (n : RegNum) (v : Word) : (s.setX n v).mem = s.mem := rfl

@[simp] theorem State.setX_latch (n : RegNum) (v : Word) : (s.setX n v).latch = s.latch := rfl

@[simp] theorem State.setX_port (n : RegNum) (v : Word) : (s.setX n v).port = s.port := rfl

@[simp] theorem State.setX_refusalMark (n : RegNum) (v : Word) : (s.setX n v).refusalMark = s.refusalMark := rfl

@[simp] theorem State.setX_trapRecord (n : RegNum) (v : Word) : (s.setX n v).trapRecord = s.trapRecord := rfl

@[simp] theorem State.setX_draws (n : RegNum) (v : Word) : (s.setX n v).draws = s.draws := rfl

/-! ## setFlags -/

@[simp] theorem State.setFlags_x (f : Flags) (m : RegNum) : (s.setFlags f).x m = s.x m := rfl

@[simp] theorem State.setFlags_pc (f : Flags) : (s.setFlags f).cpu.pc = s.cpu.pc := rfl

@[simp] theorem State.setFlags_flags (f : Flags) : (s.setFlags f).cpu.flags = f := rfl

@[simp] theorem State.setFlags_fsBase (f : Flags) : (s.setFlags f).cpu.fsBase = s.cpu.fsBase := rfl

@[simp] theorem State.setFlags_gsBase (f : Flags) : (s.setFlags f).cpu.gsBase = s.cpu.gsBase := rfl

@[simp] theorem State.setFlags_vreg (f : Flags) : (s.setFlags f).cpu.vreg = s.cpu.vreg := rfl

@[simp] theorem State.setFlags_icount (f : Flags) : (s.setFlags f).cpu.icount = s.cpu.icount := rfl

@[simp] theorem State.setFlags_mem (f : Flags) : (s.setFlags f).mem = s.mem := rfl

@[simp] theorem State.setFlags_latch (f : Flags) : (s.setFlags f).latch = s.latch := rfl

@[simp] theorem State.setFlags_port (f : Flags) : (s.setFlags f).port = s.port := rfl

@[simp] theorem State.setFlags_refusalMark (f : Flags) : (s.setFlags f).refusalMark = s.refusalMark := rfl

@[simp] theorem State.setFlags_trapRecord (f : Flags) : (s.setFlags f).trapRecord = s.trapRecord := rfl

@[simp] theorem State.setFlags_draws (f : Flags) : (s.setFlags f).draws = s.draws := rfl

/-! ## setMem -/

@[simp] theorem State.setMem_x (m' : Memory) (m : RegNum) : (s.setMem m').x m = s.x m := rfl

@[simp] theorem State.setMem_pc (m' : Memory) : (s.setMem m').cpu.pc = s.cpu.pc := rfl

@[simp] theorem State.setMem_flags (m' : Memory) : (s.setMem m').cpu.flags = s.cpu.flags := rfl

@[simp] theorem State.setMem_fsBase (m' : Memory) : (s.setMem m').cpu.fsBase = s.cpu.fsBase := rfl

@[simp] theorem State.setMem_gsBase (m' : Memory) : (s.setMem m').cpu.gsBase = s.cpu.gsBase := rfl

@[simp] theorem State.setMem_vreg (m' : Memory) : (s.setMem m').cpu.vreg = s.cpu.vreg := rfl

@[simp] theorem State.setMem_icount (m' : Memory) : (s.setMem m').cpu.icount = s.cpu.icount := rfl

@[simp] theorem State.setMem_mem (m' : Memory) : (s.setMem m').mem = m' := rfl

@[simp] theorem State.setMem_latch (m' : Memory) : (s.setMem m').latch = s.latch := rfl

@[simp] theorem State.setMem_port (m' : Memory) : (s.setMem m').port = s.port := rfl

@[simp] theorem State.setMem_refusalMark (m' : Memory) : (s.setMem m').refusalMark = s.refusalMark := rfl

@[simp] theorem State.setMem_trapRecord (m' : Memory) : (s.setMem m').trapRecord = s.trapRecord := rfl

@[simp] theorem State.setMem_draws (m' : Memory) : (s.setMem m').draws = s.draws := rfl

/-! ## useDraws -/

@[simp] theorem State.useDraws_x (n : Nat) (m : RegNum) : (s.useDraws n).x m = s.x m := rfl

@[simp] theorem State.useDraws_pc (n : Nat) : (s.useDraws n).cpu.pc = s.cpu.pc := rfl

@[simp] theorem State.useDraws_flags (n : Nat) : (s.useDraws n).cpu.flags = s.cpu.flags := rfl

@[simp] theorem State.useDraws_fsBase (n : Nat) : (s.useDraws n).cpu.fsBase = s.cpu.fsBase := rfl

@[simp] theorem State.useDraws_gsBase (n : Nat) : (s.useDraws n).cpu.gsBase = s.cpu.gsBase := rfl

@[simp] theorem State.useDraws_vreg (n : Nat) : (s.useDraws n).cpu.vreg = s.cpu.vreg := rfl

@[simp] theorem State.useDraws_icount (n : Nat) : (s.useDraws n).cpu.icount = s.cpu.icount := rfl

@[simp] theorem State.useDraws_mem (n : Nat) : (s.useDraws n).mem = s.mem := rfl

@[simp] theorem State.useDraws_latch (n : Nat) : (s.useDraws n).latch = s.latch := rfl

@[simp] theorem State.useDraws_port (n : Nat) : (s.useDraws n).port = s.port := rfl

@[simp] theorem State.useDraws_refusalMark (n : Nat) : (s.useDraws n).refusalMark = s.refusalMark := rfl

@[simp] theorem State.useDraws_trapRecord (n : Nat) : (s.useDraws n).trapRecord = s.trapRecord := rfl

@[simp] theorem State.useDraws_draws (n : Nat) : (s.useDraws n).draws = s.draws + n := rfl

/-! ## setLatch -/

@[simp] theorem State.setLatch_x (l : Latch) (m : RegNum) : (s.setLatch l).x m = s.x m := rfl

@[simp] theorem State.setLatch_pc (l : Latch) : (s.setLatch l).cpu.pc = s.cpu.pc := rfl

@[simp] theorem State.setLatch_flags (l : Latch) : (s.setLatch l).cpu.flags = s.cpu.flags := rfl

@[simp] theorem State.setLatch_fsBase (l : Latch) : (s.setLatch l).cpu.fsBase = s.cpu.fsBase := rfl

@[simp] theorem State.setLatch_gsBase (l : Latch) : (s.setLatch l).cpu.gsBase = s.cpu.gsBase := rfl

@[simp] theorem State.setLatch_vreg (l : Latch) : (s.setLatch l).cpu.vreg = s.cpu.vreg := rfl

@[simp] theorem State.setLatch_icount (l : Latch) : (s.setLatch l).cpu.icount = s.cpu.icount := rfl

@[simp] theorem State.setLatch_mem (l : Latch) : (s.setLatch l).mem = s.mem := rfl

@[simp] theorem State.setLatch_latch (l : Latch) : (s.setLatch l).latch = l := rfl

@[simp] theorem State.setLatch_port (l : Latch) : (s.setLatch l).port = s.port := rfl

@[simp] theorem State.setLatch_refusalMark (l : Latch) : (s.setLatch l).refusalMark = s.refusalMark := rfl

@[simp] theorem State.setLatch_trapRecord (l : Latch) : (s.setLatch l).trapRecord = s.trapRecord := rfl

@[simp] theorem State.setLatch_draws (l : Latch) : (s.setLatch l).draws = s.draws := rfl

/-! ## markRefused -/

@[simp] theorem State.markRefused_x (r : Refusal) (m : RegNum) : (s.markRefused r).x m = s.x m := rfl

@[simp] theorem State.markRefused_pc (r : Refusal) : (s.markRefused r).cpu.pc = s.cpu.pc := rfl

@[simp] theorem State.markRefused_flags (r : Refusal) : (s.markRefused r).cpu.flags = s.cpu.flags := rfl

@[simp] theorem State.markRefused_fsBase (r : Refusal) : (s.markRefused r).cpu.fsBase = s.cpu.fsBase := rfl

@[simp] theorem State.markRefused_gsBase (r : Refusal) : (s.markRefused r).cpu.gsBase = s.cpu.gsBase := rfl

@[simp] theorem State.markRefused_vreg (r : Refusal) : (s.markRefused r).cpu.vreg = s.cpu.vreg := rfl

@[simp] theorem State.markRefused_icount (r : Refusal) : (s.markRefused r).cpu.icount = s.cpu.icount := rfl

@[simp] theorem State.markRefused_mem (r : Refusal) : (s.markRefused r).mem = s.mem := rfl

@[simp] theorem State.markRefused_latch (r : Refusal) : (s.markRefused r).latch = s.latch := rfl

@[simp] theorem State.markRefused_port (r : Refusal) : (s.markRefused r).port = s.port := rfl

@[simp] theorem State.markRefused_refusalMark (r : Refusal) : (s.markRefused r).refusalMark = some r := rfl

@[simp] theorem State.markRefused_trapRecord (r : Refusal) : (s.markRefused r).trapRecord = s.trapRecord := rfl

@[simp] theorem State.markRefused_draws (r : Refusal) : (s.markRefused r).draws = s.draws := rfl

/-! ## continueAt -/

@[simp] theorem State.continueAt_x (n : Word) (m : RegNum) : (s.continueAt n).x m = s.x m := rfl

@[simp] theorem State.continueAt_pc (n : Word) : (s.continueAt n).cpu.pc = n := rfl

@[simp] theorem State.continueAt_flags (n : Word) : (s.continueAt n).cpu.flags = s.cpu.flags := rfl

@[simp] theorem State.continueAt_fsBase (n : Word) : (s.continueAt n).cpu.fsBase = s.cpu.fsBase := rfl

@[simp] theorem State.continueAt_gsBase (n : Word) : (s.continueAt n).cpu.gsBase = s.cpu.gsBase := rfl

@[simp] theorem State.continueAt_vreg (n : Word) : (s.continueAt n).cpu.vreg = s.cpu.vreg := rfl

@[simp] theorem State.continueAt_icount (n : Word) : (s.continueAt n).cpu.icount = s.cpu.icount + 1 := rfl

@[simp] theorem State.continueAt_mem (n : Word) : (s.continueAt n).mem = s.mem := rfl

@[simp] theorem State.continueAt_latch (n : Word) : (s.continueAt n).latch = s.latch := rfl

@[simp] theorem State.continueAt_port (n : Word) : (s.continueAt n).port = .continued n := rfl

@[simp] theorem State.continueAt_refusalMark (n : Word) : (s.continueAt n).refusalMark = s.refusalMark := rfl

@[simp] theorem State.continueAt_trapRecord (n : Word) : (s.continueAt n).trapRecord = s.trapRecord := rfl

@[simp] theorem State.continueAt_draws (n : Word) : (s.continueAt n).draws = s.draws := rfl

/-! ## redirectTo -/

@[simp] theorem State.redirectTo_x (t : Word) (m : RegNum) : (s.redirectTo t).x m = s.x m := rfl

@[simp] theorem State.redirectTo_pc (t : Word) : (s.redirectTo t).cpu.pc = t := rfl

@[simp] theorem State.redirectTo_flags (t : Word) : (s.redirectTo t).cpu.flags = s.cpu.flags := rfl

@[simp] theorem State.redirectTo_fsBase (t : Word) : (s.redirectTo t).cpu.fsBase = s.cpu.fsBase := rfl

@[simp] theorem State.redirectTo_gsBase (t : Word) : (s.redirectTo t).cpu.gsBase = s.cpu.gsBase := rfl

@[simp] theorem State.redirectTo_vreg (t : Word) : (s.redirectTo t).cpu.vreg = s.cpu.vreg := rfl

@[simp] theorem State.redirectTo_icount (t : Word) : (s.redirectTo t).cpu.icount = s.cpu.icount + 1 := rfl

@[simp] theorem State.redirectTo_mem (t : Word) : (s.redirectTo t).mem = s.mem := rfl

@[simp] theorem State.redirectTo_latch (t : Word) : (s.redirectTo t).latch = s.latch := rfl

@[simp] theorem State.redirectTo_port (t : Word) : (s.redirectTo t).port = .redirected t := rfl

@[simp] theorem State.redirectTo_refusalMark (t : Word) : (s.redirectTo t).refusalMark = s.refusalMark := rfl

@[simp] theorem State.redirectTo_trapRecord (t : Word) : (s.redirectTo t).trapRecord = s.trapRecord := rfl

@[simp] theorem State.redirectTo_draws (t : Word) : (s.redirectTo t).draws = s.draws := rfl

/-! ## exitWith -/

@[simp] theorem State.exitWith_x (c : BitVec 32) (m : RegNum) : (s.exitWith c).x m = s.x m := rfl

@[simp] theorem State.exitWith_pc (c : BitVec 32) : (s.exitWith c).cpu.pc = s.cpu.pc := rfl

@[simp] theorem State.exitWith_flags (c : BitVec 32) : (s.exitWith c).cpu.flags = s.cpu.flags := rfl

@[simp] theorem State.exitWith_fsBase (c : BitVec 32) : (s.exitWith c).cpu.fsBase = s.cpu.fsBase := rfl

@[simp] theorem State.exitWith_gsBase (c : BitVec 32) : (s.exitWith c).cpu.gsBase = s.cpu.gsBase := rfl

@[simp] theorem State.exitWith_vreg (c : BitVec 32) : (s.exitWith c).cpu.vreg = s.cpu.vreg := rfl

@[simp] theorem State.exitWith_icount (c : BitVec 32) : (s.exitWith c).cpu.icount = s.cpu.icount + 1 := rfl

@[simp] theorem State.exitWith_mem (c : BitVec 32) : (s.exitWith c).mem = s.mem := rfl

@[simp] theorem State.exitWith_latch (c : BitVec 32) : (s.exitWith c).latch = s.latch := rfl

@[simp] theorem State.exitWith_port (c : BitVec 32) : (s.exitWith c).port = .exited c := rfl

@[simp] theorem State.exitWith_refusalMark (c : BitVec 32) : (s.exitWith c).refusalMark = s.refusalMark := rfl

@[simp] theorem State.exitWith_trapRecord (c : BitVec 32) : (s.exitWith c).trapRecord = s.trapRecord := rfl

@[simp] theorem State.exitWith_draws (c : BitVec 32) : (s.exitWith c).draws = s.draws := rfl

/-! ## takeTrap -/

@[simp] theorem State.takeTrap_x (k : TrapKind) (i : TrapInfo) (m : RegNum) : (s.takeTrap k i).x m = s.x m := rfl

@[simp] theorem State.takeTrap_pc (k : TrapKind) (i : TrapInfo) : (s.takeTrap k i).cpu.pc = s.cpu.pc := rfl

@[simp] theorem State.takeTrap_flags (k : TrapKind) (i : TrapInfo) : (s.takeTrap k i).cpu.flags = s.cpu.flags := rfl

@[simp] theorem State.takeTrap_fsBase (k : TrapKind) (i : TrapInfo) : (s.takeTrap k i).cpu.fsBase = s.cpu.fsBase := rfl

@[simp] theorem State.takeTrap_gsBase (k : TrapKind) (i : TrapInfo) : (s.takeTrap k i).cpu.gsBase = s.cpu.gsBase := rfl

@[simp] theorem State.takeTrap_vreg (k : TrapKind) (i : TrapInfo) : (s.takeTrap k i).cpu.vreg = s.cpu.vreg := rfl

@[simp] theorem State.takeTrap_icount (k : TrapKind) (i : TrapInfo) : (s.takeTrap k i).cpu.icount = s.cpu.icount := rfl

@[simp] theorem State.takeTrap_mem (k : TrapKind) (i : TrapInfo) : (s.takeTrap k i).mem = s.mem := rfl

@[simp] theorem State.takeTrap_latch (k : TrapKind) (i : TrapInfo) : (s.takeTrap k i).latch = s.latch := rfl

@[simp] theorem State.takeTrap_port (k : TrapKind) (i : TrapInfo) : (s.takeTrap k i).port = .trapped { kind := k, info := i } := rfl

@[simp] theorem State.takeTrap_refusalMark (k : TrapKind) (i : TrapInfo) : (s.takeTrap k i).refusalMark = s.refusalMark := rfl

@[simp] theorem State.takeTrap_trapRecord (k : TrapKind) (i : TrapInfo) : (s.takeTrap k i).trapRecord = some { kind := k, info := i } := rfl

@[simp] theorem State.takeTrap_draws (k : TrapKind) (i : TrapInfo) : (s.takeTrap k i).draws = s.draws := rfl

/-! ## Register views -/

/-- Reading back the written register. -/
@[simp] theorem State.regWrite_x_same (n : RegNum) (k : RegView) (v : BitVec k.bits) :
    (s.regWrite n k v).x n = writeView k (s.x n) v := by simp [State.regWrite]

@[simp] theorem State.regWrite_x_ne {n m : RegNum} (k : RegView) (v : BitVec k.bits) (h : m ≠ n) :
    (s.regWrite n k v).x m = s.x m := by simp [State.regWrite, h]

@[simp] theorem State.regWrite_pc (n : RegNum) (k : RegView) (v : BitVec k.bits) :
    (s.regWrite n k v).cpu.pc = s.cpu.pc := rfl

@[simp] theorem State.regWrite_flags (n : RegNum) (k : RegView) (v : BitVec k.bits) :
    (s.regWrite n k v).cpu.flags = s.cpu.flags := rfl

@[simp] theorem State.regWrite_fsBase (n : RegNum) (k : RegView) (v : BitVec k.bits) :
    (s.regWrite n k v).cpu.fsBase = s.cpu.fsBase := rfl

@[simp] theorem State.regWrite_gsBase (n : RegNum) (k : RegView) (v : BitVec k.bits) :
    (s.regWrite n k v).cpu.gsBase = s.cpu.gsBase := rfl

@[simp] theorem State.regWrite_vreg (n : RegNum) (k : RegView) (v : BitVec k.bits) :
    (s.regWrite n k v).cpu.vreg = s.cpu.vreg := rfl

@[simp] theorem State.regWrite_icount (n : RegNum) (k : RegView) (v : BitVec k.bits) :
    (s.regWrite n k v).cpu.icount = s.cpu.icount := rfl

@[simp] theorem State.regWrite_mem (n : RegNum) (k : RegView) (v : BitVec k.bits) :
    (s.regWrite n k v).mem = s.mem := rfl

@[simp] theorem State.regWrite_latch (n : RegNum) (k : RegView) (v : BitVec k.bits) :
    (s.regWrite n k v).latch = s.latch := rfl

@[simp] theorem State.regWrite_port (n : RegNum) (k : RegView) (v : BitVec k.bits) :
    (s.regWrite n k v).port = s.port := rfl

@[simp] theorem State.regWrite_refusalMark (n : RegNum) (k : RegView) (v : BitVec k.bits) :
    (s.regWrite n k v).refusalMark = s.refusalMark := rfl

@[simp] theorem State.regWrite_trapRecord (n : RegNum) (k : RegView) (v : BitVec k.bits) :
    (s.regWrite n k v).trapRecord = s.trapRecord := rfl

@[simp] theorem State.regWrite_draws (n : RegNum) (k : RegView) (v : BitVec k.bits) :
    (s.regWrite n k v).draws = s.draws := rfl

end Sys2Proof.Machine
end

