-- ==== Sys2Proof/Laws/Ops.lean ====
section
/-! SUPPORT. What the access primitives and the operand operations can do, said once for each. -/

namespace Sys2Proof

/-! ## Checks over several bytes -/

theorem firstFailing_none {ok : Word → Bool} {a : Word} {n : Nat} :
    firstFailing ok a n = none ↔ ∀ i < n, ok (a + BitVec.ofNat 64 i) = true := by
  induction n generalizing a with
  | zero => simp [firstFailing]
  | succ n ih =>
    rw [firstFailing, Nat.forall_lt_succ_left']
    split
    · next h => simp only [ih, addr_succ]; simp [h]
    · next h => simp [h]

/-- The first failing byte is at offset `i`. -/
theorem firstFailing_some {ok : Word → Bool} {a : Word} {n : Nat} (i : Nat) (hi : i < n)
    (hb : ∀ j < i, ok (a + BitVec.ofNat 64 j) = true) (hf : ok (a + BitVec.ofNat 64 i) = false) :
    firstFailing ok a n = some (a + BitVec.ofNat 64 i) := by
  induction n generalizing a i with
  | zero => omega
  | succ n ih =>
    cases i with
    | zero => simp_all [firstFailing]
    | succ i =>
      rw [firstFailing, if_pos (by simpa using hb 0 (by omega)), ih i (by omega), addr_succ]
      · intro j hj; rw [addr_succ]; exact hb (j + 1) (by omega)
      · rwa [addr_succ]

theorem someByte_iff {ok : Word → Bool} {a : Word} {n : Nat} :
    someByte ok a n = true ↔ ∃ i < n, ok (a + BitVec.ofNat 64 i) = true := by
  induction n generalizing a with
  | zero => simp [someByte]
  | succ n ih =>
    rw [someByte, Bool.or_eq_true, ih]
    constructor
    · rintro (h | ⟨i, hi, h⟩)
      · exact ⟨0, by omega, by simpa using h⟩
      · exact ⟨i + 1, by omega, by rwa [← addr_succ]⟩
    · rintro ⟨i, hi, h⟩
      cases i with
      | zero => exact .inl (by simpa using h)
      | succ i => exact .inr ⟨i, by omega, by rwa [addr_succ]⟩

namespace Memory

theorem readBytes_length (m : Memory) (a : Word) (n : Nat) : (m.readBytes a n).length = n := by
  induction n generalizing a with
  | zero => rfl
  | succ n ih => simp [readBytes, ih]

theorem readBytes_getElem? (m : Memory) (a : Word) (n i : Nat) (hi : i < n) :
    (m.readBytes a n)[i]? = some (m.byte (a + BitVec.ofNat 64 i)) := by
  induction n generalizing a i with
  | zero => omega
  | succ n ih =>
    cases i with
    | zero => simp [readBytes]
    | succ i => rw [readBytes, List.getElem?_cons_succ, ih _ i (by omega), addr_succ]

theorem byteAt_eq_some {m : Memory} {a : Word} {b : Byte} :
    m.byteAt a = some b ↔ m.mapped a = true ∧ m.byte a = b := by
  unfold byteAt; split <;> simp_all

theorem mapped_of_readable {m : Memory} {a : Word} (h : m.readable a = true) : m.mapped a = true := by
  unfold readable at h; unfold mapped; cases hr : m.regionAt a <;> simp_all

theorem mapped_of_writable {m : Memory} {a : Word} (h : m.writable a = true) : m.mapped a = true := by
  unfold writable at h; unfold mapped; cases hr : m.regionAt a <;> simp_all

theorem mapped_of_executable {m : Memory} {a : Word} (h : m.executable a = true) : m.mapped a = true := by
  unfold executable at h; unfold mapped; cases hr : m.regionAt a <;> simp_all

end Memory

namespace Machine

variable {s t : State} {a : Word} {k : OSize}

theorem OSize.bits_eq (k : OSize) : k.bits = 8 * k.bytes := by cases k <;> rfl

theorem OSize.bytes_pos (k : OSize) : 0 < k.bytes := by cases k <;> decide

theorem OSize.bytes_le (k : OSize) : k.bytes ≤ 8 := by cases k <;> decide

/-! ## The alignment check -/

theorem State.alignRefused_false : s.alignRefused a k.bytes = false ↔ s.alignOk a k := by
  unfold State.alignRefused State.alignOk
  rw [Bool.and_eq_false_iff, Bool.and_eq_false_iff, decide_eq_false_iff_not, decide_eq_false_iff_not, not_not]
  cases s.cpu.flags.AC <;> cases k <;> simp [OSize.bytes, Nat.mod_one]

theorem State.alignRefused_true (h : s.cpu.flags.AC = true) (ha : a.toNat % k.bytes ≠ 0) :
    s.alignRefused a k.bytes = true := by
  cases hr : s.alignRefused a k.bytes with
  | true => rfl
  | false => exact absurd (State.alignRefused_false.mp hr h) ha

/-! ## MemRead -/

/-- A read that passes its checks returns the bytes there. -/
theorem State.memRead_passes {v : BitVec k.bits} (h : s.canRead a k) (hv : s.holdsAt a k v) :
    s.memRead a k = .ok v := by
  unfold State.memRead
  rw [State.alignRefused_false.mpr h.1, firstFailing_none.mpr h.2]
  simp only [Bool.false_eq_true, ↓reduceIte, Except.ok.injEq]
  refine leVal_eq_of_bytes (OSize.bits_eq k) _ (Memory.readBytes_length ..) v fun i hi => ?_
  rw [Memory.readBytes_getElem? _ _ _ i hi, (Memory.byteAt_eq_some.mp (hv i hi)).2]

/-- Readable bytes hold some value. -/
theorem State.holdsAt_of_readable (h : ∀ i < k.bytes, s.mem.readable (a + BitVec.ofNat 64 i) = true) :
    s.holdsAt a k (leVal k.bits (s.mem.readBytes a k.bytes)) := by
  intro i hi
  rw [Memory.byteAt_eq_some]
  refine ⟨Memory.mapped_of_readable (h i hi), ?_⟩
  have e := leBytes_getElem? k.bytes (leVal k.bits (s.mem.readBytes a k.bytes)) i hi
  rw [leBytes_leVal (OSize.bits_eq k) _ (Memory.readBytes_length ..), Memory.readBytes_getElem? _ _ _ i hi] at e
  exact Option.some.inj e

theorem State.memRead_cases (s : State) (a : Word) (k : OSize) :
    (∃ v, s.memRead a k = .ok v ∧ s.canRead a k ∧ s.holdsAt a k v) ∨
    (s.memRead a k = .error (.refused .alignmentCheckUnmodelled) ∧ ¬ s.alignOk a k) ∨
    (∃ f, s.memRead a k = .error (.violation f .read) ∧ s.alignOk a k) := by
  cases ha : s.alignRefused a k.bytes with
  | true =>
    refine .inr (.inl ⟨by rw [State.memRead, if_pos ha], fun h => ?_⟩)
    simp [State.alignRefused_false.mpr h] at ha
  | false =>
    have hal := State.alignRefused_false.mp ha
    cases hf : firstFailing s.mem.readable a k.bytes with
    | some f => exact .inr (.inr ⟨f, by simp [State.memRead, ha, hf], hal⟩)
    | none =>
      have hr := firstFailing_none.mp hf
      exact .inl ⟨_, by simp [State.memRead, ha, hf], ⟨hal, hr⟩, State.holdsAt_of_readable hr⟩

/-- A read fails at the first byte that is not readable (R68). -/
theorem State.memRead_violation (hal : s.alignOk a k) (n : Nat) (hn : n < k.bytes)
    (hb : ∀ j < n, s.mem.readable (a + BitVec.ofNat 64 j) = true)
    (hf : s.mem.readable (a + BitVec.ofNat 64 n) = false) :
    s.memRead a k = .error (.violation (a + BitVec.ofNat 64 n) .read) := by
  simp [State.memRead, State.alignRefused_false.mpr hal, firstFailing_some n hn hb hf]

theorem State.memRead_misaligned (h : s.cpu.flags.AC = true) (ha : a.toNat % k.bytes ≠ 0) :
    s.memRead a k = .error (.refused .alignmentCheckUnmodelled) := by
  simp [State.memRead, State.alignRefused_true h ha]

/-! ## MemWrite -/

/-- The state after a store. -/
def State.stored (s : State) (a : Word) (k : OSize) (v : BitVec k.bits) : State :=
  s.setMem (s.mem.writeBytes a (leBytes k.bytes v))

/-- A write that passes its checks stores its bytes. -/
theorem State.memWrite_passes (v : BitVec k.bits) (h : s.canWrite a k) :
    s.memWrite a k v = .ok (s.stored a k v) := by
  have he : someByte s.mem.executable a k.bytes = false := by
    rw [Bool.eq_false_iff, Ne, someByte_iff]
    rintro ⟨i, hi, he⟩
    simp [(h.2 i hi).2] at he
  simp [State.memWrite, State.alignRefused_false.mpr h.1, firstFailing_none.mpr fun i hi => (h.2 i hi).1, he,
    State.stored]

theorem State.memWrite_cases (s : State) (a : Word) (k : OSize) (v : BitVec k.bits) :
    (s.memWrite a k v = .ok (s.stored a k v) ∧ s.canWrite a k) ∨
    (s.memWrite a k v = .error (.refused .alignmentCheckUnmodelled) ∧ ¬ s.alignOk a k) ∨
    (∃ f, s.memWrite a k v = .error (.violation f .write) ∧ s.alignOk a k) ∨
    (s.memWrite a k v = .error (.refused .selfModifyingCode) ∧ s.alignOk a k) := by
  cases ha : s.alignRefused a k.bytes with
  | true =>
    refine .inr (.inl ⟨by rw [State.memWrite, if_pos ha], fun h => ?_⟩)
    simp [State.alignRefused_false.mpr h] at ha
  | false =>
    have hal := State.alignRefused_false.mp ha
    cases hf : firstFailing s.mem.writable a k.bytes with
    | some f => exact .inr (.inr (.inl ⟨f, by simp [State.memWrite, ha, hf], hal⟩))
    | none =>
      cases he : someByte s.mem.executable a k.bytes with
      | true => exact .inr (.inr (.inr ⟨by simp [State.memWrite, ha, hf, he], hal⟩))
      | false =>
        refine .inl ⟨by simp [State.memWrite, ha, hf, he, State.stored], hal, fun i hi =>
          ⟨firstFailing_none.mp hf i hi, ?_⟩⟩
        by_contra hx
        rw [Bool.not_eq_false] at hx
        rw [someByte_iff.mpr ⟨i, hi, hx⟩] at he
        exact Bool.noConfusion he

/-- A write fails at the first byte that is not writable (R68). -/
theorem State.memWrite_violation (v : BitVec k.bits) (hal : s.alignOk a k) (n : Nat) (hn : n < k.bytes)
    (hb : ∀ j < n, s.mem.writable (a + BitVec.ofNat 64 j) = true)
    (hf : s.mem.writable (a + BitVec.ofNat 64 n) = false) :
    s.memWrite a k v = .error (.violation (a + BitVec.ofNat 64 n) .write) := by
  simp [State.memWrite, State.alignRefused_false.mpr hal, firstFailing_some n hn hb hf]

theorem State.memWrite_misaligned (v : BitVec k.bits) (h : s.cpu.flags.AC = true) (ha : a.toNat % k.bytes ≠ 0) :
    s.memWrite a k v = .error (.refused .alignmentCheckUnmodelled) := by
  simp [State.memWrite, State.alignRefused_true h ha]

/-- A write that touches code is refused (R82). -/
theorem State.memWrite_code (v : BitVec k.bits) (hal : s.alignOk a k)
    (hw : ∀ i < k.bytes, s.mem.writable (a + BitVec.ofNat 64 i) = true) (n : Nat) (hn : n < k.bytes)
    (hx : s.mem.executable (a + BitVec.ofNat 64 n) = true) :
    s.memWrite a k v = .error (.refused .selfModifyingCode) := by
  simp [State.memWrite, State.alignRefused_false.mpr hal, firstFailing_none.mpr hw, someByte_iff.mpr ⟨n, hn, hx⟩]

/-! ## A store -/

@[simp] theorem State.stored_cpu (v : BitVec k.bits) : (s.stored a k v).cpu = s.cpu := rfl

@[simp] theorem State.stored_x (v : BitVec k.bits) (n : RegNum) : (s.stored a k v).x n = s.x n := rfl

@[simp] theorem State.stored_latch (v : BitVec k.bits) : (s.stored a k v).latch = s.latch := rfl

@[simp] theorem State.stored_port (v : BitVec k.bits) : (s.stored a k v).port = s.port := rfl

@[simp] theorem State.stored_refusalMark (v : BitVec k.bits) : (s.stored a k v).refusalMark = s.refusalMark := rfl

@[simp] theorem State.stored_trapRecord (v : BitVec k.bits) : (s.stored a k v).trapRecord = s.trapRecord := rfl

@[simp] theorem State.stored_draws (v : BitVec k.bits) : (s.stored a k v).draws = s.draws := rfl

@[simp] theorem State.stored_regions (v : BitVec k.bits) : (s.stored a k v).mem.regions = s.mem.regions := by
  simp [State.stored]

theorem State.stored_wf {v : BitVec k.bits} (hw : s.mem.wf) : (s.stored a k v).mem.wf :=
  Memory.writeBytes_wf _ hw

/-- The stored bytes are there. -/
theorem State.stored_holdsAt (v : BitVec k.bits) (hw : s.mem.wf) (h : s.canWrite a k) :
    (s.stored a k v).holdsAt a k v := by
  intro i hi
  have := OSize.bytes_le k
  rw [← leBytes_getElem? k.bytes v i hi]
  exact Memory.byteAt_writeBytes_inside _ _ hw (by simp; omega)
    (fun j hj => Memory.mapped_of_writable (h.2 j (by simpa using hj)).1) i (by simpa using hi)

/-- Every other byte reads as before. -/
theorem State.stored_outside (v : BitVec k.bits) : SameBytesOutside s (s.stored a k v) a k.bytes :=
  fun _ h => Memory.byteAt_writeBytes_outside _ _ (by simpa using h)

/-! ## Operands -/

theorem readOp_reg (next : Word) (n : RegNum) (v : RegView) :
    readOp s next k (.reg n v) = .ok ((s.regRead n v).setWidth k.bits) := rfl

theorem readOp_mem (next : Word) (o : MemOperand) : readOp s next k (.mem o) = s.memRead (effAddr s next o) k := rfl

/-- An immediate operand gives its value back. -/
theorem readOp_imm (next : Word) (v : BitVec k.bits) : readOp s next k (immOperand v) = .ok v := by
  have : k.bits ≤ 64 := by cases k <;> decide
  simp only [readOp, immOperand, Except.ok.injEq]
  apply BitVec.eq_of_getLsbD_eq
  intro i hi
  simp [hi, show i < 64 by omega]

theorem writeOp_reg (next : Word) (n : RegNum) (w : RegView) (v : BitVec k.bits) :
    writeOp s next k (.reg n w) v = .ok (s.regWrite n w (v.setWidth w.bits)) := rfl

theorem writeOp_mem (next : Word) (o : MemOperand) (v : BitVec k.bits) :
    writeOp s next k (.mem o) v = s.memWrite (effAddr s next o) k v := rfl

/-- The view of a register operand has the operand size. -/
theorem regView_bits (p : Pfx) (k : OSize) (n : RegNum) : (regView p k n).2.bits = k.bits := by
  cases k <;> simp only [regView, sel8]
  split <;> rfl

end Machine

end Sys2Proof
end

