-- ==== Sys2Proof/Laws/Exec.lean ====
section
/-! SUPPORT. What each shared operation behind the meanings can do, said once: how it ends, and from which reads and
writes. Later proofs cite these lemmas and do not unfold the operations. -/

namespace Sys2Proof.Machine

variable {s t : State} {k : OSize} {bs : List Byte} {e : AccessStop}

/-! ## Stopped accesses -/

/-- The ways a data access stops (R66, R67, R73). -/
def AccessStop.isDataStop (e : AccessStop) : Prop :=
  e = .refused .alignmentCheckUnmodelled ∨ e = .refused .selfModifyingCode ∨ ∃ a k, e = .violation a k

/-- A stopped access ends in a Trap with the state otherwise unchanged, or in one of the two data refusals. -/
theorem stopAccess_cases (h : e.isDataStop) :
    (∃ info, s.stopAccess bs e = .next (s.takeTrap .segmentationViolation info) ∧ info.pc = s.cpu.pc ∧
      info.bytes = bs ∧ ∃ k, info.access = some k) ∨
    s.stopAccess bs e = .refused .alignmentCheckUnmodelled ∨ s.stopAccess bs e = .refused .selfModifyingCode := by
  rcases h with rfl | rfl | ⟨a, k, rfl⟩
  · exact .inr (.inl rfl)
  · exact .inr (.inr rfl)
  · exact .inl ⟨_, rfl, rfl, rfl, _, rfl⟩

theorem memRead_error {a : Word} (h : s.memRead a k = .error e) : e.isDataStop := by
  rcases s.memRead_cases a k with ⟨v, h', -⟩ | ⟨h', -⟩ | ⟨f, h', -⟩ <;> rw [h'] at h <;> cases h
  · exact .inl rfl
  · exact .inr (.inr ⟨_, _, rfl⟩)

theorem memWrite_error {a : Word} {v : BitVec k.bits} (h : s.memWrite a k v = .error e) : e.isDataStop := by
  rcases s.memWrite_cases a k v with ⟨h', -⟩ | ⟨h', -⟩ | ⟨f, h', -⟩ | ⟨h', -⟩ <;> rw [h'] at h <;> cases h
  · exact .inl rfl
  · exact .inr (.inr ⟨_, _, rfl⟩)
  · exact .inr (.inl rfl)

theorem memWrite_ok {a : Word} {v : BitVec k.bits} (h : s.memWrite a k v = .ok t) :
    t = s.stored a k v ∧ s.canWrite a k := by
  rcases s.memWrite_cases a k v with ⟨h', hc⟩ | ⟨h', -⟩ | ⟨f, h', -⟩ | ⟨h', -⟩ <;> rw [h'] at h <;> cases h
  exact ⟨rfl, hc⟩

theorem readOp_error {next : Word} {o : Operand} (h : readOp s next k o = .error e) : e.isDataStop := by
  cases o with
  | reg n v => cases h
  | mem o => exact memRead_error h
  | imm v => cases h

theorem writeOp_error {next : Word} {o : Operand} {v : BitVec k.bits} (h : writeOp s next k o v = .error e) :
    e.isDataStop := by
  cases o with
  | reg n v => cases h
  | mem o => exact memWrite_error h
  | imm v => cases h

/-- What a write of an operand changes: a register view, or the bytes it stores. -/
theorem writeOp_ok {next : Word} {o : Operand} {v : BitVec k.bits} (h : writeOp s next k o v = .ok t) :
    (∃ n w, o = .reg n w ∧ t = s.regWrite n w (v.setWidth w.bits)) ∨
    (∃ m, o = .mem m ∧ t = s.stored (effAddr s next m) k v ∧ s.canWrite (effAddr s next m) k) ∨
    (∃ w, o = .imm w ∧ t = s) := by
  cases o with
  | reg n w => cases h; exact .inl ⟨n, w, rfl, rfl⟩
  | mem m => exact .inr (.inl ⟨m, rfl, memWrite_ok h⟩)
  | imm w => cases h; exact .inr (.inr ⟨w, rfl, rfl⟩)

/-! ## The ALU template, INC and MOV -/

/-- The end of an ALU instruction. -/
theorem aluExec_cases (op : AluOp) (k : OSize) (dst src : Operand) (bs : List Byte) (s : State) :
    (∃ e, e.isDataStop ∧ aluExec op k dst src bs s = s.stopAccess bs e) ∨
    ∃ a b s', readOp s (s.nextPc bs) k dst = .ok a ∧ readOp s (s.nextPc bs) k src = .ok b ∧
      (op = .cmp ∧ s' = s ∨ op ≠ .cmp ∧ writeOp s (s.nextPc bs) k dst (aluResult op a b s.cpu.flags.CF) = .ok s') ∧
      aluExec op k dst src bs s =
        aluFinish op (aluEval op a b s.cpu.flags.CF (Config.drawBit s.draws)) s.cpu.flags (s.nextPc bs) s' := by
  unfold aluExec
  dsimp only
  cases hd : readOp s (s.nextPc bs) k dst with
  | error e => exact .inl ⟨e, readOp_error hd, rfl⟩
  | ok a =>
    dsimp only
    cases hs : readOp s (s.nextPc bs) k src with
    | error e => exact .inl ⟨e, readOp_error hs, rfl⟩
    | ok b =>
      dsimp only
      rw [aluEval_r]
      split
      · next h => exact .inr ⟨a, b, s, rfl, rfl, .inl ⟨h, rfl⟩, rfl⟩
      · next h =>
        cases hw : writeOp s (s.nextPc bs) k dst (aluResult op a b s.cpu.flags.CF) with
        | error e => exact .inl ⟨e, writeOp_error hw, rfl⟩
        | ok s' => exact .inr ⟨a, b, s', rfl, rfl, .inr ⟨h, hw⟩, rfl⟩

/-- The end of INC. -/
theorem incExec_cases (k : OSize) (dst : Operand) (bs : List Byte) (s : State) :
    (∃ e, e.isDataStop ∧ incExec k dst bs s = s.stopAccess bs e) ∨
    ∃ a s', readOp s (s.nextPc bs) k dst = .ok a ∧ writeOp s (s.nextPc bs) k dst (a + 1) = .ok s' ∧
      incExec k dst bs s =
        .next ((s'.setFlags (s.cpu.flags.afterInc (addC a 1 false))).continueAt (s.nextPc bs)) := by
  unfold incExec
  dsimp only
  cases hd : readOp s (s.nextPc bs) k dst with
  | error e => exact .inl ⟨e, readOp_error hd, rfl⟩
  | ok a =>
    have hr : (addC a 1 false).r = a + 1 := by simp [addC_r]
    dsimp only
    rw [hr]
    cases hw : writeOp s (s.nextPc bs) k dst (a + 1) with
    | error e => exact .inl ⟨e, writeOp_error hw, rfl⟩
    | ok s' => exact .inr ⟨a, s', rfl, hw, rfl⟩

/-- The end of a MOV. -/
theorem movExec_cases (k : OSize) (dst src : Operand) (bs : List Byte) (s : State) :
    (∃ e, e.isDataStop ∧ movExec k dst src bs s = s.stopAccess bs e) ∨
    ∃ v s', readOp s (s.nextPc bs) k src = .ok v ∧ writeOp s (s.nextPc bs) k dst v = .ok s' ∧
      movExec k dst src bs s = .next (s'.continueAt (s.nextPc bs)) := by
  unfold movExec
  dsimp only
  cases hd : readOp s (s.nextPc bs) k src with
  | error e => exact .inl ⟨e, readOp_error hd, rfl⟩
  | ok v =>
    dsimp only
    cases hw : writeOp s (s.nextPc bs) k dst v with
    | error e => exact .inl ⟨e, writeOp_error hw, rfl⟩
    | ok s' => exact .inr ⟨v, s', rfl, hw, rfl⟩

/-! ## Control transfer -/

/-- The end of a conditional jump (R192). -/
theorem jccExec_eq (c : Cond) (rel : Word) (bs : List Byte) (s : State) :
    jccExec c rel bs s = .next (if condHolds c s.cpu.flags then s.redirectTo (s.nextPc bs + rel)
      else s.continueAt (s.nextPc bs)) := by
  unfold jccExec relTarget; split <;> rfl

/-- The end of CALL. The pushed value has the type of an 8-byte store. -/
theorem execCallRel32_cases (rel : BitVec 32) (s : State) :
    (∃ e, e.isDataStop ∧ execCallRel32 rel s = s.stopAccess (encode (.callRel32 rel)) e) ∨
    ∃ ret : BitVec OSize.o64.bits, ret = (s.cpu.pc + 5 : Word) ∧ s.canWrite (s.x rsp - 8) .o64 ∧
      execCallRel32 rel s = .next (((s.stored (s.x rsp - 8) .o64 ret).setX rsp (s.x rsp - 8)).redirectTo
        (s.cpu.pc + 5 + rel.signExtend 64)) := by
  have hn : s.nextPc (encode (.callRel32 rel)) = s.cpu.pc + 5 := rfl
  unfold execCallRel32
  dsimp only
  rw [hn]
  rcases s.memWrite_cases (s.x rsp - 8) .o64 (s.cpu.pc + 5 : Word) with ⟨h, hc⟩ | ⟨h, -⟩ | ⟨f, h, -⟩ | ⟨h, -⟩ <;>
    simp only [h]
  · exact .inr ⟨_, rfl, hc, rfl⟩
  · exact .inl ⟨_, .inl rfl, rfl⟩
  · exact .inl ⟨_, .inr (.inr ⟨_, _, rfl⟩), rfl⟩
  · exact .inl ⟨_, .inr (.inl rfl), rfl⟩

/-- The end of RET. -/
theorem execRet_cases (s : State) :
    (∃ e, e.isDataStop ∧ execRet s = s.stopAccess (encode .ret) e) ∨
    ∃ target : Word, s.memRead (s.x rsp) .o64 = .ok target ∧
      execRet s = .next ((s.setX rsp (s.x rsp + 8)).redirectTo target) := by
  unfold execRet
  cases h : s.memRead (s.x rsp) .o64 with
  | error e => exact .inl ⟨e, memRead_error h, rfl⟩
  | ok v => exact .inr ⟨v, rfl, rfl⟩

end Sys2Proof.Machine
end

