-- ==== Sys2Proof/Laws/PerInstr.lean ====
section
/-! SUPPORT. Statements about every instruction as syntax, one lemma per constructor: an instruction has from 1 to 15
bytes (R91; log entry 24). -/

namespace Sys2Proof.Laws.Length

/-- The length of a well-formed instruction. -/
def Statement (i : Instr) : Prop := i.wf = true → 1 ≤ i.size ∧ i.size ≤ 15

theorem addRm8Imm8 (p d i) : Statement (.addRm8Imm8 p d i) := fun h => modrmLatch_length h (by simp)

theorem orRm8Imm8 (p d i) : Statement (.orRm8Imm8 p d i) := fun h => modrmLatch_length h (by simp)

theorem adcRm8Imm8 (p d i) : Statement (.adcRm8Imm8 p d i) := fun h => modrmLatch_length h (by simp)

theorem sbbRm8Imm8 (p d i) : Statement (.sbbRm8Imm8 p d i) := fun h => modrmLatch_length h (by simp)

theorem andRm8Imm8 (p d i) : Statement (.andRm8Imm8 p d i) := fun h => modrmLatch_length h (by simp)

theorem subRm8Imm8 (p d i) : Statement (.subRm8Imm8 p d i) := fun h => modrmLatch_length h (by simp)

theorem xorRm8Imm8 (p d i) : Statement (.xorRm8Imm8 p d i) := fun h => modrmLatch_length h (by simp)

theorem cmpRm8Imm8 (p d i) : Statement (.cmpRm8Imm8 p d i) := fun h => modrmLatch_length h (by simp)

theorem addRmImm (p d i) : Statement (.addRmImm p d i) := fun h =>
  modrmLatch_length ((Bool.and_eq_true _ _).mp h).1
    (Imm.bytes_length_wfW ((Bool.and_eq_true _ _).mp h).2 ▸ immWLen_le _)

theorem orRmImm (p d i) : Statement (.orRmImm p d i) := fun h =>
  modrmLatch_length ((Bool.and_eq_true _ _).mp h).1
    (Imm.bytes_length_wfW ((Bool.and_eq_true _ _).mp h).2 ▸ immWLen_le _)

theorem adcRmImm (p d i) : Statement (.adcRmImm p d i) := fun h =>
  modrmLatch_length ((Bool.and_eq_true _ _).mp h).1
    (Imm.bytes_length_wfW ((Bool.and_eq_true _ _).mp h).2 ▸ immWLen_le _)

theorem sbbRmImm (p d i) : Statement (.sbbRmImm p d i) := fun h =>
  modrmLatch_length ((Bool.and_eq_true _ _).mp h).1
    (Imm.bytes_length_wfW ((Bool.and_eq_true _ _).mp h).2 ▸ immWLen_le _)

theorem andRmImm (p d i) : Statement (.andRmImm p d i) := fun h =>
  modrmLatch_length ((Bool.and_eq_true _ _).mp h).1
    (Imm.bytes_length_wfW ((Bool.and_eq_true _ _).mp h).2 ▸ immWLen_le _)

theorem subRmImm (p d i) : Statement (.subRmImm p d i) := fun h =>
  modrmLatch_length ((Bool.and_eq_true _ _).mp h).1
    (Imm.bytes_length_wfW ((Bool.and_eq_true _ _).mp h).2 ▸ immWLen_le _)

theorem xorRmImm (p d i) : Statement (.xorRmImm p d i) := fun h =>
  modrmLatch_length ((Bool.and_eq_true _ _).mp h).1
    (Imm.bytes_length_wfW ((Bool.and_eq_true _ _).mp h).2 ▸ immWLen_le _)

theorem cmpRmImm (p d i) : Statement (.cmpRmImm p d i) := fun h =>
  modrmLatch_length ((Bool.and_eq_true _ _).mp h).1
    (Imm.bytes_length_wfW ((Bool.and_eq_true _ _).mp h).2 ▸ immWLen_le _)

theorem addRmImm8 (p d i) : Statement (.addRmImm8 p d i) := fun h => modrmLatch_length h (by simp)

theorem orRmImm8 (p d i) : Statement (.orRmImm8 p d i) := fun h => modrmLatch_length h (by simp)

theorem adcRmImm8 (p d i) : Statement (.adcRmImm8 p d i) := fun h => modrmLatch_length h (by simp)

theorem sbbRmImm8 (p d i) : Statement (.sbbRmImm8 p d i) := fun h => modrmLatch_length h (by simp)

theorem andRmImm8 (p d i) : Statement (.andRmImm8 p d i) := fun h => modrmLatch_length h (by simp)

theorem subRmImm8 (p d i) : Statement (.subRmImm8 p d i) := fun h => modrmLatch_length h (by simp)

theorem xorRmImm8 (p d i) : Statement (.xorRmImm8 p d i) := fun h => modrmLatch_length h (by simp)

theorem cmpRmImm8 (p d i) : Statement (.cmpRmImm8 p d i) := fun h => modrmLatch_length h (by simp)

theorem xorRm8R8 (p d r) : Statement (.xorRm8R8 p d r) := fun h => modrmLatch_length h (by simp)

theorem xorRmR (p d r) : Statement (.xorRmR p d r) := fun h => modrmLatch_length h (by simp)

theorem xorR8Rm8 (p d r) : Statement (.xorR8Rm8 p d r) := fun h => modrmLatch_length h (by simp)

theorem xorRRm (p d r) : Statement (.xorRRm p d r) := fun h => modrmLatch_length h (by simp)

theorem incRm8 (p d) : Statement (.incRm8 p d) := fun h => modrmLatch_length h (by simp)

theorem incRm (p d) : Statement (.incRm p d) := fun h => modrmLatch_length h (by simp)

theorem movRm8R8 (p d r) : Statement (.movRm8R8 p d r) := fun h => modrmLatch_length h (by simp)

theorem movRmR (p d r) : Statement (.movRmR p d r) := fun h => modrmLatch_length h (by simp)

theorem movR8Rm8 (p d r) : Statement (.movR8Rm8 p d r) := fun h => modrmLatch_length h (by simp)

theorem movRRm (p d r) : Statement (.movRRm p d r) := fun h => modrmLatch_length h (by simp)

theorem movR8Imm8 (p d i) : Statement (.movR8Imm8 p d i) := fun h => plainLatch_length h (by simp)

theorem movRImm (p d i) : Statement (.movRImm p d i) := fun h =>
  plainLatch_length ((Bool.and_eq_true _ _).mp h).1 (Imm.bytes_length_bounds _).2

theorem movRm8Imm8 (p d i) : Statement (.movRm8Imm8 p d i) := fun h => modrmLatch_length h (by simp)

theorem movRmImm (p d i) : Statement (.movRmImm p d i) := fun h =>
  modrmLatch_length ((Bool.and_eq_true _ _).mp h).1
    (Imm.bytes_length_wfW ((Bool.and_eq_true _ _).mp h).2 ▸ immWLen_le _)

theorem leaRM (p d r) : Statement (.leaRM p d r) := fun h => modrmLatch_length h (by simp)

theorem jmpRel8 (r) : Statement (.jmpRel8 r) :=
  fun _ => by constructor <;> simp [Instr.size, encode, Instr.latch, Latch.bytes, plainLatch, Pfx.none]

theorem jmpRel32 (r) : Statement (.jmpRel32 r) :=
  fun _ => by constructor <;> simp [Instr.size, encode, Instr.latch, Latch.bytes, plainLatch, Pfx.none]

theorem joRel8 (r) : Statement (.joRel8 r) :=
  fun _ => by constructor <;> simp [Instr.size, encode, Instr.latch, Latch.bytes, plainLatch, Pfx.none]

theorem jnoRel8 (r) : Statement (.jnoRel8 r) :=
  fun _ => by constructor <;> simp [Instr.size, encode, Instr.latch, Latch.bytes, plainLatch, Pfx.none]

theorem jbRel8 (r) : Statement (.jbRel8 r) :=
  fun _ => by constructor <;> simp [Instr.size, encode, Instr.latch, Latch.bytes, plainLatch, Pfx.none]

theorem jaeRel8 (r) : Statement (.jaeRel8 r) :=
  fun _ => by constructor <;> simp [Instr.size, encode, Instr.latch, Latch.bytes, plainLatch, Pfx.none]

theorem jeRel8 (r) : Statement (.jeRel8 r) :=
  fun _ => by constructor <;> simp [Instr.size, encode, Instr.latch, Latch.bytes, plainLatch, Pfx.none]

theorem jneRel8 (r) : Statement (.jneRel8 r) :=
  fun _ => by constructor <;> simp [Instr.size, encode, Instr.latch, Latch.bytes, plainLatch, Pfx.none]

theorem jbeRel8 (r) : Statement (.jbeRel8 r) :=
  fun _ => by constructor <;> simp [Instr.size, encode, Instr.latch, Latch.bytes, plainLatch, Pfx.none]

theorem jaRel8 (r) : Statement (.jaRel8 r) :=
  fun _ => by constructor <;> simp [Instr.size, encode, Instr.latch, Latch.bytes, plainLatch, Pfx.none]

theorem jsRel8 (r) : Statement (.jsRel8 r) :=
  fun _ => by constructor <;> simp [Instr.size, encode, Instr.latch, Latch.bytes, plainLatch, Pfx.none]

theorem jnsRel8 (r) : Statement (.jnsRel8 r) :=
  fun _ => by constructor <;> simp [Instr.size, encode, Instr.latch, Latch.bytes, plainLatch, Pfx.none]

theorem jpRel8 (r) : Statement (.jpRel8 r) :=
  fun _ => by constructor <;> simp [Instr.size, encode, Instr.latch, Latch.bytes, plainLatch, Pfx.none]

theorem jnpRel8 (r) : Statement (.jnpRel8 r) :=
  fun _ => by constructor <;> simp [Instr.size, encode, Instr.latch, Latch.bytes, plainLatch, Pfx.none]

theorem jlRel8 (r) : Statement (.jlRel8 r) :=
  fun _ => by constructor <;> simp [Instr.size, encode, Instr.latch, Latch.bytes, plainLatch, Pfx.none]

theorem jgeRel8 (r) : Statement (.jgeRel8 r) :=
  fun _ => by constructor <;> simp [Instr.size, encode, Instr.latch, Latch.bytes, plainLatch, Pfx.none]

theorem jleRel8 (r) : Statement (.jleRel8 r) :=
  fun _ => by constructor <;> simp [Instr.size, encode, Instr.latch, Latch.bytes, plainLatch, Pfx.none]

theorem jgRel8 (r) : Statement (.jgRel8 r) :=
  fun _ => by constructor <;> simp [Instr.size, encode, Instr.latch, Latch.bytes, plainLatch, Pfx.none]

theorem joRel32 (r) : Statement (.joRel32 r) :=
  fun _ => by constructor <;> simp [Instr.size, encode, Instr.latch, Latch.bytes, plainLatch, Pfx.none]

theorem jnoRel32 (r) : Statement (.jnoRel32 r) :=
  fun _ => by constructor <;> simp [Instr.size, encode, Instr.latch, Latch.bytes, plainLatch, Pfx.none]

theorem jbRel32 (r) : Statement (.jbRel32 r) :=
  fun _ => by constructor <;> simp [Instr.size, encode, Instr.latch, Latch.bytes, plainLatch, Pfx.none]

theorem jaeRel32 (r) : Statement (.jaeRel32 r) :=
  fun _ => by constructor <;> simp [Instr.size, encode, Instr.latch, Latch.bytes, plainLatch, Pfx.none]

theorem jeRel32 (r) : Statement (.jeRel32 r) :=
  fun _ => by constructor <;> simp [Instr.size, encode, Instr.latch, Latch.bytes, plainLatch, Pfx.none]

theorem jneRel32 (r) : Statement (.jneRel32 r) :=
  fun _ => by constructor <;> simp [Instr.size, encode, Instr.latch, Latch.bytes, plainLatch, Pfx.none]

theorem jbeRel32 (r) : Statement (.jbeRel32 r) :=
  fun _ => by constructor <;> simp [Instr.size, encode, Instr.latch, Latch.bytes, plainLatch, Pfx.none]

theorem jaRel32 (r) : Statement (.jaRel32 r) :=
  fun _ => by constructor <;> simp [Instr.size, encode, Instr.latch, Latch.bytes, plainLatch, Pfx.none]

theorem jsRel32 (r) : Statement (.jsRel32 r) :=
  fun _ => by constructor <;> simp [Instr.size, encode, Instr.latch, Latch.bytes, plainLatch, Pfx.none]

theorem jnsRel32 (r) : Statement (.jnsRel32 r) :=
  fun _ => by constructor <;> simp [Instr.size, encode, Instr.latch, Latch.bytes, plainLatch, Pfx.none]

theorem jpRel32 (r) : Statement (.jpRel32 r) :=
  fun _ => by constructor <;> simp [Instr.size, encode, Instr.latch, Latch.bytes, plainLatch, Pfx.none]

theorem jnpRel32 (r) : Statement (.jnpRel32 r) :=
  fun _ => by constructor <;> simp [Instr.size, encode, Instr.latch, Latch.bytes, plainLatch, Pfx.none]

theorem jlRel32 (r) : Statement (.jlRel32 r) :=
  fun _ => by constructor <;> simp [Instr.size, encode, Instr.latch, Latch.bytes, plainLatch, Pfx.none]

theorem jgeRel32 (r) : Statement (.jgeRel32 r) :=
  fun _ => by constructor <;> simp [Instr.size, encode, Instr.latch, Latch.bytes, plainLatch, Pfx.none]

theorem jleRel32 (r) : Statement (.jleRel32 r) :=
  fun _ => by constructor <;> simp [Instr.size, encode, Instr.latch, Latch.bytes, plainLatch, Pfx.none]

theorem jgRel32 (r) : Statement (.jgRel32 r) :=
  fun _ => by constructor <;> simp [Instr.size, encode, Instr.latch, Latch.bytes, plainLatch, Pfx.none]

theorem callRel32 (r) : Statement (.callRel32 r) :=
  fun _ => by constructor <;> simp [Instr.size, encode, Instr.latch, Latch.bytes, plainLatch, Pfx.none]

theorem ret : Statement (.ret) := fun _ => ⟨by decide, by decide⟩

theorem syscall : Statement (.syscall) := fun _ => ⟨by decide, by decide⟩

end Sys2Proof.Laws.Length
end

