-- ==== Sys2Proof/Laws/Step.lean ====
section
/-! SUPPORT. What fetch, SYSCALL, a step and a host action can do, said once. -/

namespace Sys2Proof.Machine

/-! ## Fetch -/

/-- Executable bytes are fetched in order (R70). -/
theorem codeBytes_starts {m : Memory} (bs : List Byte) (a : Word) (n : Nat)
    (h : ∀ k b, bs[k]? = some b →
      m.executable (a + BitVec.ofNat 64 k) = true ∧ m.byte (a + BitVec.ofNat 64 k) = b) (hn : bs.length ≤ n) :
    ∃ more, codeBytes m a n = bs ++ more := by
  induction bs generalizing a n with
  | nil => exact ⟨_, rfl⟩
  | cons b bs ih =>
    cases n with
    | zero => simp at hn
    | succ n =>
      have h₀ := h 0 b rfl
      simp only [BitVec.add_zero] at h₀
      obtain ⟨more, hm⟩ := ih (a + 1) n
        (fun k c hk => by rw [addr_succ]; exact h (k + 1) c (by simpa using hk)) (by simpa using hn)
      refine ⟨more, ?_⟩
      rw [codeBytes, Memory.fetch, if_pos h₀.1]
      simp only [h₀.2, hm]
      rfl

/-- Fetching ends at the first byte that is not executable (R93). -/
theorem codeBytes_stops {m : Memory} (bs : List Byte) (a : Word) (n : Nat)
    (h : ∀ k b, bs[k]? = some b →
      m.executable (a + BitVec.ofNat 64 k) = true ∧ m.byte (a + BitVec.ofNat 64 k) = b)
    (hx : m.executable (a + BitVec.ofNat 64 bs.length) = false) (hn : bs.length ≤ n) : codeBytes m a n = bs := by
  induction bs generalizing a n with
  | nil =>
    cases n with
    | zero => rfl
    | succ n => simp at hx; simp [codeBytes, Memory.fetch, hx]
  | cons b bs ih =>
    cases n with
    | zero => simp at hn
    | succ n =>
      have h₀ := h 0 b rfl
      simp only [BitVec.add_zero] at h₀
      have := ih (a + 1) n (fun k c hk => by rw [addr_succ]; exact h (k + 1) c (by simpa using hk))
        (by rw [addr_succ]; simpa using hx) (by simpa using hn)
      rw [codeBytes, Memory.fetch, if_pos h₀.1]
      simp only [h₀.2, this]

/-! ## SYSCALL -/

/-- What SYSCALL leaves alone, whatever the collaborator answers (R220, R221). -/
theorem syscallWith_keeps (ans : SyscallAnswer) (d₁ d₂ : Word) (s : State) :
    (syscallWith ans d₁ d₂ s).cpu.flags = s.cpu.flags ∧ (syscallWith ans d₁ d₂ s).cpu.fsBase = s.cpu.fsBase ∧
    (syscallWith ans d₁ d₂ s).cpu.gsBase = s.cpu.gsBase ∧ (syscallWith ans d₁ d₂ s).cpu.vreg = s.cpu.vreg ∧
    (syscallWith ans d₁ d₂ s).latch = s.latch ∧ (syscallWith ans d₁ d₂ s).refusalMark = s.refusalMark ∧
    (syscallWith ans d₁ d₂ s).trapRecord = s.trapRecord := by
  unfold syscallWith
  cases ans.result <;> simp

/-- SYSCALL counts, changes memory by the collaborator's operations alone, and ends in Continue or Exit (R39, R220). -/
theorem syscallWith_ends (ans : SyscallAnswer) (d₁ d₂ : Word) (s : State) :
    (syscallWith ans d₁ d₂ s).cpu.icount = s.cpu.icount + 1 ∧
    (syscallWith ans d₁ d₂ s).mem = s.mem.applyAll ans.actions ∧
    ((∃ code, (syscallWith ans d₁ d₂ s).port = .exited code ∧ (syscallWith ans d₁ d₂ s).cpu.pc = s.cpu.pc) ∨
      (syscallWith ans d₁ d₂ s).port = .continued (syscallWith ans d₁ d₂ s).cpu.pc) := by
  unfold syscallWith
  cases ans.result <;> simp

/-! ## A step -/

/-- A stopped thread's step never answers a next state. -/
theorem stopped_not_next {s t : State} {r : StepResult} (h : s.stopped = some r) : r ≠ .next t := by
  unfold State.stopped at h
  split at h
  · cases h; simp
  · split at h <;> cases h <;> simp

/-- The step of a thread that is not stopped (R243). -/
theorem step_running {s : State} (h : s.stopped = none) :
    step s = match decodeAt s.mem s.cpu.pc with
      | .insn r => exec r.instr (s.setLatch r.latch)
      | .illegal _ bytes => execIllegal bytes (s.setLatch .empty)
      | .trap info => .next ((s.setLatch .empty).takeTrap .segmentationViolation info)
      | .refused r => .refused (.decoder r) := by
  simp only [step, h] <;> rfl

/-- A step that answers a next state ran an instruction, or took a Trap of the decoder at `pc`. -/
theorem step_next_cases {s t : State} (h : step s = .next t) :
    s.stopped = none ∧
    ((∃ i l, exec i (s.setLatch l) = .next t) ∨
      ∃ k info, t = (s.setLatch .empty).takeTrap k info ∧ info.pc = s.cpu.pc ∧
        (k = .illegalInstruction ∧ info.addr = s.cpu.pc ∧ info.access = none ∨
          k = .segmentationViolation ∧ info.access = some .execute)) := by
  cases hs : s.stopped with
  | some r =>
    unfold step at h
    rw [hs] at h
    exact absurd h (stopped_not_next hs)
  | none =>
    refine ⟨rfl, ?_⟩
    rw [step_running hs] at h
    split at h
    · exact .inl ⟨_, _, h⟩
    · cases h; exact .inr ⟨_, _, rfl, rfl, .inl ⟨rfl, rfl, rfl⟩⟩
    · next info hd =>
      cases h
      refine .inr ⟨_, _, rfl, ?_⟩
      unfold decodeAt at hd
      dsimp only at hd
      split at hd <;> cases hd
      exact ⟨rfl, .inr ⟨rfl, rfl⟩⟩
    · cases h

/-! ## The host -/

/-- No host action touches the refusal mark or the trap record (R234, R246). -/
theorem hostAction_keeps (a : HostAction) (s : State) :
    (a.apply s).refusalMark = s.refusalMark ∧ (a.apply s).trapRecord = s.trapRecord := by
  cases a <;> exact ⟨rfl, rfl⟩

/-- Every host action keeps the address space canonical (R61, R84). -/
theorem hostAction_wf {s : State} (h : s.mem.wf) (a : HostAction) : (a.apply s).mem.wf := by
  cases a with
  | memory m => exact Memory.apply_wf h m
  | redirect t => exact h
  | writeReg n v new => exact h
  | setFlags f => exact h
  | setFlagsWord w => exact h
  | setFsBase v => exact h
  | setGsBase v => exact h
  | writeVec j v new => exact h
  | swap c => exact h

/-! ## The loop -/

/-- A turn ends in the step's outcome, or in that and the host's actions (R243). -/
theorem turn_cases (s : State) (acts : List HostAction) :
    turn s acts = settle s (step s) ∨ turn s acts = applyHost acts (settle s (step s)) := by
  unfold turn
  dsimp only
  split
  · exact .inl rfl
  · exact .inr rfl

/-- A run that has ended takes no step (R234, R242). -/
theorem settle_ended {s : State} (h : s.ended = true) : settle s (step s) = s := by
  obtain ⟨cpu, mem, latch, port, mark, rec, draws⟩ := s
  cases mark with
  | some r => rfl
  | none =>
    cases port with
    | exited code => rfl
    | ready => cases h
    | continued n => cases h
    | redirected n => cases h
    | trapped tr => cases h

/-- A run that has ended keeps its end state, whatever the host would do (R234, R242). -/
theorem runWith_ended {s : State} (h : s.ended = true) (schedule : List (List HostAction)) :
    runWith s schedule = s := by
  induction schedule with
  | nil => rfl
  | cons acts schedule ih =>
    have ht : turn s acts = s := by
      unfold turn
      rw [settle_ended h]
      exact if_pos h
    show runWith (turn s acts) schedule = s
    rw [ht, ih]

/-! ## Reset -/

theorem reset_mem_wf : State.reset.mem.wf := by decide

end Sys2Proof.Machine
end

