-- ==== Sys2Proof/Tests/Slice0.lean ====
section
/-! SUPPORT. Tests of the model: ill-formed terms, words written out from the spec's encodings, single steps with
expected results from spec/95_test_vectors.md or worked by hand from the rules, and witnesses for the statements'
hypotheses. -/

namespace Sys2Proof.Tests

set_option Elab.async false

open Sys2Proof Sys2Proof.Machine

/-! ## Small states -/

/-- Code region `[0x1000, 0x1100)` and data region `[0x2000, 0x3000)`, as in the vectors of spec/95; `pc` is 0x1000. -/
def box (code : List Byte) (regs : List (RegNum × Word)) (data : List (Word × List Byte))
    (codeProt : Protection := ⟨true, false, true⟩) (dataProt : Protection := ⟨true, true, false⟩) : State :=
  let m := ({ regions := [], cells := [] } : Memory).applyAll
    (.allocate ⟨0x1000, 0x100, codeProt⟩ :: .allocate ⟨0x2000, 0x1000, dataProt⟩ :: .write 0x1000 code ::
      data.map fun d => .write d.1 d.2)
  regs.foldl (fun s r => s.setX r.1 r.2) ((State.launch { Launch.blank with entry := 0x1000 }).setMem m)

/-- The state with these flags set and the others clear. -/
def withFlags (s : State) (on : List FlagName) : State :=
  s.setFlags
    { CF := on.contains .CF, PF := on.contains .PF, AF := on.contains .AF, ZF := on.contains .ZF, SF := on.contains .SF,
      DF := on.contains .DF, OF := on.contains .OF, AC := on.contains .AC, ID := on.contains .ID }

/-- The next state of a result, if it is one. -/
def after (r : StepResult) : Option State :=
  match r with
  | .next t => some t
  | .fault _ => none
  | .refused _ => none

/-- The refusal of a result, if it is one. -/
def refusal (r : StepResult) : Option Refusal :=
  match r with
  | .next _ => none
  | .fault _ => none
  | .refused e => some e

/-- `pc`, `icount` and one register after a step. -/
def regAfter (s : State) (n : RegNum) : Option (Word × Word × Word) :=
  (after (step s)).map fun t => (t.cpu.pc, t.cpu.icount, t.x n)

/-- CF, PF, AF, ZF, SF and OF after a step. -/
def flagsAfter (s : State) : Option (List Bool) :=
  (after (step s)).map fun t =>
    [t.cpu.flags.CF, t.cpu.flags.PF, t.cpu.flags.AF, t.cpu.flags.ZF, t.cpu.flags.SF, t.cpu.flags.OF]

/-- The same without AF, which AND, OR and XOR leave free. -/
def flagsAfterLogic (s : State) : Option (List Bool) :=
  (after (step s)).map fun t =>
    [t.cpu.flags.CF, t.cpu.flags.PF, t.cpu.flags.ZF, t.cpu.flags.SF, t.cpu.flags.OF]

/-- Bytes of memory after a step. -/
def bytesAfter (s : State) (a : Word) (n : Nat) : Option (List Byte) := (after (step s)).map fun t => t.mem.readBytes a n

/-- The outcome port after a step. -/
def portAfter (s : State) : Option Port := (after (step s)).map State.port

/-- The instruction a byte string decodes to, if it decodes and nothing is left over. -/
def instrOf (bs : List Byte) : Option Instr :=
  match decode bs with
  | .ok a rest => if rest = [] then some a.2 else none
  | .illegal _ => none
  | .refused _ => none
  | .more => none

/-- No prefix. -/
def p0 : Pfx := { legacy := [], rex := none }

/-- A lone REX prefix with these bits. -/
def rexP (w r x b : Bool) : Pfx := { legacy := [], rex := some { w := w, r := r, x := x, b := b } }

/-! ## Ill-formed terms: one for each check of WellFormed -/

theorem test_wf_refuses_second_opsize : (Instr.incRm ⟨[.opsize, .opsize], none⟩ (.mem (.base 0 .none))).wf = false := by
  decide
theorem test_wf_refuses_second_addrsize :
    (Instr.incRm ⟨[.addrsize, .opsize, .addrsize], none⟩ (.mem (.base 0 .none))).wf = false := by decide
theorem test_wf_refuses_second_segment : (Instr.incRm ⟨[.segFS, .segGS], none⟩ (.mem (.base 0 .none))).wf = false := by
  decide
theorem test_wf_refuses_opsize_on_byte_form : (Instr.incRm8 ⟨[.opsize], none⟩ (.reg 0)).wf = false := by decide
theorem test_wf_refuses_addrsize_on_register : (Instr.xorRmR ⟨[.addrsize], none⟩ (.reg 0) 0).wf = false := by decide
theorem test_wf_refuses_segment_on_register : (Instr.xorRmR ⟨[.segGS], none⟩ (.reg 0) 0).wf = false := by decide
theorem test_wf_refuses_segment_on_lea : (Instr.leaRM ⟨[.segFS], none⟩ 0 (.base 0 .none)).wf = false := by decide
theorem test_wf_refuses_prefix_on_mov_r8 : (Instr.movR8Imm8 ⟨[.opsize], none⟩ 0 1).wf = false := by decide
theorem test_wf_refuses_addrsize_on_mov_r : (Instr.movRImm ⟨[.addrsize], none⟩ 0 (.i32 1)).wf = false := by decide
theorem test_wf_refuses_segment_on_mov_r : (Instr.movRImm ⟨[.segFS], none⟩ 0 (.i32 1)).wf = false := by decide
theorem test_wf_refuses_base_100_without_sib : (Instr.incRm p0 (.mem (.base 4 .none))).wf = false := by decide
theorem test_wf_refuses_base_101_without_disp : (Instr.incRm p0 (.mem (.base 5 .none))).wf = false := by decide
theorem test_wf_refuses_sib_base_101_without_disp : (Instr.incRm p0 (.mem (.sib 0 0 5 .none))).wf = false := by decide
theorem test_wf_refuses_imm16_without_opsize : (Instr.addRmImm p0 (.reg 0) (.i16 1)).wf = false := by decide
theorem test_wf_refuses_imm32_with_opsize : (Instr.addRmImm ⟨[.opsize], none⟩ (.reg 0) (.i32 1)).wf = false := by
  decide
theorem test_wf_refuses_imm64_in_group81 : (Instr.addRmImm (rexP true false false false) (.reg 0) (.i64 1)).wf = false := by
  decide
theorem test_wf_refuses_imm32_in_mov_r64 : (Instr.movRImm (rexP true false false false) 0 (.i32 1)).wf = false := by
  decide
theorem test_wf_refuses_imm64_in_mov_r32 : (Instr.movRImm p0 0 (.i64 1)).wf = false := by decide

/-! ## Decoding: a word of every constructor, written out from the opcode maps (R97, R98) and R100 to R108 -/

/-- 80 /0 to /7, mod 11. -/
theorem test_decode_group80 :
    ([[0x80, 0xC4, 0x11],
      [0x80, 0xCD, 0x22],
      [0x80, 0xD6, 0x33],
      [0x80, 0xDF, 0x44],
      [0x80, 0xE0, 0x55],
      [0x80, 0xE9, 0x66],
      [0x80, 0xF2, 0x77],
      [0x80, 0xFB, 0x88]].map instrOf) =
    [some (.addRm8Imm8 p0 (.reg 4) 0x11),
      some (.orRm8Imm8 p0 (.reg 5) 0x22),
      some (.adcRm8Imm8 p0 (.reg 6) 0x33),
      some (.sbbRm8Imm8 p0 (.reg 7) 0x44),
      some (.andRm8Imm8 p0 (.reg 0) 0x55),
      some (.subRm8Imm8 p0 (.reg 1) 0x66),
      some (.xorRm8Imm8 p0 (.reg 2) 0x77),
      some (.cmpRm8Imm8 p0 (.reg 3) 0x88)] := by
  decide +kernel

/-- 81 /0 to /7, mod 01: base rm, disp8, imm32. -/
theorem test_decode_group81 :
    ([[0x81, 0x40, 0xF0, 0x78, 0x56, 0x34, 0x12],
      [0x81, 0x49, 0xF0, 0x78, 0x56, 0x34, 0x12],
      [0x81, 0x52, 0xF0, 0x78, 0x56, 0x34, 0x12],
      [0x81, 0x5B, 0xF0, 0x78, 0x56, 0x34, 0x12],
      [0x81, 0x66, 0xF0, 0x78, 0x56, 0x34, 0x12],
      [0x81, 0x6D, 0xF0, 0x78, 0x56, 0x34, 0x12],
      [0x81, 0x76, 0xF0, 0x78, 0x56, 0x34, 0x12],
      [0x81, 0x7F, 0xF0, 0x78, 0x56, 0x34, 0x12]].map instrOf) =
    [some (.addRmImm p0 (.mem (.base 0 (.d8 0xF0))) (.i32 0x12345678)),
      some (.orRmImm p0 (.mem (.base 1 (.d8 0xF0))) (.i32 0x12345678)),
      some (.adcRmImm p0 (.mem (.base 2 (.d8 0xF0))) (.i32 0x12345678)),
      some (.sbbRmImm p0 (.mem (.base 3 (.d8 0xF0))) (.i32 0x12345678)),
      some (.andRmImm p0 (.mem (.base 6 (.d8 0xF0))) (.i32 0x12345678)),
      some (.subRmImm p0 (.mem (.base 5 (.d8 0xF0))) (.i32 0x12345678)),
      some (.xorRmImm p0 (.mem (.base 6 (.d8 0xF0))) (.i32 0x12345678)),
      some (.cmpRmImm p0 (.mem (.base 7 (.d8 0xF0))) (.i32 0x12345678))] := by
  decide +kernel

/-- 66 83 /0 to /7, mod 00, rm 100: SIB with scale, index and base. -/
theorem test_decode_group83 :
    ([[0x66, 0x83, 0x04, 0x02, 0xFF],
      [0x66, 0x83, 0x0C, 0x4A, 0xFF],
      [0x66, 0x83, 0x14, 0x92, 0xFF],
      [0x66, 0x83, 0x1C, 0xDA, 0xFF],
      [0x66, 0x83, 0x24, 0x22, 0xFF],
      [0x66, 0x83, 0x2C, 0x6A, 0xFF],
      [0x66, 0x83, 0x34, 0xB2, 0xFF],
      [0x66, 0x83, 0x3C, 0xFA, 0xFF]].map instrOf) =
    [some (.addRmImm8 ⟨[.opsize], none⟩ (.mem (.sib 0 0 2 .none)) 0xFF),
      some (.orRmImm8 ⟨[.opsize], none⟩ (.mem (.sib 1 1 2 .none)) 0xFF),
      some (.adcRmImm8 ⟨[.opsize], none⟩ (.mem (.sib 2 2 2 .none)) 0xFF),
      some (.sbbRmImm8 ⟨[.opsize], none⟩ (.mem (.sib 3 3 2 .none)) 0xFF),
      some (.andRmImm8 ⟨[.opsize], none⟩ (.mem (.sib 0 4 2 .none)) 0xFF),
      some (.subRmImm8 ⟨[.opsize], none⟩ (.mem (.sib 1 5 2 .none)) 0xFF),
      some (.xorRmImm8 ⟨[.opsize], none⟩ (.mem (.sib 2 6 2 .none)) 0xFF),
      some (.cmpRmImm8 ⟨[.opsize], none⟩ (.mem (.sib 3 7 2 .none)) 0xFF)] := by
  decide +kernel

/-- 30 to 33, r/m before reg. -/
theorem test_decode_xor :
    ([[0x40, 0x30, 0xEC],
      [0x49, 0x31, 0xD8],
      [0x32, 0xA1, 0x04, 0x03, 0x02, 0x01],
      [0x64, 0x67, 0x33, 0x3D, 0x10, 0x00, 0x00, 0x00]].map instrOf) =
    [some (.xorRm8R8 (rexP false false false false) (.reg 4) 5),
      some (.xorRmR (rexP true false false true) (.reg 0) 3),
      some (.xorR8Rm8 p0 4 (.mem (.base 1 (.d32 0x01020304)))),
      some (.xorRRm ⟨[.segFS, .addrsize], none⟩ 7 (.mem (.ripRel 0x10)))] := by
  decide +kernel

/-- FE /0 and FF /0. -/
theorem test_decode_inc :
    ([[0xFE, 0xC7],
      [0x66, 0x45, 0xFF, 0x44, 0xA5, 0x80]].map instrOf) =
    [some (.incRm8 p0 (.reg 7)),
      some (.incRm ⟨[.opsize], some ⟨false, true, false, true⟩⟩ (.mem (.sib 2 4 5 (.d8 0x80))))] := by
  decide +kernel

/-- 88 to 8B, B0+r, B8+r at three widths, C6 /0 and C7 /0. -/
theorem test_decode_mov :
    ([[0x88, 0xE1],
      [0x89, 0xC7],
      [0x8A, 0x00],
      [0x42, 0x8B, 0x04, 0x20],
      [0x41, 0xB6, 0x05],
      [0xBA, 0x0D, 0x00, 0x00, 0x00],
      [0x66, 0xB8, 0x34, 0x12],
      [0x48, 0xBF, 0x88, 0x77, 0x66, 0x55, 0x44, 0x33, 0x22, 0x11],
      [0xC6, 0x04, 0x25, 0x00, 0x20, 0x00, 0x00, 0xAB],
      [0x48, 0xC7, 0xC6, 0x00, 0x20, 0x40, 0x00]].map instrOf) =
    [some (.movRm8R8 p0 (.reg 1) 4),
      some (.movRmR p0 (.reg 7) 0),
      some (.movR8Rm8 p0 0 (.mem (.base 0 .none))),
      some (.movRRm (rexP false false true false) 0 (.mem (.sib 0 4 0 .none))),
      some (.movR8Imm8 (rexP false false false true) 6 5),
      some (.movRImm p0 2 (.i32 0xD)),
      some (.movRImm ⟨[.opsize], none⟩ 0 (.i16 0x1234)),
      some (.movRImm (rexP true false false false) 7 (.i64 0x1122334455667788)),
      some (.movRm8Imm8 p0 (.mem (.sibNoBase 0 4 0x2000)) 0xAB),
      some (.movRmImm (rexP true false false false) (.reg 6) (.i32 0x402000))] := by
  decide +kernel

/-- 8D: the source's own encoding, and no base. -/
theorem test_decode_lea :
    ([[0x49, 0x8D, 0x74, 0x24, 0x01],
      [0x48, 0x8D, 0x04, 0x8D, 0x10, 0x00, 0x00, 0x00]].map instrOf) =
    [some (.leaRM (rexP true false false true) 6 (.sib 0 4 4 (.d8 1))),
      some (.leaRM (rexP true false false false) 0 (.sibNoBase 2 1 0x10))] := by
  decide +kernel

/-- 70 to 7F. -/
theorem test_decode_jcc_rel8 :
    ([[0x70, 0x80],
      [0x71, 0x81],
      [0x72, 0x82],
      [0x73, 0x83],
      [0x74, 0x84],
      [0x75, 0x85],
      [0x76, 0x86],
      [0x77, 0x87],
      [0x78, 0x88],
      [0x79, 0x89],
      [0x7A, 0x8A],
      [0x7B, 0x8B],
      [0x7C, 0x8C],
      [0x7D, 0x8D],
      [0x7E, 0x8E],
      [0x7F, 0x8F]].map instrOf) =
    [some (.joRel8 0x80),
      some (.jnoRel8 0x81),
      some (.jbRel8 0x82),
      some (.jaeRel8 0x83),
      some (.jeRel8 0x84),
      some (.jneRel8 0x85),
      some (.jbeRel8 0x86),
      some (.jaRel8 0x87),
      some (.jsRel8 0x88),
      some (.jnsRel8 0x89),
      some (.jpRel8 0x8a),
      some (.jnpRel8 0x8b),
      some (.jlRel8 0x8c),
      some (.jgeRel8 0x8d),
      some (.jleRel8 0x8e),
      some (.jgRel8 0x8f)] := by
  decide +kernel

/-- 0F 80 to 0F 8F. -/
theorem test_decode_jcc_rel32 :
    ([[0x0F, 0x80, 0x00, 0x03, 0x02, 0x81],
      [0x0F, 0x81, 0x01, 0x03, 0x02, 0x81],
      [0x0F, 0x82, 0x02, 0x03, 0x02, 0x81],
      [0x0F, 0x83, 0x03, 0x03, 0x02, 0x81],
      [0x0F, 0x84, 0x04, 0x03, 0x02, 0x81],
      [0x0F, 0x85, 0x05, 0x03, 0x02, 0x81],
      [0x0F, 0x86, 0x06, 0x03, 0x02, 0x81],
      [0x0F, 0x87, 0x07, 0x03, 0x02, 0x81],
      [0x0F, 0x88, 0x08, 0x03, 0x02, 0x81],
      [0x0F, 0x89, 0x09, 0x03, 0x02, 0x81],
      [0x0F, 0x8A, 0x0A, 0x03, 0x02, 0x81],
      [0x0F, 0x8B, 0x0B, 0x03, 0x02, 0x81],
      [0x0F, 0x8C, 0x0C, 0x03, 0x02, 0x81],
      [0x0F, 0x8D, 0x0D, 0x03, 0x02, 0x81],
      [0x0F, 0x8E, 0x0E, 0x03, 0x02, 0x81],
      [0x0F, 0x8F, 0x0F, 0x03, 0x02, 0x81]].map instrOf) =
    [some (.joRel32 0x81020300),
      some (.jnoRel32 0x81020301),
      some (.jbRel32 0x81020302),
      some (.jaeRel32 0x81020303),
      some (.jeRel32 0x81020304),
      some (.jneRel32 0x81020305),
      some (.jbeRel32 0x81020306),
      some (.jaRel32 0x81020307),
      some (.jsRel32 0x81020308),
      some (.jnsRel32 0x81020309),
      some (.jpRel32 0x8102030a),
      some (.jnpRel32 0x8102030b),
      some (.jlRel32 0x8102030c),
      some (.jgeRel32 0x8102030d),
      some (.jleRel32 0x8102030e),
      some (.jgRel32 0x8102030f)] := by
  decide +kernel

/-- EB, E9, E8, C3 and 0F 05. -/
theorem test_decode_control :
    ([[0xEB, 0xFE],
      [0xE9, 0xFB, 0xFF, 0xFF, 0xFF],
      [0xE8, 0x0B, 0x00, 0x00, 0x00],
      [0xC3],
      [0x0F, 0x05]].map instrOf) =
    [some (.jmpRel8 0xFE),
      some (.jmpRel32 0xFFFFFFFB),
      some (.callRel32 0xB),
      some .ret,
      some .syscall] := by
  decide +kernel

/-- The source's own ADC and LEA encodings, with their texts (R127, R128). -/
theorem test_source_texts :
    (instrOf [0x83, 0xD0, 0xFF]).map (instrText 0x1000) = some "adc eax,-0x1" ∧
    (instrOf [0x49, 0x8D, 0x74, 0x24, 0x01]).map (instrText 0x1000) = some "lea rsi,[r12+0x1]" ∧
    (instrOf [0x64, 0x48, 0x8B, 0x04, 0x25, 0x28, 0x00, 0x00, 0x00]).map (instrText 0x1000) =
      some "mov rax,fs:[0x28]" ∧
    (instrOf [0x0F, 0x84, 0x00, 0x01, 0x00, 0x00]).map (instrText 0x1000) = some "je 0x1106" := by decide +kernel

/-- Vectors d6 to d18 and s4: the decoder's refusals (R118). -/
theorem test_decode_refusals :
    ([[0xF0, 0x83, 0x00, 0x01],
      [0x67, 0x67, 0x8B, 0x00],
      [0x64, 0x65, 0x8B, 0x00],
      [0x48, 0x67, 0x8B, 0x00],
      [0x90],
      [0xFF, 0xD0],
      [0x66, 0xEB, 0x00],
      [0x67, 0x89, 0xC0],
      [0x66, 0x88, 0xC0],
      [0x0F, 0x0B],
      [0x48, 0xC3],
      [0xC7, 0xC8, 0x00, 0x00, 0x00, 0x00],
      [0x0F, 0x01, 0xF8]].map decode) =
    [.refused .prefixNotAdmitted,
      .refused .duplicatePrefix,
      .refused .duplicatePrefix,
      .refused .legacyPrefixAfterRex,
      .refused .opcodeNotAdmitted,
      .refused .groupMemberNotAdmitted,
      .refused .prefixNotApplicable,
      .refused .prefixNotApplicable,
      .refused .prefixNotApplicable,
      .refused .opcodeNotAdmitted,
      .refused .prefixNotApplicable,
      .refused .groupMemberNotAdmitted,
      .refused .opcodeNotAdmitted] := by decide +kernel

/-- Vectors d2, d3, d4 and d12: the illegal encodings (R114). -/
theorem test_decode_illegal :
    ([[0x66, 0x66, 0x01, 0xC0], [0x48, 0x48, 0x01, 0xC0], [0x48, 0x66, 0x01, 0xC0], [0x8D, 0xC0]].map decode) =
    [.illegal [0x01, 0xC0], .illegal [0x01, 0xC0], .illegal [0x01, 0xC0], .illegal []] := by decide +kernel

/-- A proper prefix of an instruction asks for more. -/
theorem test_decode_more :
    ([[], [0x48], [0x83], [0x8B, 0x44, 0x48], [0x0F], [0x0F, 0x84, 0, 0, 0]].map decode) =
    [.more, .more, .more, .more, .more, .more] := by decide +kernel

/-- The row an opcode-table word decodes to, on its `match` value. -/
def tableRow (r : OpcodeRow) : Option Nat := (decodeTableWord 24 r.matchBits).map Instr.row

theorem test_table_rows0 : opcodeRows0.map tableRow = (List.range 19).map (fun n => some (n + 0)) := by
  decide +kernel
theorem test_table_rows1 : opcodeRows1.map tableRow = (List.range 19).map (fun n => some (n + 19)) := by
  decide +kernel
theorem test_table_rows2 : opcodeRows2.map tableRow = (List.range 19).map (fun n => some (n + 38)) := by
  decide +kernel
theorem test_table_rows3 : opcodeRows3.map tableRow = (List.range 19).map (fun n => some (n + 57)) := by
  decide +kernel

/-- `LEA` is illegal with mod 11, where the table's mask leaves mod free. -/
theorem test_table_lea_mod11 : decodeTableWord 24 0x008DC0 = none := by decide +kernel

/-- The first step after reset runs the placed word: `INC` of eax, `CALL` into unmapped stack memory, and SYSCALL. -/
theorem test_fetch_word_runs :
    (after (step (State.reset.withFetchWord 24 0x00FFC0))).map (fun t => (t.cpu.pc, t.x 0)) = some (2, 1) ∧
    (after (step (State.reset.withFetchWord 24 0x00E800))).map (fun t => t.isTrapped) = some true ∧
    (step (State.reset.withFetchWord 24 0x0F0500)) =
      exec .syscall ((State.reset.withFetchWord 24 0x0F0500).setLatch Instr.syscall.latch) := by
  refine ⟨by decide +kernel, by decide +kernel, ?_⟩
  rfl

/-! ## Single steps -/

/-- Vector x3: ah. -/
theorem test_add_80 :
    let s := box [0x80, 0xC4, 0x01] [(0, 0xff00)] []
    regAfter s 0 = some (0x1003, 1, 0x0) ∧
    flagsAfter s = some [true, true, true, true, false, false] := by decide +kernel

/-- By hand from R150 to R162. -/
theorem test_or_80 :
    let s := box [0x80, 0xC9, 0x81] [(1, 0x1)] []
    regAfter s 1 = some (0x1003, 1, 0x81) ∧
    flagsAfterLogic s = some [false, true, false, true, false] := by decide +kernel

/-- By hand from R150 to R162. -/
theorem test_adc_80 :
    let s := withFlags (box [0x80, 0xD1, 0x7F] [(1, 0x0)] []) [.CF]
    regAfter s 1 = some (0x1003, 1, 0x80) ∧
    flagsAfter s = some [false, false, true, false, true, true] := by decide +kernel

/-- Vector x17. -/
theorem test_sbb_80 :
    let s := withFlags (box [0x80, 0xD8, 0x01] [(0, 0x0)] []) [.CF]
    regAfter s 0 = some (0x1003, 1, 0xfe) ∧
    flagsAfter s = some [true, false, true, false, true, false] := by decide +kernel

/-- By hand from R150 to R162. -/
theorem test_and_80 :
    let s := box [0x80, 0xE1, 0x0F] [(1, 0xf0)] []
    regAfter s 1 = some (0x1003, 1, 0x0) ∧
    flagsAfterLogic s = some [false, true, true, false, false] := by decide +kernel

/-- By hand from R150 to R162. -/
theorem test_sub_80 :
    let s := box [0x80, 0xE9, 0x01] [(1, 0x0)] []
    regAfter s 1 = some (0x1003, 1, 0xff) ∧
    flagsAfter s = some [true, true, true, false, true, false] := by decide +kernel

/-- By hand from R150 to R162. -/
theorem test_xor_80 :
    let s := box [0x80, 0xF1, 0xFF] [(1, 0xf)] []
    regAfter s 1 = some (0x1003, 1, 0xf0) ∧
    flagsAfterLogic s = some [false, true, false, true, false] := by decide +kernel

/-- By hand from R150 to R162. -/
theorem test_cmp_80 :
    let s := box [0x80, 0xF9, 0x80] [(1, 0x7f)] []
    regAfter s 1 = some (0x1003, 1, 0x7f) ∧
    flagsAfter s = some [true, true, false, false, true, true] := by decide +kernel

/-- Vector x22. -/
theorem test_add_81 :
    let s := box [0x66, 0x81, 0xC1, 0xFF, 0x7F] [(1, 0xaaaa0001)] []
    regAfter s 1 = some (0x1005, 1, 0xaaaa8000) ∧
    flagsAfter s = some [false, true, true, false, true, true] := by decide +kernel

/-- By hand from R150 to R162. -/
theorem test_or_81 :
    let s := box [0x81, 0xC9, 0x00, 0x00, 0x00, 0x80] [(1, 0x1)] []
    regAfter s 1 = some (0x1006, 1, 0x80000001) ∧
    flagsAfterLogic s = some [false, false, false, true, false] := by decide +kernel

/-- By hand from R150 to R162. -/
theorem test_adc_81 :
    let s := withFlags (box [0x81, 0xD1, 0xFF, 0xFF, 0xFF, 0xFF] [(1, 0x0)] []) [.CF]
    regAfter s 1 = some (0x1006, 1, 0x0) ∧
    flagsAfter s = some [true, true, true, true, false, false] := by decide +kernel

/-- By hand from R150 to R162. -/
theorem test_sbb_81 :
    let s := withFlags (box [0x48, 0x81, 0xD9, 0x00, 0x00, 0x00, 0x80] [(1, 0x0)] []) [.CF]
    regAfter s 1 = some (0x1007, 1, 0x7fffffff) ∧
    flagsAfter s = some [true, true, true, false, false, false] := by decide +kernel

/-- By hand from R150 to R162. -/
theorem test_and_81 :
    let s := box [0x66, 0x81, 0xE1, 0xF0, 0x00] [(1, 0xaaaa12ff)] []
    regAfter s 1 = some (0x1005, 1, 0xaaaa00f0) ∧
    flagsAfterLogic s = some [false, true, false, false, false] := by decide +kernel

/-- Vector x16: the imm32 is sign-extended. -/
theorem test_sub_81 :
    let s := box [0x48, 0x81, 0xE8, 0x00, 0x00, 0x00, 0x80] [(0, 0x0)] []
    regAfter s 0 = some (0x1007, 1, 0x80000000) ∧
    flagsAfter s = some [true, true, false, false, false, false] := by decide +kernel

/-- By hand from R150 to R162. -/
theorem test_xor_81 :
    let s := box [0x81, 0xF1, 0xFF, 0xFF, 0xFF, 0xFF] [(1, 0xffffffff0000000f)] []
    regAfter s 1 = some (0x1006, 1, 0xfffffff0) ∧
    flagsAfterLogic s = some [false, true, false, true, false] := by decide +kernel

/-- By hand from R150 to R162. -/
theorem test_cmp_81 :
    let s := box [0x81, 0xF9, 0x00, 0x00, 0x00, 0x80] [(1, 0x80000000)] []
    regAfter s 1 = some (0x1006, 1, 0x80000000) ∧
    flagsAfter s = some [false, true, false, true, false, false] := by decide +kernel

/-- Vector x0a. -/
theorem test_add_83 :
    let s := box [0x83, 0xC0, 0x05] [(0, 0xfffffffd)] []
    regAfter s 0 = some (0x1003, 1, 0x2) ∧
    flagsAfter s = some [true, false, true, false, false, false] := by decide +kernel

/-- Vector x0b. -/
theorem test_or_83 :
    let s := box [0x83, 0xC8, 0x01] [(0, 0x80000000)] []
    regAfter s 0 = some (0x1003, 1, 0x80000001) ∧
    flagsAfterLogic s = some [false, false, false, true, false] := by decide +kernel

/-- The source's ADC example with CF = 1. -/
theorem test_adc_83 :
    let s := withFlags (box [0x83, 0xD0, 0xFF] [(0, 0x0)] []) [.CF]
    regAfter s 0 = some (0x1003, 1, 0x0) ∧
    flagsAfter s = some [true, true, true, true, false, false] := by decide +kernel

/-- Vector x0c. -/
theorem test_sbb_83 :
    let s := withFlags (box [0x83, 0xD8, 0x00] [(0, 0x0)] []) [.CF]
    regAfter s 0 = some (0x1003, 1, 0xffffffff) ∧
    flagsAfter s = some [true, true, true, false, true, false] := by decide +kernel

/-- Vector x0d. -/
theorem test_and_83 :
    let s := box [0x83, 0xE0, 0x0F] [(0, 0x12345678)] []
    regAfter s 0 = some (0x1003, 1, 0x8) ∧
    flagsAfterLogic s = some [false, false, false, false, false] := by decide +kernel

/-- Vector x0e. -/
theorem test_sub_83 :
    let s := box [0x83, 0xE8, 0x01] [(0, 0x80000000)] []
    regAfter s 0 = some (0x1003, 1, 0x7fffffff) ∧
    flagsAfter s = some [false, true, true, false, false, true] := by decide +kernel

/-- By hand from R150 to R162. -/
theorem test_xor_83 :
    let s := box [0x83, 0xF1, 0xFF] [(1, 0x1)] []
    regAfter s 1 = some (0x1003, 1, 0xfffffffe) ∧
    flagsAfterLogic s = some [false, false, false, true, false] := by decide +kernel

/-- Vector x25. -/
theorem test_cmp_83 :
    let s := box [0x48, 0x83, 0xF8, 0xFF] [(0, 0x1)] []
    regAfter s 0 = some (0x1004, 1, 0x1) ∧
    flagsAfter s = some [true, false, true, false, false, false] := by decide +kernel

/-- Program C: a read-modify-write. -/
theorem test_add_83_memory :
    let s := box [0x83, 0x01, 0x10] [(1, 0x2000)] [(0x2000, [0x2A])]
    regAfter s 1 = some (0x1003, 1, 0x2000) ∧
    flagsAfter s = some [false, true, false, false, false, false] ∧
    bytesAfter s 0x2000 4 = some [0x3A, 0x00, 0x00, 0x00] := by decide +kernel

/-- Vector x19. -/
theorem test_xor_30 :
    let s := box [0x30, 0x00] [(0, 0x2000)] [(0x2000, [0x0F])]
    flagsAfterLogic s = some [false, true, false, false, false] ∧
    bytesAfter s 0x2000 2 = some [0x0F, 0x00] := by decide +kernel

/-- Vector x0f. -/
theorem test_xor_31 :
    let s := box [0x31, 0xC0] [(0, 0xffffffffffffffff)] []
    regAfter s 0 = some (0x1002, 1, 0x0) ∧
    flagsAfterLogic s = some [false, true, true, false, false] := by decide +kernel

/-- Vector x18. -/
theorem test_xor_32 :
    let s := box [0x32, 0x00] [(0, 0x2000)] [(0x2000, [0x0F])]
    regAfter s 0 = some (0x1002, 1, 0x200f) ∧
    flagsAfterLogic s = some [false, true, false, false, false] := by decide +kernel

/-- Vector x20. -/
theorem test_xor_33 :
    let s := box [0x33, 0xC0] [(0, 0x1234)] []
    regAfter s 0 = some (0x1002, 1, 0x0) ∧
    flagsAfterLogic s = some [false, true, true, false, false] := by decide +kernel

/-- Vector x5: CF is kept. -/
theorem test_inc_fe :
    let s := withFlags (box [0xFE, 0xC0] [(0, 0xff)] []) [.CF]
    regAfter s 0 = some (0x1002, 1, 0x0) ∧
    flagsAfter s = some [true, true, true, true, false, false] := by decide +kernel

/-- Vector x0h. -/
theorem test_inc_ff :
    let s := box [0xFF, 0xC0] [(0, 0x7fffffff)] []
    regAfter s 0 = some (0x1002, 1, 0x80000000) ∧
    flagsAfter s = some [false, true, true, false, true, true] := by decide +kernel

/-- Program D: mov cl,ah. -/
theorem test_mov_88 :
    let s := box [0x88, 0xE1] [(0, 0x1122ff44), (1, 0xff44)] []
    regAfter s 1 = some (0x1002, 1, 0xffff) := by decide +kernel

/-- Vector m8: a REX byte selects spl. -/
theorem test_mov_88_spl :
    let s := box [0x40, 0x88, 0x24, 0x25, 0x00, 0x20, 0x00, 0x00] [(4, 0x12)] []
    bytesAfter s 0x2000 2 = some [0x12, 0x00] := by decide +kernel

/-- Vector m10: 32 bits zero-extend. -/
theorem test_mov_89 :
    let s := box [0x89, 0xC0] [(0, 0xffffffff00000001)] []
    regAfter s 0 = some (0x1002, 1, 0x1) := by decide +kernel

/-- Vector m9. -/
theorem test_mov_8a :
    let s := box [0x8A, 0x00] [(0, 0x2000)] [(0x2000, [0x7F])]
    regAfter s 0 = some (0x1002, 1, 0x207f) := by decide +kernel

/-- Vector a6. -/
theorem test_mov_8b :
    let s := box [0x8B, 0x44, 0x48, 0xFC] [(0, 0x2000), (1, 0x4)] [(0x2004, [0x55, 0x66, 0x77, 0x88])]
    regAfter s 0 = some (0x1004, 1, 0x88776655) := by decide +kernel

/-- Vector a9: the code reads its own bytes. -/
theorem test_mov_8b_rip :
    let s := box [0x8B, 0x05, 0xFA, 0xFF, 0xFF, 0xFF] [] []
    regAfter s 0 = some (0x1006, 1, 0xfffa058b) := by decide +kernel

/-- Vector m1. -/
theorem test_mov_b0 :
    let s := box [0x41, 0xB0, 0x05] [(8, 0x1111111111111111)] []
    regAfter s 8 = some (0x1003, 1, 0x1111111111111105) := by decide +kernel

/-- Vector m11: REX.W wins over 0x66. -/
theorem test_mov_b8 :
    let s := box [0x66, 0x48, 0xB8, 0x01, 0x00, 0x00, 0x00, 0x00, 0x00, 0x00, 0x80] [] []
    regAfter s 0 = some (0x100b, 1, 0x8000000000000001) := by decide +kernel

/-- Vector m4. -/
theorem test_mov_c6 :
    let s := box [0xC6, 0x00, 0xAB] [(0, 0x2000)] []
    bytesAfter s 0x2000 2 = some [0xAB, 0x00] := by decide +kernel

/-- Vector m6. -/
theorem test_mov_c7 :
    let s := box [0x48, 0xC7, 0x00, 0xFE, 0xFF, 0xFF, 0xFF] [(0, 0x2000)] []
    bytesAfter s 0x2000 9 = some [0xFE, 0xFF, 0xFF, 0xFF, 0xFF, 0xFF, 0xFF, 0xFF, 0x00] := by decide +kernel

/-- Vector a13: address size 32 wraps. -/
theorem test_lea :
    let s := box [0x67, 0x8D, 0x04, 0x08] [(0, 0xffffffff), (1, 0x2)] []
    regAfter s 0 = some (0x1004, 1, 0x1) := by decide +kernel

/-- The source's LEA example. -/
theorem test_lea_source :
    let s := box [0x49, 0x8D, 0x74, 0x24, 0x01] [(12, 0x1000)] []
    regAfter s 6 = some (0x1005, 1, 0x1001) := by decide +kernel

/-- Vector a8: the FS base. -/
theorem test_mov_fs :
    let s := box [0x64, 0x48, 0x8B, 0x04, 0x25, 0x28, 0x00, 0x00, 0x00] []
      [(0x2028, [0x08, 0x07, 0x06, 0x05, 0x04, 0x03, 0x02, 0x01])]
    regAfter ((HostAction.setFsBase 0x2000).apply s) 0 = some (0x1009, 1, 0x0102030405060708) := by decide +kernel

/-- Vectors x12, x13 and x14: alignment under AC. -/
theorem test_alignment :
    refusal (step (withFlags (box [0x8B, 0x00] [(0, 0x2001)] []) [.AC])) = some .alignmentCheckUnmodelled ∧
    regAfter (withFlags (box [0x8B, 0x00] [(0, 0x2004)] []) [.AC]) 0 = some (0x1002, 1, 0) ∧
    regAfter (withFlags (box [0x8A, 0x00] [(0, 0x2001)] []) [.AC]) 0 = some (0x1002, 1, 0x2000) := by decide +kernel

/-- Vectors x9, x10 and a9b: failed accesses. -/
theorem test_segmentation_violations :
    portAfter (box [0x83, 0x00, 0x01] [(0, 0x2000)] [] (dataProt := ⟨true, false, false⟩)) =
      some (.trapped ⟨.segmentationViolation, ⟨0x2000, some .write, 0x1000, [0x83, 0x00, 0x01]⟩⟩) ∧
    portAfter (box [0x83, 0x00, 0x01] [(0, 0x5000)] []) =
      some (.trapped ⟨.segmentationViolation, ⟨0x5000, some .read, 0x1000, [0x83, 0x00, 0x01]⟩⟩) ∧
    portAfter (box [0x8B, 0x05, 0xFA, 0xFF, 0xFF, 0xFF] [] [] (codeProt := ⟨false, false, true⟩)) =
      some (.trapped ⟨.segmentationViolation,
        ⟨0x1000, some .read, 0x1000, [0x8B, 0x05, 0xFA, 0xFF, 0xFF, 0xFF]⟩⟩) := by decide +kernel

/-- Vector d19: a fetch that runs out of the code region. -/
theorem test_fetch_fault :
    portAfter ((HostAction.redirect 0x10FF).apply (box (List.replicate 255 0 ++ [0x83]) [] [])) =
      some (.trapped ⟨.segmentationViolation, ⟨0x1100, some .execute, 0x10FF, [0x83]⟩⟩) := by decide +kernel

/-- Vector d2: the illegal instruction's Trap. -/
theorem test_illegal_instruction :
    portAfter (box [0x66, 0x66, 0x01, 0xC0] [] []) =
      some (.trapped ⟨.illegalInstruction, ⟨0x1000, none, 0x1000, [0x66, 0x66]⟩⟩) := by decide +kernel

/-- Vector x15: a store into code. -/
theorem test_store_into_code :
    refusal (step (box [0xC7, 0x00, 0x01, 0x00, 0x00, 0x00] [(0, 0x2000)] [] (dataProt := ⟨true, true, true⟩))) =
      some .selfModifyingCode := by decide +kernel

/-- Vectors x11 and x26: a store across two regions. -/
theorem test_store_across_regions :
    let s := box [0x89, 0x00] [(0, 0x2FFE)] []
    portAfter ((HostAction.memory (.allocate ⟨0x3000, 0x1000, ⟨true, false, false⟩⟩)).apply s) =
      some (.trapped ⟨.segmentationViolation, ⟨0x3000, some .write, 0x1000, [0x89, 0x00]⟩⟩) ∧
    bytesAfter ((HostAction.memory (.allocate ⟨0x3000, 0x1000, ⟨true, true, false⟩⟩)).apply s) 0x2FFE 4 =
      some [0xFE, 0x2F, 0x00, 0x00] := by decide +kernel

/-- The conditions that are taken, as the strings of spec/95 list them, for opcodes `70+cc 10`. -/
def takenRel8 (on : List FlagName) : List (Option Port) :=
  (List.range 16).map fun cc => portAfter (withFlags (box [BitVec.ofNat 8 (0x70 + cc), 0x10] [] []) on)

/-- The same for `0F 80+cc 10 00 00 00`. -/
def takenRel32 (on : List FlagName) : List (Option Port) :=
  (List.range 16).map fun cc =>
    portAfter (withFlags (box [0x0F, BitVec.ofNat 8 (0x80 + cc), 0x10, 0x00, 0x00, 0x00] [] []) on)

/-- The ports for a string of conditions. -/
def ports (taken untaken : Word) (l : List Nat) : List (Option Port) :=
  l.map fun b => some (if b = 1 then .redirected taken else .continued untaken)

theorem test_jcc_rel8_S0 : takenRel8 [] = ports 0x1012 0x1002
    [0, 1, 0, 1, 0, 1, 0, 1, 0, 1, 0, 1, 0, 1, 0, 1] := by decide +kernel
theorem test_jcc_rel32_S0 : takenRel32 [] = ports 0x1016 0x1006
    [0, 1, 0, 1, 0, 1, 0, 1, 0, 1, 0, 1, 0, 1, 0, 1] := by decide +kernel
theorem test_jcc_rel8_S1 : takenRel8 [.CF, .ZF] = ports 0x1012 0x1002
    [0, 1, 1, 0, 1, 0, 1, 0, 0, 1, 0, 1, 0, 1, 1, 0] := by decide +kernel
theorem test_jcc_rel32_S1 : takenRel32 [.CF, .ZF] = ports 0x1016 0x1006
    [0, 1, 1, 0, 1, 0, 1, 0, 0, 1, 0, 1, 0, 1, 1, 0] := by decide +kernel
theorem test_jcc_rel8_S2 : takenRel8 [.SF] = ports 0x1012 0x1002
    [0, 1, 0, 1, 0, 1, 0, 1, 1, 0, 0, 1, 1, 0, 1, 0] := by decide +kernel
theorem test_jcc_rel32_S2 : takenRel32 [.SF] = ports 0x1016 0x1006
    [0, 1, 0, 1, 0, 1, 0, 1, 1, 0, 0, 1, 1, 0, 1, 0] := by decide +kernel
theorem test_jcc_rel8_S3 : takenRel8 [.SF, .OF, .PF] = ports 0x1012 0x1002
    [1, 0, 0, 1, 0, 1, 0, 1, 1, 0, 1, 0, 0, 1, 0, 1] := by decide +kernel
theorem test_jcc_rel32_S3 : takenRel32 [.SF, .OF, .PF] = ports 0x1016 0x1006
    [1, 0, 0, 1, 0, 1, 0, 1, 1, 0, 1, 0, 0, 1, 0, 1] := by decide +kernel

/-- Vector c10. -/
theorem test_jmp_rel8 : portAfter (box [0xEB, 0xFE] [] []) = some (.redirected 0x1000) := by decide +kernel

/-- Vector c5. -/
theorem test_jmp_rel32 : portAfter (box [0xE9, 0xFB, 0xFF, 0xFF, 0xFF] [] []) = some (.redirected 0x1000) := by
  decide +kernel

/-- Vector c1. -/
theorem test_call :
    let s := box [0xE8, 0x00, 0x00, 0x00, 0x00] [(4, 0x2800)] []
    regAfter s 4 = some (0x1005, 1, 0x27F8) ∧ bytesAfter s 0x27F8 8 = some [0x05, 0x10, 0, 0, 0, 0, 0, 0] := by
  decide +kernel

/-- Vector c2: the push fails and rsp keeps its value. -/
theorem test_call_fails :
    let s := box [0xE8, 0x00, 0x00, 0x00, 0x00] [(4, 0x2000)] []
    regAfter s 4 = some (0x1000, 0, 0x2000) ∧ portAfter s =
      some (.trapped ⟨.segmentationViolation, ⟨0x1FF8, some .write, 0x1000, [0xE8, 0, 0, 0, 0]⟩⟩) := by decide +kernel

/-- Vector c3. -/
theorem test_ret :
    regAfter (box [0xC3] [(4, 0x2FF8)] [(0x2FF8, [0x00, 0x50, 0, 0, 0, 0, 0, 0])]) 4 = some (0x5000, 1, 0x3000) := by
  decide +kernel

/-- Vector c4: the value lies half outside the region. -/
theorem test_ret_fails :
    portAfter (box [0xC3] [(4, 0x2FFC)] []) =
      some (.trapped ⟨.segmentationViolation, ⟨0x3000, some .read, 0x1000, [0xC3]⟩⟩) := by decide +kernel

/-- Vector s3: the request's registers. -/
theorem test_syscall_request :
    let s := box [0x0F, 0x05] [(0, 0x27), (10, 9), (8, 8), (9, 10)] []
    syscallRequest s = ⟨0x27, 0, 0, 0, 9, 8, 10, 0x1000, 2⟩ := by decide +kernel

/-- Vectors s1 and s2: what SYSCALL does with a return and with an exit. -/
theorem test_syscall_answers :
    let s := box [0x0F, 0x05] [(0, 1), (7, 1), (6, 0x2000), (2, 5)] []
    let r := syscallWith ⟨.ret 5, []⟩ 0xAA 0xBB s
    let e := syscallWith ⟨.exitProcess 7, []⟩ 0xAA 0xBB s
    (r.x 0, r.x 1, r.x 11, r.port) = (5, 0xAA, 0xBB, .continued 0x1002) ∧
    (e.x 0, e.x 1, e.cpu.pc, e.cpu.icount, e.port) = (1, 0, 0x1000, 1, .exited 7) := by
  decide +kernel

/-- The packed flags word: CF, SF and OF stand at bits 0, 7 and 11 (R31). -/
theorem test_flags_pack : ({ Flags.clear with CF := true, SF := true, OF := true } : Flags).pack = 0x881 := by decide

/-- A stopped thread takes no step, and the host's redirection lets it run (R238). -/
theorem test_redirect_after_trap :
    ((after (step (box [0x8D, 0xC0, 0xC3] [(4, 0x2000)] []))).map fun t =>
      ((after (step t)).isSome, portAfter ((HostAction.redirect 0x1002).apply t))) =
      some (false, some (.redirected 0)) := by decide +kernel

/-- Prefixes that R112's table refuses, and forms that admit them. -/
theorem test_decode_prefix_applicability :
    (∀ bs ∈ ([[0x66, 0xB0, 0x05], [0x67, 0xB8, 1, 0, 0, 0], [0x65, 0xB8, 1, 0, 0, 0], [0x64, 0x8D, 0x00],
        [0x67, 0x89, 0xC0], [0x64, 0x81, 0xC0, 1, 0, 0, 0], [0x66, 0x80, 0x00, 0x05], [0x66, 0x8A, 0xC0],
        [0x40, 0xEB, 0x00], [0x66, 0x0F, 0x05]] : List (List Byte)),
      decode bs = .refused .prefixNotApplicable) ∧
    ∀ bs ∈ ([[0x41, 0xB0, 0x05], [0x66, 0xB8, 1, 0], [0x67, 0x8D, 0x00], [0x66, 0x89, 0xC0], [0x64, 0x67, 0x89, 0x00],
        [0x65, 0x80, 0x00, 0x05]] : List (List Byte)),
      (instrOf bs).isSome = true := by decide +kernel

/-- A refused run and an exited one keep their end state, whatever the host would do (R234, R242, R243). -/
theorem test_ended_run_keeps_its_state :
    let acts := [HostAction.redirect 0x2000, .swap State.reset.cpu, .memory (.unmap 0x2000 16)]
    turn (box [0x90] [] []) acts = (box [0x90] [] []).markRefused (.decoder .opcodeNotAdmitted) ∧
    turn (State.reset.exitWith 7) acts = State.reset.exitWith 7 := by decide +kernel

/-- The codes of R231's two tables. -/
theorem test_trap_and_access_codes :
    ([TrapKind.illegalInstruction, .segmentationViolation, .alignmentOrEncodingAssertion, .processExit,
      .recoverableFault].map TrapKind.code, [Access.read, .write, .execute].map Access.code) =
    ([1, 2, 3, 4, 5], [0, 1, 2]) := by decide

/-! ## Witnesses: concrete inputs that meet the hypotheses of each statement -/

theorem next_of {r : StepResult} {P : State → Bool} (h : (after r).any P = true) : ∃ t, r = .next t ∧ P t = true := by
  cases r with
  | next t => exact ⟨t, rfl, h⟩
  | fault f => exact absurd h (by simp [after])
  | refused e => exact absurd h (by simp [after])

theorem refused_of {r : StepResult} {e : Refusal} (h : refusal r = some e) : r = .refused e := by
  cases r with
  | next t => exact absurd h (by simp [refusal])
  | fault f => exact absurd h (by simp [refusal])
  | refused e' => exact congrArg _ (Option.some.inj h)

theorem codeIs_of {s : State} {bs : List Byte}
    (h : ∀ k < bs.length, s.mem.executable (s.cpu.pc + BitVec.ofNat 64 k) = true ∧
      some (s.mem.byte (s.cpu.pc + BitVec.ofNat 64 k)) = bs[k]?) : s.codeIs bs := by
  intro k b hb
  obtain ⟨hk, -⟩ := List.getElem?_eq_some_iff.mp hb
  have := h k hk
  rw [hb] at this
  exact ⟨this.1, Option.some.inj this.2⟩

theorem vecCanonical_of_zero {c : CpuState} (h : c.vreg = Vector.replicate 32 0) : vecCanonical c := by
  intro j
  rw [h]
  simp

/-- A 4-byte data state: rax points at `78 56 34 12`, rsp at a stack slot that holds 0x5000. -/
def ready (code : List Byte) : State :=
  box code [(0, 0x2000), (4, 0x2800)] [(0x2000, [0x78, 0x56, 0x34, 0x12]), (0x2800, [0x00, 0x50])]

/-- The hypotheses of the memory statements, at one address and width. -/
def Passes (s : State) (a : Word) (k : OSize) (v : BitVec k.bits) : Prop :=
  s.mem.wf ∧ s.canRead a k ∧ s.canWrite a k ∧ s.holdsAt a k v

theorem ready_wf : (ready []).mem.wf := by decide +kernel

theorem ready_passes8 : Passes (ready []) 0x2000 .o8 (0x78 : BitVec 8) := by
  unfold Passes State.canRead State.canWrite State.alignOk State.holdsAt
  exact ⟨ready_wf, by decide +kernel, by decide +kernel, by decide +kernel⟩

theorem ready_passes32 : Passes (ready []) 0x2000 .o32 (0x12345678 : BitVec 32) := by
  unfold Passes State.canRead State.canWrite State.alignOk State.holdsAt
  exact ⟨ready_wf, by decide +kernel, by decide +kernel, by decide +kernel⟩

theorem ready_passes64 : Passes (ready []) 0x2800 .o64 (0x5000 : BitVec 64) := by
  unfold Passes State.canRead State.canWrite State.alignOk State.holdsAt
  exact ⟨ready_wf, by decide +kernel, by decide +kernel, by decide +kernel⟩

/-- The memory form `[rax]`. -/
def atRax : MemForm := .base 0 .none

theorem memAddr_atRax (i : Instr) : memAddr i (ready []) p0 atRax = 0x2000 := by
  have h : segBase (ready []) none + off64 (ready []) (memOperand p0 atRax) = 0x2000 := by decide +kernel
  exact h

theorem witness_DecodeOfEncodeIsTheInstruction :
    (Instr.movRImm (rexP true false false true) 7 (.i64 0x8000000000000000)).wf = true ∧
    (Instr.addRmImm ⟨[.opsize, .addrsize, .segFS], some ⟨true, true, true, true⟩⟩
      (.mem (.sib 3 7 7 (.d32 0x80000000))) (.i32 0xFFFFFFFF)).wf = true ∧
    Instr.syscall.wf = true := by decide

theorem witness_DecoderConsumesExactlyItsEncoding :
    decode [0x31, 0xC0, 0x90] = .ok ((Instr.xorRmR p0 (.reg 0) 0).latch, .xorRmR p0 (.reg 0) 0) [0x90] := by
  decide +kernel

theorem witness_InstructionLengthBounds :
    15 ≤ (List.replicate 15 (0x48 : Byte)).length ∧
    (let i := Instr.addRmImm ⟨[.opsize, .addrsize, .segFS], some ⟨true, false, false, false⟩⟩
      (.mem (.sib 0 4 4 (.d32 0))) (.i32 0)
     i.wf = true ∧ Config.MAXLEN < i.size) := by decide

theorem witness_LaterBytesChangeNoVerdict :
    decode [0xC3] = .ok (Instr.ret.latch, .ret) [] ∧ decode [0x48, 0x48] = .illegal [] ∧
    decode [0x90] = .refused .opcodeNotAdmitted := by decide +kernel

theorem witness_OpcodeKeySelectsOneRow :
    opcodeTable[0]? = some ⟨0x008000, 0xFFFF38⟩ ∧ opcodeTable[75]? = some ⟨0x0F0500, 0xFFFF00⟩ := by decide

theorem witness_IllegalEncodingsAreExactlyThree :
    decode [0x48, 0x4F, 0x01] = .illegal [0x01] ∧ decode [0x66, 0x66] = .illegal [] ∧ decode [0x48, 0x66] = .illegal [] ∧
    decode [0x8D, 0xC0] = .illegal [] ∧ decode [0x8D, 0xFF, 0x00] = .illegal [0x00] ∧
    decode [0x64, 0x8D, 0xC0] = .illegal [] ∧ (⟨[.segFS], none⟩ : Pfx).wf = true ∧
    (rexP true false false false).wf = true ∧ modOf 0xC0 = 3 ∧ modOf 0xFF = 3 := by decide +kernel

theorem witness_PrefixBytesRefused :
    (p0.wf = true ∧ p0.rex = none ∧ (0xF0 : Byte) ∈ ([0xF0, 0xF2, 0xF3, 0x26, 0x2E, 0x36, 0x3E] : List Byte)) ∧
    ((⟨[.addrsize], none⟩ : Pfx).wf = true ∧ (⟨[.addrsize], none⟩ : Pfx).adsz32 = true) ∧
    ((⟨[.segGS], none⟩ : Pfx).wf = true ∧ (⟨[.segGS], none⟩ : Pfx).seg ≠ none) ∧
    ((rexP false false false false).wf = true ∧ (rexP false false false false).rexPresent = true ∧
      (0x3E : Byte) ∈ ([0x67, 0x64, 0x65, 0xF0, 0xF2, 0xF3, 0x26, 0x2E, 0x36, 0x3E] : List Byte)) := by decide

/-- Bytes just outside each range of the opcode maps. -/
theorem witness_OpcodesOutsideTheMapsRefused :
    (∀ b ∈ ([0x00, 0x2F, 0x34, 0x3F, 0x50, 0x6F, 0x82, 0x84, 0x87, 0x8C, 0x8E, 0xAF, 0xC0, 0xEA, 0xFD] : List Byte),
      b ∉ ([0x0F, 0x26, 0x2E, 0x36, 0x3E, 0x64, 0x65, 0x66, 0x67, 0xF0, 0xF2, 0xF3] : List Byte) ∧
      ¬ (0x30 ≤ b ∧ b ≤ 0x33) ∧ ¬ (0x40 ≤ b ∧ b ≤ 0x4F) ∧ ¬ (0x70 ≤ b ∧ b ≤ 0x7F) ∧
      ¬ (0x88 ≤ b ∧ b ≤ 0x8B) ∧ ¬ (0xB0 ≤ b ∧ b ≤ 0xBF) ∧
      b ∉ ([0x80, 0x81, 0x83, 0x8D, 0xC3, 0xC6, 0xC7, 0xE8, 0xE9, 0xEB, 0xFE, 0xFF] : List Byte)) ∧
    (∀ b ∈ ([0x04, 0x06, 0x7F, 0x90] : List Byte), b ≠ 0x05 ∧ ¬ (0x80 ≤ b ∧ b ≤ 0x8F)) ∧
    regOf 0x08 ≠ 0 ∧ regOf 0xFF ≠ 0 ∧ p0.wf = true ∧ (⟨[.opsize], none⟩ : Pfx).wf = true ∧
    decode [0x66, 0xFE, 0xC8] = .refused .groupMemberNotAdmitted := by decide +kernel

/-- For each row of R112's table, admitted prefixes that it allows and that it does not, at the ends of its opcodes. -/
theorem witness_PrefixApplicabilityFollowsTheTable :
    (∀ p ∈ [p0, ⟨[.opsize], none⟩, ⟨[.addrsize], none⟩, ⟨[.segFS], none⟩, ⟨[.segGS], none⟩,
      rexP false false false false], p.wf = true) ∧
    ((⟨[.addrsize], none⟩ : Pfx).namesMemory ∧ (⟨[.segFS], none⟩ : Pfx).namesMemory ∧
      (⟨[.segGS], none⟩ : Pfx).namesMemory ∧ ¬ (⟨[.opsize], none⟩ : Pfx).namesMemory ∧ ¬ p0.namesMemory) ∧
    ((⟨[.opsize], none⟩ : Pfx).opsz16 = true ∧ (⟨[.segGS], none⟩ : Pfx).seg ≠ none ∧ p0.seg = none ∧
      (⟨[.opsize], none⟩ : Pfx).legacy ≠ [] ∧ (rexP false false false false).legacy = [] ∧
      rexP false false false false ≠ .none) ∧
    (regOf 0xC0 = 0 ∧ modOf 0xC0 = 3 ∧ modOf 0xFF = 3 ∧ regOf 0x00 = 0 ∧ modOf 0xBF ≠ 3) ∧
    ((0x81 : Byte) ∈ ([0x81, 0x83, 0xC7, 0xFF, 0x31, 0x33, 0x89, 0x8B] : List Byte) ∧
      (0x8A : Byte) ∈ ([0x80, 0xC6, 0xFE, 0x30, 0x32, 0x88, 0x8A] : List Byte) ∧
      (0xC3 : Byte) ∈ ([0xC3, 0xE8, 0xE9, 0xEB] : List Byte)) ∧
    (∀ b ∈ ([0xB0, 0xB7] : List Byte), 0xB0 ≤ b ∧ b ≤ 0xB7) ∧ (∀ b ∈ ([0xB8, 0xBF] : List Byte), 0xB8 ≤ b ∧ b ≤ 0xBF) ∧
    (∀ b ∈ ([0x70, 0x7F] : List Byte), 0x70 ≤ b ∧ b ≤ 0x7F) ∧
    ∀ b ∈ ([0x80, 0x8F] : List Byte), 0x80 ≤ b ∧ b ≤ 0x8F := by
  unfold Pfx.namesMemory
  decide

theorem witness_StepRunsTheDecodedInstruction :
    let s := box [0x31, 0xC0] [] []
    s.stopped = none ∧ (Instr.xorRmR p0 (.reg 0) 0).wf = true ∧ s.codeIs (encode (.xorRmR p0 (.reg 0) 0)) :=
  ⟨rfl, by decide, codeIs_of (by decide +kernel)⟩

theorem witness_FetchFaultTrapsAtTheExactByte :
    (State.reset.stopped = none ∧ State.reset.codeIs [] ∧ decode [] = .more ∧
      State.reset.mem.executable (State.reset.cpu.pc + BitVec.ofNat 64 0) = false) ∧
    (let s := (HostAction.redirect 0x10FF).apply (box (List.replicate 255 0 ++ [0x83]) [] [])
     s.stopped = none ∧ s.codeIs [0x83] ∧ decode [0x83] = .more ∧
      s.mem.executable (s.cpu.pc + BitVec.ofNat 64 1) = false) :=
  ⟨⟨rfl, codeIs_of (by decide), by decide, by decide +kernel⟩,
    ⟨rfl, codeIs_of (by decide +kernel), by decide +kernel, by decide +kernel⟩⟩

theorem witness_IllegalInstructionTraps :
    (let s := box [0x8D, 0xC0] [] []
     s.stopped = none ∧ s.codeIs [0x8D, 0xC0] ∧ decode [0x8D, 0xC0] = .illegal []) ∧
    (let s := box [0x48, 0x48] [] []
     s.stopped = none ∧ s.codeIs [0x48, 0x48] ∧ decode [0x48, 0x48] = .illegal []) :=
  ⟨⟨rfl, codeIs_of (by decide +kernel), by decide +kernel⟩, ⟨rfl, codeIs_of (by decide +kernel), by decide +kernel⟩⟩

theorem witness_RefusedBytesRefuseTheStep :
    let s := box [0x90] [] []
    s.stopped = none ∧ s.codeIs [0x90] ∧ decode [0x90] = .refused .opcodeNotAdmitted :=
  ⟨rfl, codeIs_of (by decide +kernel), by decide +kernel⟩

theorem witness_StoppedThreadsTakeNoStep :
    (State.reset.markRefused .selfModifyingCode).refusalMark = some .selfModifyingCode ∧
    ((State.reset.exitWith 7).refusalMark = none ∧ (State.reset.exitWith 7).port = .exited 7) ∧
    (State.reset.takeTrap .illegalInstruction ⟨0, none, 0, []⟩).refusalMark = none ∧
    (State.reset.takeTrap .illegalInstruction ⟨0, none, 0, []⟩).port =
      .trapped ⟨.illegalInstruction, ⟨0, none, 0, []⟩⟩ ∧
    (let s := box [0x90] [] []
     (settle s (step s)).refusalMark = some (.decoder .opcodeNotAdmitted)) ∧
    (let s := State.reset.exitWith 7
     (settle s (step s)).port = .exited 7) := by decide +kernel

theorem box_inv : (box [0x31, 0xC0] [] []).Inv := ⟨by decide +kernel, vecCanonical_of_zero (by decide +kernel)⟩

theorem witness_StepKeepsTheInvariant :
    (box [0x31, 0xC0] [] []).Inv ∧ ∃ t, step (box [0x31, 0xC0] [] []) = .next t ∧ t.isTrapped.not = true :=
  ⟨box_inv, next_of (by decide +kernel)⟩

theorem witness_EveryRunKeepsTheInvariant :
    ({ Launch.blank with mem := (box [0x31, 0xC0] [] []).mem } : Launch).ok ∧
    (∀ acts ∈ [[HostAction.redirect 0x1000], [.swap State.reset.cpu, .memory (.unmap 0x2000 16)]], ∀ a ∈ acts, a.ok) := by
  refine ⟨⟨by decide +kernel, vecCanonical_of_zero (by decide +kernel)⟩, ?_⟩
  have h : vecCanonical State.reset.cpu := vecCanonical_of_zero (by decide +kernel)
  intro acts ha a hm
  simp only [List.mem_cons, List.not_mem_nil, or_false] at ha
  rcases ha with rfl | rfl <;> simp only [List.mem_cons, List.not_mem_nil, or_false] at hm
  · subst hm; trivial
  · rcases hm with rfl | rfl
    · exact h
    · trivial

/-- A step that traps and a step that goes on. -/
theorem witness_TrapLeavesTheStateUnchanged :
    (∃ t, step (box [0x8D, 0xC0] [] []) = .next t ∧ t.isTrapped = true) ∧
    ∃ t, step (box [0x31, 0xC0] [] []) = .next t ∧ t.isTrapped.not = true :=
  ⟨next_of (by decide +kernel), next_of (by decide +kernel)⟩

theorem witness_InstructionCounterCountsCompletions :
    ∃ t, step (box [0xEB, 0xFE] [] []) = .next t ∧ (t.cpu.icount == 1) = true := next_of (by decide +kernel)

theorem witness_OutcomePortTellsWherePcIs :
    (∃ t, step (box [0xEB, 0xFE] [] []) = .next t ∧ (t.port == .redirected 0x1000) = true) ∧
    (∃ t, step (box [0x31, 0xC0] [] []) = .next t ∧ (t.port == .continued 0x1002) = true) ∧
    (∃ t, step (box [0x8D, 0xC0] [] []) = .next t ∧
      (t.port == .trapped ⟨.illegalInstruction, ⟨0x1000, none, 0x1000, [0x8D, 0xC0]⟩⟩) = true) ∧
    ∃ t, step (box [0xC3] [(4, 0x5000)] []) = .next t ∧
      (t.port == .trapped ⟨.segmentationViolation, ⟨0x5000, some .read, 0x1000, [0xC3]⟩⟩) = true :=
  ⟨next_of (by decide +kernel), next_of (by decide +kernel), next_of (by decide +kernel), next_of (by decide +kernel)⟩

theorem witness_ExecStopsOnlyForTheTwoDataRefusals :
    exec (.movRmR p0 (.mem atRax) 1) (withFlags (box [] [(0, 0x2001)] []) [.AC]) =
      .refused .alignmentCheckUnmodelled ∧
    exec (.movRmR p0 (.mem atRax) 1) (box [] [(0, 0x2000)] [] (dataProt := ⟨true, true, true⟩)) =
      .refused .selfModifyingCode := ⟨refused_of (by decide +kernel), refused_of (by decide +kernel)⟩

theorem witness_RegistersOutsideTheDestinationsUnchanged :
    ∃ t, exec (.addRm8Imm8 p0 (.reg 5) 1) (ready []) = .next t ∧ (t.x 1 == 0x100) = true := next_of (by decide +kernel)

theorem witness_FlagsOutsideTheWrittenOnesUnchanged :
    ∃ t, exec (.incRm p0 (.reg 1)) (withFlags (ready []) [.CF, .DF]) = .next t ∧ (t.cpu.flags.CF && t.cpu.flags.DF) = true :=
  next_of (by decide +kernel)

theorem witness_BytesOutsideTheStoreUnchanged :
    ∃ t, exec (.movRmR p0 (.mem atRax) 4) (ready []) = .next t ∧ (t.mem.byteAt 0x2004 == some 0) = true :=
  next_of (by decide +kernel)

theorem witness_SegmentBasesVectorsAndRegionsUnchanged :
    ∃ t, exec .ret (ready []) = .next t ∧ (t.mem.regions.length == 2) = true := next_of (by decide +kernel)

theorem witness_ExecutableBytesNeverChange :
    (∃ t, exec (.callRel32 0) (ready []) = .next t ∧ (t.mem.executable 0x10FF) = true) ∧
    (ready []).mem.executable 0x10FF = true := ⟨next_of (by decide +kernel), by decide +kernel⟩

/-- The premise holds of a read-modify-write, of CALL and of RET; the forms without an access meet it on every state. -/
theorem witness_EveryInstructionCompletesWhenItsAccessPasses :
    ∀ i ∈ [Instr.addRm8Imm8 p0 (.mem atRax) 1, .callRel32 0, .ret],
      ∃ a, memAccess i (ready []) = some a ∧ (ready []).canRead a.addr a.size ∧ (ready []).canWrite a.addr a.size := by
  intro i hi
  simp only [List.mem_cons, List.not_mem_nil, or_false] at hi
  rcases hi with rfl | rfl | rfl
  · exact ⟨⟨0x2000, .o8, true, true⟩, by decide +kernel, by
      unfold State.canRead State.canWrite State.alignOk; decide +kernel⟩
  · exact ⟨⟨0x27F8, .o64, false, true⟩, by decide +kernel, by
      unfold State.canRead State.canWrite State.alignOk; decide +kernel⟩
  · exact ⟨⟨0x2800, .o64, true, false⟩, by decide +kernel, by
      unfold State.canRead State.canWrite State.alignOk; decide +kernel⟩

theorem witness_EveryInstructionCompletesWithoutAnAccess :
    (∀ op ∈ [AluOp.add, .or, .adc, .sbb, .and, .sub, .xor, .cmp],
      memAccess (instr80 op p0 (.reg 1) 1) State.reset = none ∧
      memAccess (instr81 op p0 (.reg 1) (.i32 1)) State.reset = none ∧
      memAccess (instr83 op p0 (.reg 1) 1) State.reset = none) ∧
    (∀ i ∈ [Instr.xorRm8R8 p0 (.reg 0) 1, .xorRmR p0 (.reg 0) 1, .xorR8Rm8 p0 0 (.reg 1), .xorRRm p0 0 (.reg 1),
      .incRm8 p0 (.reg 0), .incRm p0 (.reg 0), .movRm8R8 p0 (.reg 0) 1, .movRmR p0 (.reg 0) 1,
      .movR8Rm8 p0 0 (.reg 1), .movRRm p0 0 (.reg 1), .movR8Imm8 p0 0 1, .movRImm p0 0 (.i32 1),
      .movRm8Imm8 p0 (.reg 0) 1, .movRmImm p0 (.reg 0) (.i32 1), .leaRM p0 0 atRax, .jmpRel8 0, .jmpRel32 0, .syscall],
      memAccess i State.reset = none) ∧
    ∀ c : Cond, memAccess (instrJcc8 c 0) State.reset = none ∧ memAccess (instrJcc32 c 0) State.reset = none := by
  refine ⟨by decide +kernel, by decide +kernel, fun c => ?_⟩
  cases c <;> exact ⟨rfl, rfl⟩

/-- RET with its first, its fifth and its last byte outside the data region. -/
theorem witness_FailedReadTraps :
    ∀ c ∈ [((0x5000 : Word), 0), (0x2FFC, 4), (0x2FF9, 7)],
      let s := box [] [(4, c.1)] []
      memAccess .ret s = some ⟨c.1, .o64, true, false⟩ ∧ s.alignOk c.1 .o64 ∧ c.2 < OSize.o64.bytes ∧
      (∀ j < c.2, s.mem.readable (c.1 + BitVec.ofNat 64 j) = true) ∧
      s.mem.readable (c.1 + BitVec.ofNat 64 c.2) = false := by
  unfold State.alignOk
  decide +kernel

/-- CALL with its first and its last byte in no region, and an ADD to read-only data. -/
theorem witness_FailedWriteTraps :
    (∀ c ∈ [((0x5000 : Word), 0), (0x2FF9, 7)],
      let s := box [] [(4, c.1 + 8)] []
      memAccess (.callRel32 0) s = some ⟨c.1, .o64, false, true⟩ ∧ s.alignOk c.1 .o64 ∧ c.2 < OSize.o64.bytes ∧
      (∀ j < c.2, s.mem.writable (c.1 + BitVec.ofNat 64 j) = true) ∧
      s.mem.writable (c.1 + BitVec.ofNat 64 c.2) = false) ∧
    (let s := box [] [(0, 0x2000)] [] (dataProt := ⟨true, false, false⟩)
     memAccess (.addRm8Imm8 p0 (.mem atRax) 1) s = some ⟨0x2000, .o8, true, true⟩ ∧ s.canRead 0x2000 .o8 ∧
      s.mem.writable (0x2000 + BitVec.ofNat 64 0) = false) := by
  unfold State.canRead State.alignOk
  decide +kernel

theorem witness_MisalignedAccessUnderACRefused :
    let s := withFlags (box [] [(4, 0x2001)] []) [.AC]
    memAccess .ret s = some ⟨0x2001, .o64, true, false⟩ ∧ s.cpu.flags.AC = true ∧
    (0x2001 : Word).toNat % OSize.o64.bytes ≠ 0 ∧ (0x2007 : Word).toNat % OSize.o64.bytes ≠ 0 :=
  ⟨by decide +kernel, by decide +kernel, by decide, by decide⟩

theorem witness_StoreIntoCodeRefused :
    let s := box [] [(0, 0x2000)] [] (dataProt := ⟨true, true, true⟩)
    memAccess (.addRmImm8 p0 (.mem atRax) 1) s = some ⟨0x2000, .o32, true, true⟩ ∧ s.canRead 0x2000 .o32 ∧
    (∀ j < OSize.o32.bytes, s.mem.writable (0x2000 + BitVec.ofNat 64 j) = true) ∧
    s.mem.executable (0x2000 + BitVec.ofNat 64 0) = true ∧ s.mem.executable (0x2000 + BitVec.ofNat 64 3) = true := by
  unfold State.canRead State.alignOk
  decide +kernel

theorem witness_AluImmediateToRegister : AluOp.add ≠ .cmp ∧ AluOp.xor ≠ .cmp := by decide

theorem witness_AluImmediateToMemory :
    AluOp.sbb ≠ .cmp ∧
    Passes (ready []) (memAddr (instr80 .sbb p0 (.mem atRax) 1) (ready []) p0 atRax) .o8 (0x78 : BitVec 8) ∧
    Passes (ready []) (memAddr (instr81 .sbb p0 (.mem atRax) (.i32 1)) (ready []) p0 atRax) p0.osz
      (0x12345678 : BitVec 32) := by
  rw [memAddr_atRax, memAddr_atRax]
  exact ⟨by decide, ready_passes8, ready_passes32⟩

theorem witness_CompareSetsFlagsOnly :
    let i := Instr.cmpRmImm8 p0 (.mem atRax) 1
    (ready []).canRead (memAddr i (ready []) p0 atRax) p0.osz ∧
    (ready []).holdsAt (memAddr i (ready []) p0 atRax) p0.osz (0x12345678 : BitVec 32) := by
  obtain ⟨-, hr, -, hv⟩ := ready_passes32
  simp only [memAddr_atRax]
  exact ⟨hr, hv⟩

theorem witness_XorOfRegisters : rmView p0 p0.osz 3 = regFieldView p0 p0.osz 3 := by decide

theorem witness_XorWithMemory :
    Passes (ready []) (memAddr (.xorRm8R8 p0 (.mem atRax) 1) (ready []) p0 atRax) .o8 (0x78 : BitVec 8) ∧
    Passes (ready []) (memAddr (.xorRRm p0 1 (.mem atRax)) (ready []) p0 atRax) p0.osz (0x12345678 : BitVec 32) := by
  rw [memAddr_atRax, memAddr_atRax]
  exact ⟨ready_passes8, ready_passes32⟩

theorem witness_IncrementKeepsCarry :
    Passes (ready []) (memAddr (.incRm8 p0 (.mem atRax)) (ready []) p0 atRax) .o8 (0x78 : BitVec 8) ∧
    Passes (ready []) (memAddr (.incRm p0 (.mem atRax)) (ready []) p0 atRax) p0.osz (0x12345678 : BitVec 32) := by
  rw [memAddr_atRax, memAddr_atRax]
  exact ⟨ready_passes8, ready_passes32⟩

theorem witness_MovImmediateToRegister :
    (⟨[.opsize], none⟩ : Pfx).osz = .o16 ∧ p0.osz = .o32 ∧ (rexP true false false false).osz = .o64 ∧
    (⟨[.opsize], some ⟨true, false, false, false⟩⟩ : Pfx).osz = .o64 := by decide

theorem witness_MovToMemory :
    let i := Instr.movRmR p0 (.mem atRax) 1
    (ready []).mem.wf ∧ (ready []).canWrite (memAddr i (ready []) p0 atRax) p0.osz := by
  obtain ⟨hw, -, hc, -⟩ := ready_passes32
  simp only [memAddr_atRax]
  exact ⟨hw, hc⟩

theorem witness_MovFromMemory :
    let i := Instr.movR8Rm8 p0 1 (.mem atRax)
    (ready []).canRead (memAddr i (ready []) p0 atRax) .o8 ∧
    (ready []).holdsAt (memAddr i (ready []) p0 atRax) .o8 (0x78 : BitVec 8) := by
  obtain ⟨-, hr, -, hv⟩ := ready_passes8
  simp only [memAddr_atRax]
  exact ⟨hr, hv⟩

/-- A memory operand of each kind, with the highest base and the largest scale. -/
theorem witness_EffectiveAddressArithmetic :
    (⟨some .FS, some 15, some 3, 3, 0xFFFFFFFFFFFFFFFF, false, false⟩ : MemOperand).ripRel = false ∧
    (⟨some .GS, some 15, none, 0, 0, false, true⟩ : MemOperand).asz32 = true ∧
    (⟨none, none, none, 0, 0x10, true, true⟩ : MemOperand).ripRel = true ∧
    (⟨none, none, none, 0, 0x10, true, false⟩ : MemOperand).seg = none ∧
    (⟨[.segGS, .addrsize], some ⟨false, false, true, true⟩⟩ : Pfx).wf = true ∧
    8 * (rexP false false false true).bits.x.toNat + (4 : BitVec 3).toNat = 4 ∧
    8 * (rexP false false true false).bits.x.toNat + (4 : BitVec 3).toNat = 12 := by decide

/-- Every condition holds of some flags and fails of some. -/
theorem witness_ConditionalJumpFollowsItsPredicate :
    ∀ c : Cond, (∃ f : Flags, CondTrue c f) ∧ ∃ f : Flags, ¬ CondTrue c f := by
  intro c
  cases c <;> unfold CondTrue <;> constructor <;>
    first
      | exact ⟨.clear, by decide⟩
      | exact ⟨{ Flags.clear with OF := true, CF := true, ZF := true, PF := true }, by decide⟩
      | exact ⟨{ Flags.clear with SF := true }, by decide⟩

theorem witness_CallPushesTheReturnAddress :
    (ready []).mem.wf ∧ (ready []).canWrite ((ready []).x rsp - 8) .o64 := by
  unfold State.canWrite State.alignOk
  decide +kernel

theorem witness_RetPopsItsTarget :
    (ready []).x rsp = 0x2800 ∧ (ready []).canRead 0x2800 .o64 ∧ (ready []).holdsAt 0x2800 .o64 (0x5000 : BitVec 64) := by
  obtain ⟨-, hr, -, hv⟩ := ready_passes64
  exact ⟨by decide +kernel, hr, hv⟩

theorem witness_RegisterViewRules : (63 : Nat) < 64 ∧ (15 : RegNum) ≠ 4 := by decide

theorem witness_RegisterSelection :
    (rexP false false false false).rex = some (Rex.ofByte 0x40) ∧ isRexByte 0x40 = true ∧ isRexByte 0x4F = true ∧
    p0.rex = none ∧ (p0.bits.w = false ∧ .opsize ∉ p0.legacy) ∧
    (let p : Pfx := ⟨[.segFS, .opsize], none⟩
     p.bits.w = false ∧ .opsize ∈ p.legacy) ∧
    (⟨[.opsize], some ⟨true, false, false, false⟩⟩ : Pfx).bits.w = true := by decide

/-- The last 8 bytes of the data region. -/
theorem witness_ReadAfterWrite :
    (ready []).mem.wf ∧
    (((ready []).memWrite 0x2FF8 .o64 (0x8877665544332211 : BitVec 64)).toOption.any fun t =>
      t.mem.byte 0x2FFF == 0x88) = true := by decide +kernel

theorem witness_ReadAssemblesLittleEndian :
    (ready []).canRead 0x2000 .o32 ∧ (ready []).holdsAt 0x2000 .o32 (0x12345678 : BitVec 32) := by
  obtain ⟨-, hr, -, hv⟩ := ready_passes32
  exact ⟨hr, hv⟩

/-- The same bytes written in two orders, with a byte written and cleared on the way. -/
theorem witness_CanonicalMemoriesAreEqual :
    let m := ((ready []).mem.setByte 0x2001 9).setByte 0x2002 7
    let n := (((ready []).mem.setByte 0x2002 7).setByte 0x2008 1).setByte 0x2008 0 |>.setByte 0x2001 9
    m.wf ∧ n.wf ∧ m.regions = n.regions ∧ m = n := by decide +kernel

/-- Register 15 and 128 bits exist whatever NVEC and VLEN are. -/
theorem witness_VectorViewsShareOneStorage : vecViewExists 15 .v128 = true ∧ VecLen.v128.bits ≤ VecLen.v128.bits := by
  refine ⟨?_, Nat.le_refl _⟩
  unfold vecViewExists Config.NVEC
  cases Config.VLEN <;> simp [VecLen.bits] <;> omega

theorem witness_RegionOperationsChangeOnlyTheirRange : (ready []).mem.wf := by decide +kernel

end Sys2Proof.Tests
end

/-! # Instructions by family -/

section
namespace Sys2Proof

/-- Case split by row family: the eight operations of a group (R97) and the sixteen conditions (R193) are one case
each. -/
theorem Instr.familyCases {motive : Instr → Prop}
    (alu80 : ∀ op p d imm, motive (instr80 op p d imm)) (alu81 : ∀ op p d imm, motive (instr81 op p d imm))
    (alu83 : ∀ op p d imm, motive (instr83 op p d imm))
    (xorRm8R8 : ∀ p d r, motive (.xorRm8R8 p d r)) (xorRmR : ∀ p d r, motive (.xorRmR p d r))
    (xorR8Rm8 : ∀ p r m, motive (.xorR8Rm8 p r m)) (xorRRm : ∀ p r m, motive (.xorRRm p r m))
    (incRm8 : ∀ p d, motive (.incRm8 p d)) (incRm : ∀ p d, motive (.incRm p d))
    (movRm8R8 : ∀ p d r, motive (.movRm8R8 p d r)) (movRmR : ∀ p d r, motive (.movRmR p d r))
    (movR8Rm8 : ∀ p r m, motive (.movR8Rm8 p r m)) (movRRm : ∀ p r m, motive (.movRRm p r m))
    (movR8Imm8 : ∀ p r imm, motive (.movR8Imm8 p r imm)) (movRImm : ∀ p r imm, motive (.movRImm p r imm))
    (movRm8Imm8 : ∀ p d imm, motive (.movRm8Imm8 p d imm)) (movRmImm : ∀ p d imm, motive (.movRmImm p d imm))
    (leaRM : ∀ p r m, motive (.leaRM p r m)) (jmpRel8 : ∀ rel, motive (.jmpRel8 rel))
    (jmpRel32 : ∀ rel, motive (.jmpRel32 rel))
    (jcc8 : ∀ c rel, motive (instrJcc8 c rel)) (jcc32 : ∀ c rel, motive (instrJcc32 c rel))
    (callRel32 : ∀ rel, motive (.callRel32 rel)) (ret : motive .ret) (syscall : motive .syscall) :
    ∀ i : Instr, motive i
  | .addRm8Imm8 p d imm => alu80 .add p d imm
  | .orRm8Imm8 p d imm => alu80 .or p d imm
  | .adcRm8Imm8 p d imm => alu80 .adc p d imm
  | .sbbRm8Imm8 p d imm => alu80 .sbb p d imm
  | .andRm8Imm8 p d imm => alu80 .and p d imm
  | .subRm8Imm8 p d imm => alu80 .sub p d imm
  | .xorRm8Imm8 p d imm => alu80 .xor p d imm
  | .cmpRm8Imm8 p d imm => alu80 .cmp p d imm
  | .addRmImm p d imm => alu81 .add p d imm
  | .orRmImm p d imm => alu81 .or p d imm
  | .adcRmImm p d imm => alu81 .adc p d imm
  | .sbbRmImm p d imm => alu81 .sbb p d imm
  | .andRmImm p d imm => alu81 .and p d imm
  | .subRmImm p d imm => alu81 .sub p d imm
  | .xorRmImm p d imm => alu81 .xor p d imm
  | .cmpRmImm p d imm => alu81 .cmp p d imm
  | .addRmImm8 p d imm => alu83 .add p d imm
  | .orRmImm8 p d imm => alu83 .or p d imm
  | .adcRmImm8 p d imm => alu83 .adc p d imm
  | .sbbRmImm8 p d imm => alu83 .sbb p d imm
  | .andRmImm8 p d imm => alu83 .and p d imm
  | .subRmImm8 p d imm => alu83 .sub p d imm
  | .xorRmImm8 p d imm => alu83 .xor p d imm
  | .cmpRmImm8 p d imm => alu83 .cmp p d imm
  | .xorRm8R8 p d r => xorRm8R8 p d r
  | .xorRmR p d r => xorRmR p d r
  | .xorR8Rm8 p r m => xorR8Rm8 p r m
  | .xorRRm p r m => xorRRm p r m
  | .incRm8 p d => incRm8 p d
  | .incRm p d => incRm p d
  | .movRm8R8 p d r => movRm8R8 p d r
  | .movRmR p d r => movRmR p d r
  | .movR8Rm8 p r m => movR8Rm8 p r m
  | .movRRm p r m => movRRm p r m
  | .movR8Imm8 p r imm => movR8Imm8 p r imm
  | .movRImm p r imm => movRImm p r imm
  | .movRm8Imm8 p d imm => movRm8Imm8 p d imm
  | .movRmImm p d imm => movRmImm p d imm
  | .leaRM p r m => leaRM p r m
  | .jmpRel8 rel => jmpRel8 rel
  | .jmpRel32 rel => jmpRel32 rel
  | .joRel8 rel => jcc8 .o rel
  | .jnoRel8 rel => jcc8 .no rel
  | .jbRel8 rel => jcc8 .b rel
  | .jaeRel8 rel => jcc8 .ae rel
  | .jeRel8 rel => jcc8 .e rel
  | .jneRel8 rel => jcc8 .ne rel
  | .jbeRel8 rel => jcc8 .be rel
  | .jaRel8 rel => jcc8 .a rel
  | .jsRel8 rel => jcc8 .s rel
  | .jnsRel8 rel => jcc8 .ns rel
  | .jpRel8 rel => jcc8 .p rel
  | .jnpRel8 rel => jcc8 .np rel
  | .jlRel8 rel => jcc8 .l rel
  | .jgeRel8 rel => jcc8 .ge rel
  | .jleRel8 rel => jcc8 .le rel
  | .jgRel8 rel => jcc8 .g rel
  | .joRel32 rel => jcc32 .o rel
  | .jnoRel32 rel => jcc32 .no rel
  | .jbRel32 rel => jcc32 .b rel
  | .jaeRel32 rel => jcc32 .ae rel
  | .jeRel32 rel => jcc32 .e rel
  | .jneRel32 rel => jcc32 .ne rel
  | .jbeRel32 rel => jcc32 .be rel
  | .jaRel32 rel => jcc32 .a rel
  | .jsRel32 rel => jcc32 .s rel
  | .jnsRel32 rel => jcc32 .ns rel
  | .jpRel32 rel => jcc32 .p rel
  | .jnpRel32 rel => jcc32 .np rel
  | .jlRel32 rel => jcc32 .l rel
  | .jgeRel32 rel => jcc32 .ge rel
  | .jleRel32 rel => jcc32 .le rel
  | .jgRel32 rel => jcc32 .g rel
  | .callRel32 rel => callRel32 rel
  | .ret => ret
  | .syscall => syscall

@[simp] theorem instr80_wf (op : AluOp) (p : Pfx) (d : RM) (imm : BitVec 8) :
    (instr80 op p d imm).wf = wfModrm .grp80 p d := by cases op <;> rfl

@[simp] theorem instr81_wf (op : AluOp) (p : Pfx) (d : RM) (imm : Imm) :
    (instr81 op p d imm).wf = (wfModrm .grp81 p d && imm.wfW p.osz) := by cases op <;> rfl

@[simp] theorem instr83_wf (op : AluOp) (p : Pfx) (d : RM) (imm : BitVec 8) :
    (instr83 op p d imm).wf = wfModrm .grp83 p d := by cases op <;> rfl

@[simp] theorem instr80_latch (op : AluOp) (p : Pfx) (d : RM) (imm : BitVec 8) :
    (instr80 op p d imm).latch = modrmLatch 0x80 p op.ext d (leBytes 1 imm) := by cases op <;> rfl

@[simp] theorem instr81_latch (op : AluOp) (p : Pfx) (d : RM) (imm : Imm) :
    (instr81 op p d imm).latch = modrmLatch 0x81 p op.ext d imm.bytes := by cases op <;> rfl

@[simp] theorem instr83_latch (op : AluOp) (p : Pfx) (d : RM) (imm : BitVec 8) :
    (instr83 op p d imm).latch = modrmLatch 0x83 p op.ext d (leBytes 1 imm) := by cases op <;> rfl

@[simp] theorem instrJcc8_latch (c : Cond) (rel : BitVec 8) :
    (instrJcc8 c rel).latch = plainLatch [0x7#4 ++ c.code] .none (leBytes 1 rel) := by cases c <;> rfl

@[simp] theorem instrJcc32_latch (c : Cond) (rel : BitVec 32) :
    (instrJcc32 c rel).latch = plainLatch [0x0F, 0x8#4 ++ c.code] .none (leBytes 4 rel) := by cases c <;> rfl

namespace Machine

theorem exec_instr80 (op : AluOp) (p : Pfx) (d : RM) (imm : BitVec 8) (s : State) :
    exec (instr80 op p d imm) s = alu80 op p d imm s := by cases op <;> rfl

theorem exec_instr81 (op : AluOp) (p : Pfx) (d : RM) (imm : Imm) (s : State) :
    exec (instr81 op p d imm) s = alu81 op p d imm s := by cases op <;> rfl

theorem exec_instr83 (op : AluOp) (p : Pfx) (d : RM) (imm : BitVec 8) (s : State) :
    exec (instr83 op p d imm) s = alu83 op p d imm s := by cases op <;> rfl

theorem exec_instrJcc8 (c : Cond) (rel : BitVec 8) (s : State) :
    exec (instrJcc8 c rel) s = jcc8 c rel s := by cases c <;> rfl

theorem exec_instrJcc32 (c : Cond) (rel : BitVec 32) (s : State) :
    exec (instrJcc32 c rel) s = jcc32 c rel s := by cases c <;> rfl

end Machine

end Sys2Proof
end

/-! # The shared operation behind each meaning -/

section
namespace Sys2Proof.Machine

/-! ## Operands -/

/-- The registers a write of an operand may change. -/
def Operand.regs : Operand → List RegNum
  | .reg n _ => [n]
  | .mem _ | .imm _ => []

/-- The memory access of an operand of size `k`, in an instruction followed by the address `next`. -/
def Operand.access (s : State) (next : Word) (k : OSize) (reads writes : Bool) : Operand → Option MemAccess
  | .mem m => some { addr := effAddr s next m, size := k, reads := reads, writes := writes }
  | .reg _ _ | .imm _ => none

theorem rmOperand_regs (p : Pfx) (k : OSize) (d : RM) : (rmOperand p k d).regs = rmReg p k d := by cases d <;> rfl

theorem rmOperand_access (i : Instr) (s : State) (p : Pfx) (k : OSize) (d : RM) (r w : Bool) :
    (rmOperand p k d).access s (s.nextPc (encode i)) k r w = rmAccess i s p k d r w := by cases d <;> rfl

/-- The access passes the checks its kinds ask for (R66, R67, R73). -/
def MemAccess.Passes (a : MemAccess) (s : State) : Prop :=
  (a.reads = true → s.canRead a.addr a.size) ∧ (a.writes = true → s.canWrite a.addr a.size)

theorem memRead_of_canRead {s : State} {a : Word} {k : OSize} (h : s.canRead a k) :
    ∃ v, s.memRead a k = .ok v :=
  ⟨_, State.memRead_passes h (State.holdsAt_of_readable h.2)⟩

theorem readOp_of_passes {s : State} {next : Word} {k : OSize} {w : Bool} {o : Operand}
    (h : ∀ a, o.access s next k true w = some a → a.Passes s) : ∃ v, readOp s next k o = .ok v := by
  cases o with
  | reg n v => exact ⟨_, rfl⟩
  | mem m => exact memRead_of_canRead ((h _ rfl).1 rfl)
  | imm v => exact ⟨_, rfl⟩

theorem writeOp_of_passes {s : State} {next : Word} {k : OSize} {r : Bool} {o : Operand}
    (h : ∀ a, o.access s next k r true = some a → a.Passes s) (v : BitVec k.bits) :
    ∃ s', writeOp s next k o v = .ok s' := by
  cases o with
  | reg n w => exact ⟨_, rfl⟩
  | mem m => exact ⟨_, State.memWrite_passes v ((h _ rfl).2 rfl)⟩
  | imm w => exact ⟨_, rfl⟩

/-! ## Shapes -/

/-- An instruction's meaning as a shared operation on resolved operands. -/
inductive Shape where
  | alu (op : AluOp) (k : OSize) (dst src : Operand)
  | inc (k : OSize) (dst : Operand)
  | mov (k : OSize) (dst src : Operand)
  | lea (rv : RegNum × RegView) (m : MemOperand)
  | jmp (rel : Word)
  | jcc (c : Cond) (rel : Word)
  | call (rel : BitVec 32)
  | ret
  | syscall

/-- The meaning of a shape, for an instruction of bytes `bs`. -/
def Shape.run (bs : List Byte) (s : State) : Shape → StepResult
  | .alu op k dst src => aluExec op k dst src bs s
  | .inc k dst => incExec k dst bs s
  | .mov k dst src => movExec k dst src bs s
  | .lea rv m =>
    .next ((s.regWrite rv.1 rv.2 ((offset s (s.nextPc bs) m).setWidth rv.2.bits)).continueAt (s.nextPc bs))
  | .jmp rel => jmpExec rel bs s
  | .jcc c rel => jccExec c rel bs s
  | .call rel => execCallRel32 rel s
  | .ret => execRet s
  | .syscall => execSyscall s

/-- The registers a shape may write (R26). -/
def Shape.regs : Shape → List RegNum
  | .alu op _ dst _ => if op = .cmp then [] else dst.regs
  | .inc _ dst | .mov _ dst _ => dst.regs
  | .lea rv _ => [rv.1]
  | .call _ | .ret => [rsp]
  | .syscall => [rax, rcx, 11]
  | .jmp _ | .jcc _ _ => []

/-- The flags a shape may write (R30). -/
def Shape.flags : Shape → List FlagName
  | .alu _ _ _ _ => aluFlagNames
  | .inc _ _ => [.PF, .AF, .ZF, .SF, .OF]
  | .mov _ _ _ | .lea _ _ | .jmp _ | .jcc _ _ | .call _ | .ret | .syscall => []

/-- The memory access of a shape (R71). -/
def Shape.access (s : State) (next : Word) : Shape → Option MemAccess
  | .alu op k dst src => (src.access s next k true false).or (dst.access s next k true (op != .cmp))
  | .inc k dst => dst.access s next k true true
  | .mov k dst src => (src.access s next k true false).or (dst.access s next k false true)
  | .call _ => some { addr := s.x rsp - 8, size := .o64, reads := false, writes := true }
  | .ret => some { addr := s.x rsp, size := .o64, reads := true, writes := false }
  | .lea _ _ | .jmp _ | .jcc _ _ | .syscall => none

/-- The destination is a register, or the source is a register or an immediate: at most one of them is in memory. -/
def OneInMemory (dst src : Operand) : Prop :=
  (∃ n v, dst = .reg n v) ∨ (∃ n v, src = .reg n v) ∨ ∃ v, src = .imm v

/-- At most one operand is in memory (R71). -/
def Shape.oneAccess : Shape → Prop
  | .alu _ _ dst src | .mov _ dst src => OneInMemory dst src
  | .inc _ _ | .lea _ _ | .jmp _ | .jcc _ _ | .call _ | .ret | .syscall => True

/-- The shape says what the instruction means, and which registers, flags and bytes it may touch. -/
structure Shape.Describes (sh : Shape) (i : Instr) : Prop where
  exec : ∀ s, exec i s = sh.run (encode i) s
  regs : regsWritten i = sh.regs
  flags : flagsWritten i = sh.flags
  access : ∀ s, memAccess i s = sh.access s (s.nextPc (encode i))
  oneAccess : sh.oneAccess
  syscall : sh = .syscall → i = .syscall

/-- Every instruction has a shape. -/
theorem exists_shape (i : Instr) : ∃ sh : Shape, sh.Describes i := by
  cases i using Instr.familyCases with
  | alu80 op p d imm =>
    refine ⟨.alu op .o8 (rmOperand p .o8 d) (immOperand (k := .o8) imm), exec_instr80 op p d imm, ?_, ?_, fun s => ?_,
      .inr (.inr ⟨_, rfl⟩), nofun⟩
    · rw [Shape.regs, rmOperand_regs]; cases op <;> rfl
    · cases op <;> rfl
    · cases op <;> exact (rmOperand_access _ s p .o8 d _ _).symm
  | alu81 op p d imm =>
    refine ⟨.alu op p.osz (rmOperand p p.osz d) (immOperand (immValue p.osz imm)), exec_instr81 op p d imm, ?_, ?_,
      fun s => ?_, .inr (.inr ⟨_, rfl⟩), nofun⟩
    · rw [Shape.regs, rmOperand_regs]; cases op <;> rfl
    · cases op <;> rfl
    · cases op <;> exact (rmOperand_access _ s p p.osz d _ _).symm
  | alu83 op p d imm =>
    refine ⟨.alu op p.osz (rmOperand p p.osz d) (immOperand (imm.signExtend p.osz.bits)), exec_instr83 op p d imm, ?_,
      ?_, fun s => ?_, .inr (.inr ⟨_, rfl⟩), nofun⟩
    · rw [Shape.regs, rmOperand_regs]; cases op <;> rfl
    · cases op <;> rfl
    · cases op <;> exact (rmOperand_access _ s p p.osz d _ _).symm
  | xorRm8R8 p d r =>
    exact ⟨.alu .xor .o8 (rmOperand p .o8 d) (regField p .o8 r), fun _ => rfl, (rmOperand_regs ..).symm, rfl,
      fun _ => (rmOperand_access ..).symm, .inr (.inl ⟨_, _, rfl⟩), nofun⟩
  | xorRmR p d r =>
    exact ⟨.alu .xor p.osz (rmOperand p p.osz d) (regField p p.osz r), fun _ => rfl, (rmOperand_regs ..).symm, rfl,
      fun _ => (rmOperand_access ..).symm, .inr (.inl ⟨_, _, rfl⟩), nofun⟩
  | xorR8Rm8 p r m =>
    exact ⟨.alu .xor .o8 (regField p .o8 r) (rmOperand p .o8 m), fun _ => rfl, rfl, rfl,
      fun _ => (rmOperand_access ..).symm.trans (Option.or_none ..).symm, .inl ⟨_, _, rfl⟩, nofun⟩
  | xorRRm p r m =>
    exact ⟨.alu .xor p.osz (regField p p.osz r) (rmOperand p p.osz m), fun _ => rfl, rfl, rfl,
      fun _ => (rmOperand_access ..).symm.trans (Option.or_none ..).symm, .inl ⟨_, _, rfl⟩, nofun⟩
  | incRm8 p d =>
    exact ⟨.inc .o8 (rmOperand p .o8 d), fun _ => rfl, (rmOperand_regs ..).symm, rfl,
      fun _ => (rmOperand_access ..).symm, trivial, nofun⟩
  | incRm p d =>
    exact ⟨.inc p.osz (rmOperand p p.osz d), fun _ => rfl, (rmOperand_regs ..).symm, rfl,
      fun _ => (rmOperand_access ..).symm, trivial, nofun⟩
  | movRm8R8 p d r =>
    exact ⟨.mov .o8 (rmOperand p .o8 d) (regField p .o8 r), fun _ => rfl, (rmOperand_regs ..).symm, rfl,
      fun _ => (rmOperand_access ..).symm, .inr (.inl ⟨_, _, rfl⟩), nofun⟩
  | movRmR p d r =>
    exact ⟨.mov p.osz (rmOperand p p.osz d) (regField p p.osz r), fun _ => rfl, (rmOperand_regs ..).symm, rfl,
      fun _ => (rmOperand_access ..).symm, .inr (.inl ⟨_, _, rfl⟩), nofun⟩
  | movR8Rm8 p r m =>
    exact ⟨.mov .o8 (regField p .o8 r) (rmOperand p .o8 m), fun _ => rfl, rfl, rfl,
      fun _ => (rmOperand_access ..).symm.trans (Option.or_none ..).symm, .inl ⟨_, _, rfl⟩, nofun⟩
  | movRRm p r m =>
    exact ⟨.mov p.osz (regField p p.osz r) (rmOperand p p.osz m), fun _ => rfl, rfl, rfl,
      fun _ => (rmOperand_access ..).symm.trans (Option.or_none ..).symm, .inl ⟨_, _, rfl⟩, nofun⟩
  | movR8Imm8 p r imm =>
    exact ⟨.mov .o8 (opcodeReg p .o8 r) (immOperand (k := .o8) imm), fun _ => rfl, rfl, rfl, fun _ => rfl,
      .inl ⟨_, _, rfl⟩, nofun⟩
  | movRImm p r imm =>
    exact ⟨.mov p.osz (opcodeReg p p.osz r) (immOperand (immValue p.osz imm)), fun _ => rfl, rfl, rfl, fun _ => rfl,
      .inl ⟨_, _, rfl⟩, nofun⟩
  | movRm8Imm8 p d imm =>
    exact ⟨.mov .o8 (rmOperand p .o8 d) (immOperand (k := .o8) imm), fun _ => rfl, (rmOperand_regs ..).symm, rfl,
      fun _ => (rmOperand_access ..).symm, .inr (.inr ⟨_, rfl⟩), nofun⟩
  | movRmImm p d imm =>
    exact ⟨.mov p.osz (rmOperand p p.osz d) (immOperand (immValue p.osz imm)), fun _ => rfl,
      (rmOperand_regs ..).symm, rfl, fun _ => (rmOperand_access ..).symm, .inr (.inr ⟨_, rfl⟩), nofun⟩
  | leaRM p r m =>
    exact ⟨.lea (regFieldView p p.osz r) (memOperand p m), fun _ => rfl, rfl, rfl, fun _ => rfl, trivial, nofun⟩
  | jmpRel8 rel => exact ⟨.jmp (rel.signExtend 64), fun _ => rfl, rfl, rfl, fun _ => rfl, trivial, nofun⟩
  | jmpRel32 rel => exact ⟨.jmp (rel.signExtend 64), fun _ => rfl, rfl, rfl, fun _ => rfl, trivial, nofun⟩
  | jcc8 c rel =>
    refine ⟨.jcc c (rel.signExtend 64), exec_instrJcc8 c rel, ?_, ?_, fun _ => ?_, trivial, nofun⟩
    all_goals cases c <;> rfl
  | jcc32 c rel =>
    refine ⟨.jcc c (rel.signExtend 64), exec_instrJcc32 c rel, ?_, ?_, fun _ => ?_, trivial, nofun⟩
    all_goals cases c <;> rfl
  | callRel32 rel => exact ⟨.call rel, fun _ => rfl, rfl, rfl, fun _ => rfl, trivial, nofun⟩
  | ret => exact ⟨.ret, fun _ => rfl, rfl, rfl, fun _ => rfl, trivial, nofun⟩
  | syscall => exact ⟨.syscall, fun _ => rfl, rfl, rfl, fun _ => rfl, trivial, fun _ => rfl⟩

end Sys2Proof.Machine
end

/-! # How an instruction ends -/

section
namespace Sys2Proof.Machine

variable {s s' t : State} {k : OSize} {bs : List Byte} {l : List RegNum}

/-! ## Writes of operands -/

/-- Between `s` and `s'` at most the registers `l` and the bytes of memory were written. -/
structure Wrote (l : List RegNum) (s s' : State) : Prop where
  regs : SameRegsBut s s' l
  flags : s'.cpu.flags = s.cpu.flags
  icount : s'.cpu.icount = s.cpu.icount
  system : SameSystem s s'

theorem Wrote.refl (l : List RegNum) (s : State) : Wrote l s s :=
  ⟨fun _ _ => rfl, rfl, rfl, rfl, rfl, rfl, rfl, rfl, rfl, rfl⟩

theorem Wrote.setX (h : Wrote l s s') {n : RegNum} (hn : n ∈ l) (v : Word) : Wrote l s (s'.setX n v) :=
  ⟨fun m hm => (s'.setX_x_ne v (ne_of_mem_of_not_mem hn hm).symm).trans (h.regs m hm), h.flags, h.icount, h.system⟩

theorem wrote_setX (s : State) (n : RegNum) (v : Word) : Wrote [n] s (s.setX n v) :=
  (Wrote.refl _ s).setX (List.mem_singleton_self n) v

theorem wrote_stored (l : List RegNum) (s : State) (a : Word) (v : BitVec k.bits) : Wrote l s (s.stored a k v) :=
  ⟨fun _ _ => rfl, rfl, rfl, s.stored_regions v, rfl, rfl, rfl, rfl, rfl, rfl⟩

theorem wrote_of_writeOp {next : Word} {o : Operand} {v : BitVec k.bits} (h : writeOp s next k o v = .ok s') :
    Wrote o.regs s s' := by
  rcases writeOp_ok h with ⟨n, w, rfl, rfl⟩ | ⟨m, rfl, rfl, -⟩ | ⟨w, rfl, rfl⟩
  · exact wrote_setX _ n _
  · exact wrote_stored _ _ _ v
  · exact Wrote.refl _ _

/-! ## Completion -/

/-- What a completed instruction of a shape keeps, and how it ends (R26, R30, R39, R230). -/
structure Shape.Completes (sh : Shape) (s t : State) : Prop where
  regs : SameRegsBut s t sh.regs
  flags : SameFlagsBut s t sh.flags
  fsBase : t.cpu.fsBase = s.cpu.fsBase
  gsBase : t.cpu.gsBase = s.cpu.gsBase
  vreg : t.cpu.vreg = s.cpu.vreg
  latch : t.latch = s.latch
  refusalMark : t.refusalMark = s.refusalMark
  trapRecord : t.trapRecord = s.trapRecord
  regions : sh ≠ .syscall → t.mem.regions = s.mem.regions
  icount : t.cpu.icount = s.cpu.icount + 1
  ends : t.port = .continued t.cpu.pc ∨ t.port = .redirected t.cpu.pc ∨
    ∃ code, t.port = .exited code ∧ t.cpu.pc = s.cpu.pc

theorem Shape.Completes.not_trapped {sh : Shape} (h : sh.Completes s t) : t.isTrapped = false := by
  rcases h.ends with h | h | ⟨_, h, -⟩ <;> simp [State.isTrapped, h]

/-- Operand writes, then flags and draws, then Continue or Redirect. -/
theorem completes_of_wrote {sh : Shape} (h : Wrote sh.regs s s') (f : Flags)
    (hf : ∀ n, n ∉ sh.flags → f.get n = s.cpu.flags.get n) (d : Nat) (n : Word)
    (ht : t = ((s'.setFlags f).useDraws d).continueAt n ∨ t = ((s'.setFlags f).useDraws d).redirectTo n) :
    sh.Completes s t := by
  obtain ⟨hregs, -, hicount, hmap, hfs, hgs, hvreg, hlatch, hmark, hrec⟩ := h
  have hc : s'.cpu.icount + 1 = s.cpu.icount + 1 := by rw [hicount]
  rcases ht with rfl | rfl
  · exact ⟨hregs, hf, hfs, hgs, hvreg, hlatch, hmark, hrec, fun _ => hmap, hc, .inl rfl⟩
  · exact ⟨hregs, hf, hfs, hgs, hvreg, hlatch, hmark, hrec, fun _ => hmap, hc, .inr (.inl rfl)⟩

/-- The same when the flags are not written and nothing is drawn. -/
theorem completes_of_wrote_sameFlags {sh : Shape} (h : Wrote sh.regs s s') (n : Word)
    (ht : t = s'.continueAt n ∨ t = s'.redirectTo n) : sh.Completes s t :=
  completes_of_wrote h s'.cpu.flags (fun _ _ => by rw [h.flags]) 0 n ht

theorem syscallWith_completes (ans : SyscallAnswer) (d₁ d₂ : Word) (s : State) :
    Shape.syscall.Completes s (syscallWith ans d₁ d₂ s) := by
  obtain ⟨hflags, hfs, hgs, hvreg, hlatch, hmark, hrec⟩ := syscallWith_keeps ans d₁ d₂ s
  obtain ⟨hicount, -, hend⟩ := syscallWith_ends ans d₁ d₂ s
  refine ⟨fun n hn => ?_, fun _ _ => by rw [hflags], hfs, hgs, hvreg, hlatch, hmark, hrec, fun h => absurd rfl h,
    hicount, hend.symm.imp_right .inr⟩
  simp only [Shape.regs, List.mem_cons, List.not_mem_nil, or_false, not_or] at hn
  obtain ⟨hrax, hrcx, hr11⟩ := hn
  unfold syscallWith
  cases ans.result <;> simp [hrax, hrcx, hr11]

/-- A meaning stops at an access, or answers a state in which the instruction has completed. -/
theorem Shape.run_cases (sh : Shape) (bs : List Byte) (s : State) :
    (∃ e bs', AccessStop.isDataStop e ∧ sh.run bs s = s.stopAccess bs' e) ∨
      ∃ t, sh.run bs s = .next t ∧ sh.Completes s t := by
  cases sh with
  | alu op k dst src =>
    rcases aluExec_cases op k dst src bs s with ⟨e, he, hr⟩ | ⟨a, b, s', -, -, hw, hr⟩
    · exact .inl ⟨e, bs, he, hr⟩
    · refine .inr ⟨_, hr, completes_of_wrote (s' := s') ?_ _ (fun n hn => afterAlu_other _ _ hn) _ _ (.inl rfl)⟩
      rcases hw with ⟨rfl, rfl⟩ | ⟨hop, hw⟩
      · exact Wrote.refl _ _
      · rw [Shape.regs, if_neg hop]; exact wrote_of_writeOp hw
  | inc k dst =>
    rcases incExec_cases k dst bs s with ⟨e, he, hr⟩ | ⟨a, s', -, hw, hr⟩
    · exact .inl ⟨e, bs, he, hr⟩
    · exact .inr ⟨_, hr, completes_of_wrote (wrote_of_writeOp hw) _ (fun n hn => afterInc_other _ _ hn) 0 _
        (.inl rfl)⟩
  | mov k dst src =>
    rcases movExec_cases k dst src bs s with ⟨e, he, hr⟩ | ⟨v, s', -, hw, hr⟩
    · exact .inl ⟨e, bs, he, hr⟩
    · exact .inr ⟨_, hr, completes_of_wrote_sameFlags (wrote_of_writeOp hw) _ (.inl rfl)⟩
  | lea rv m =>
    exact .inr ⟨_, rfl, completes_of_wrote_sameFlags (wrote_setX s _ _) _ (.inl rfl)⟩
  | jmp rel => exact .inr ⟨_, rfl, completes_of_wrote_sameFlags (Wrote.refl _ s) _ (.inr rfl)⟩
  | jcc c rel =>
    refine .inr ⟨_, jccExec_eq c rel bs s, ?_⟩
    split
    · exact completes_of_wrote_sameFlags (Wrote.refl _ s) _ (.inr rfl)
    · exact completes_of_wrote_sameFlags (Wrote.refl _ s) _ (.inl rfl)
  | call rel =>
    rcases execCallRel32_cases rel s with ⟨e, he, hr⟩ | ⟨ret, -, -, hr⟩
    · exact .inl ⟨e, _, he, hr⟩
    · exact .inr ⟨_, hr, completes_of_wrote_sameFlags
        ((wrote_stored _ s _ ret).setX (List.mem_singleton_self _) _) _ (.inr rfl)⟩
  | ret =>
    rcases execRet_cases s with ⟨e, he, hr⟩ | ⟨target, -, hr⟩
    · exact .inl ⟨e, _, he, hr⟩
    · exact .inr ⟨_, hr, completes_of_wrote_sameFlags (wrote_setX s _ _) _ (.inr rfl)⟩
  | syscall => exact .inr ⟨_, rfl, syscallWith_completes ..⟩

/-- A next state of an instruction's meaning is a Trap of a data access, or the instruction has completed. -/
theorem exec_next {i : Instr} {sh : Shape} (hi : sh.Describes i) (h : exec i s = .next t) :
    (∃ info, t = s.takeTrap .segmentationViolation info ∧ info.pc = s.cpu.pc ∧ ∃ k, info.access = some k) ∨
      sh.Completes s t := by
  rw [hi.exec] at h
  rcases sh.run_cases (encode i) s with ⟨e, bs, he, hr⟩ | ⟨t', hr, hc⟩ <;> rw [hr] at h
  · rcases stopAccess_cases (s := s) (bs := bs) he with ⟨info, hs, hpc, -, hk⟩ | hs | hs
    all_goals rw [hs] at h; cases h
    exact .inl ⟨info, rfl, hpc, hk⟩
  · cases h
    exact .inr hc

/-! ## Completion when the access passes -/

/-- Of two operands of which at most one is in memory, each passes when the instruction's access does. -/
theorem operands_pass {dst src : Operand} {next : Word} {r w r' w' : Bool}
    (hone : OneInMemory dst src)
    (h : ∀ a, (src.access s next k r w).or (dst.access s next k r' w') = some a → a.Passes s) :
    (∀ a, src.access s next k r w = some a → a.Passes s) ∧
      ∀ a, dst.access s next k r' w' = some a → a.Passes s := by
  rcases hone with ⟨n, v, rfl⟩ | ⟨n, v, rfl⟩ | ⟨v, rfl⟩
  · exact ⟨fun a ha => h a (by rw [ha]; rfl), nofun⟩
  · exact ⟨nofun, h⟩
  · exact ⟨nofun, h⟩

/-- A shape whose access passes its checks answers a next state that is no Trap. -/
theorem Shape.run_completes {sh : Shape} (bs : List Byte) (hone : sh.oneAccess)
    (h : ∀ a, sh.access s (s.nextPc bs) = some a → a.Passes s) :
    ∃ t, sh.run bs s = .next t ∧ t.isTrapped = false := by
  cases sh with
  | alu op k dst src =>
    obtain ⟨hsrc, hdst⟩ := operands_pass hone h
    obtain ⟨b, hb⟩ := readOp_of_passes hsrc
    obtain ⟨a, ha⟩ := readOp_of_passes hdst
    by_cases hop : op = .cmp
    · simp only [Shape.run, aluExec, ha, hb, if_pos hop, aluFinish]
      exact ⟨_, rfl, rfl⟩
    · obtain ⟨s', hs'⟩ := writeOp_of_passes (bne_iff_ne.mpr hop ▸ hdst)
        (aluEval op a b s.cpu.flags.CF (Config.drawBit s.draws)).r
      simp only [Shape.run, aluExec, ha, hb, if_neg hop, hs', aluFinish]
      exact ⟨_, rfl, rfl⟩
  | inc k dst =>
    obtain ⟨a, ha⟩ := readOp_of_passes h
    obtain ⟨s', hs'⟩ := writeOp_of_passes h (addC a 1 false).r
    simp only [Shape.run, incExec, ha, hs']
    exact ⟨_, rfl, rfl⟩
  | mov k dst src =>
    obtain ⟨hsrc, hdst⟩ := operands_pass hone h
    obtain ⟨v, hv⟩ := readOp_of_passes hsrc
    obtain ⟨s', hs'⟩ := writeOp_of_passes hdst v
    simp only [Shape.run, movExec, hv, hs']
    exact ⟨_, rfl, rfl⟩
  | lea rv m => exact ⟨_, rfl, rfl⟩
  | jmp rel => exact ⟨_, rfl, rfl⟩
  | jcc c rel =>
    refine ⟨_, jccExec_eq c rel bs s, ?_⟩
    split <;> rfl
  | call rel =>
    have hw := State.memWrite_passes (s.nextPc (encode (.callRel32 rel))) ((h _ rfl).2 rfl)
    simp only [Shape.run, execCallRel32, hw]
    exact ⟨_, rfl, rfl⟩
  | ret =>
    obtain ⟨target, ht⟩ := memRead_of_canRead ((h _ rfl).1 rfl)
    simp only [Shape.run, execRet, ht]
    exact ⟨_, rfl, rfl⟩
  | syscall =>
    exact ⟨_, rfl, (syscallWith_completes ..).not_trapped⟩

end Sys2Proof.Machine
end

section
namespace Sys2Proof.Machine

/-- Settles O21: a Trap of the decoder or of an access keeps `icount`, and a completed instruction counts. -/
theorem instructionCounterCountsCompletions : Obligations.InstructionCounterCountsCompletions := by
  intro s t h
  obtain ⟨-, ⟨i, l, hx⟩ | ⟨k, info, rfl, -⟩⟩ := step_next_cases h
  · obtain ⟨sh, hi⟩ := exists_shape i
    rcases exec_next hi hx with ⟨info, rfl, -⟩ | hc
    · rfl
    · simp [hc.not_trapped, hc.icount]
  · rfl

/-- Settles O24: a Trap writes no register, and a completed instruction only those of its shape. -/
theorem registersOutsideTheDestinationsUnchanged : Obligations.RegistersOutsideTheDestinationsUnchanged := by
  intro i s t h
  obtain ⟨sh, hi⟩ := exists_shape i
  rcases exec_next hi h with ⟨info, rfl, -⟩ | hc
  · exact fun _ _ => rfl
  · exact hi.regs ▸ hc.regs

/-- No instruction writes a flag beside the six of R30; so none writes DF, AC or ID (R34). -/
theorem flagsWritten_subset (i : Instr) : flagsWritten i ⊆ aluFlagNames := by
  obtain ⟨sh, hi⟩ := exists_shape i
  rw [hi.flags]
  cases sh <;> simp [Shape.flags, aluFlagNames]

/-- Settles O25: a Trap writes no flag, and a completed instruction only those of its shape. -/
theorem flagsOutsideTheWrittenOnesUnchanged : Obligations.FlagsOutsideTheWrittenOnesUnchanged := by
  refine ⟨fun i s t h => ?_, fun i => ?_⟩
  · obtain ⟨sh, hi⟩ := exists_shape i
    rcases exec_next hi h with ⟨info, rfl, -⟩ | hc
    · exact fun _ _ => rfl
    · exact hi.flags ▸ hc.flags
  · have hs := flagsWritten_subset i
    exact ⟨fun h => absurd (hs h) (by decide), fun h => absurd (hs h) (by decide),
      fun h => absurd (hs h) (by decide)⟩

/-- Settles O27: neither a Trap nor a completed instruction touches them. -/
theorem segmentBasesVectorsAndRegionsUnchanged : Obligations.SegmentBasesVectorsAndRegionsUnchanged := by
  intro i s t h
  obtain ⟨sh, hi⟩ := exists_shape i
  rcases exec_next hi h with ⟨info, rfl, -⟩ | hc
  · exact ⟨rfl, rfl, rfl, rfl, fun _ => rfl⟩
  · exact ⟨hc.fsBase, hc.gsBase, hc.vreg, hc.latch, fun hne => hc.regions fun hsh => hne (hi.syscall hsh)⟩

/-- Settles O29: the shape's operands pass their checks, and a next state that is no Trap is a completion. -/
theorem everyInstructionCompletesWhenItsAccessPasses : Obligations.EveryInstructionCompletesWhenItsAccessPasses := by
  intro i s h
  obtain ⟨sh, hi⟩ := exists_shape i
  obtain ⟨t, ht, hnt⟩ := sh.run_completes (encode i) hi.oneAccess fun a ha => h a (hi.access s ▸ ha)
  rw [← hi.exec] at ht
  refine ⟨t, ht, hnt, ?_⟩
  rcases exec_next hi ht with ⟨info, rfl, -⟩ | hc
  · cases hnt
  · exact hc.icount

end Sys2Proof.Machine
end

/-! # The decoder reads an encoded instruction back -/

section
namespace Sys2Proof

/-! ## The latch of an r/m operand -/

theorem Disp.ofBytes_bytes (d : Disp) : Disp.ofBytes d.mod d.bytes = d := by
  cases d with
  | none => rfl
  | d8 v => simp [Disp.ofBytes, Disp.mod, Disp.bytes, leVal_leBytes (n := 1) rfl v]
  | d32 v => simp [Disp.ofBytes, Disp.mod, Disp.bytes, leVal_leBytes (n := 4) rfl v]

theorem Disp.mod_eq_zero {d : Disp} : d.mod = 0#2 ↔ d = .none := by cases d <;> simp [Disp.mod]

@[simp] theorem RM.regOf_modrm (reg : BitVec 3) (rm : RM) : regOf (rm.modrm reg) = reg := by
  cases rm with
  | reg r => simp [RM.modrm]
  | mem m => cases m <;> simp [RM.modrm]

/-- A memory form is read back from its ModRM, SIB and displacement (R101 to R104). -/
theorem MemForm.ofLatch_modrmLatch {m : MemForm} (h : m.wf = true) (op : Byte) (p : Pfx) (reg : BitVec 3)
    (imm : List Byte) : MemForm.ofLatch (modrmLatch op p reg (.mem m) imm) = m := by
  cases m with
  | base b d =>
    have hb : b ≠ 4#3 ∧ (d = .none → b ≠ 5#3) := by simp [MemForm.wf] at h; tauto
    simpa [MemForm.ofLatch, modrmLatch, RM.modrm, RM.dispBytes, hb.1, Disp.mod_eq_zero, Disp.ofBytes_bytes] using hb.2
  | sib ss i b d =>
    have hb : d = .none → b ≠ 5#3 := by simp [MemForm.wf] at h; tauto
    simpa [MemForm.ofLatch, modrmLatch, RM.modrm, RM.sib, RM.dispBytes, Disp.mod_eq_zero, Disp.ofBytes_bytes] using hb
  | sibNoBase ss i d =>
    simp [MemForm.ofLatch, modrmLatch, RM.modrm, RM.sib, RM.dispBytes, leVal_leBytes (n := 4) rfl d]
  | ripRel d => simp [MemForm.ofLatch, modrmLatch, RM.modrm, RM.dispBytes, leVal_leBytes (n := 4) rfl d]

/-- An r/m operand is read back from its ModRM, SIB and displacement (R100). -/
theorem RM.ofLatch_modrmLatch {rm : RM} (h : rm.wf = true) (op : Byte) (p : Pfx) (reg : BitVec 3)
    (imm : List Byte) : RM.ofLatch (modrmLatch op p reg rm imm) = rm := by
  have hmod : (modOf (rm.modrm reg) == 3) = rm.isReg := (RM.modrm_fields h reg).2.2.1
  have hofLatch : RM.ofLatch (modrmLatch op p reg rm imm) =
      if modOf (rm.modrm reg) = 3 then .reg (rmOf (rm.modrm reg))
      else .mem (.ofLatch (modrmLatch op p reg rm imm)) := rfl
  rw [hofLatch]
  cases rm with
  | reg r => simp [RM.modrm]
  | mem m => rw [if_neg (by simpa [RM.isReg] using hmod), MemForm.ofLatch_modrmLatch h]

/-! ## The stages on encoded bytes -/

/-- A byte that no stage before the opcode takes (R94, R95). -/
def opcodeByte (b : Byte) : Bool := (LegacyPrefix.ofByte b).isNone && !isRefusedPrefix b && !isRexByte b

theorem opcodeByte_of_oneByteForm :
    ∀ b : Byte, (oneByteForm b).isSome = true → opcodeByte b = true ∧ b ≠ 0x0F#8 := by decide

theorem scanLegacy_bytes {seen l : List LegacyPrefix} {b : Byte} (hl : noDuplicate seen l = true)
    (hb : LegacyPrefix.ofByte b = none) (hr : isRefusedPrefix b = false) (bs : List Byte) :
    scanLegacy seen (l.map LegacyPrefix.byte ++ b :: bs) = .ok (seen ++ l, b) bs := by
  induction l generalizing seen with
  | nil => simp [scanLegacy, hb, hr]
  | cons q l ih =>
    simp only [noDuplicate, Bool.and_eq_true, Bool.not_eq_true'] at hl
    simp [scanLegacy, hl.1, ih hl.2]

theorem Rex.byte_no_legacy (r : Rex) : LegacyPrefix.ofByte r.byte = none ∧ isRefusedPrefix r.byte = false := by
  obtain ⟨w, r, x, b⟩ := r
  revert w r x b; decide

/-- After the bytes before it, the opcode's stage reads an opcode byte (R94, R95). -/
theorem decode_pfx_bytes {p : Pfx} (hp : p.wf = true) {b : Byte} (hb : opcodeByte b = true) (bs : List Byte) :
    decode (p.bytes ++ b :: bs) =
      (scanOpcode b bs).andThen fun o bs => (scanBody o.2 p o.1 bs).andThen fun l bs => .ok (l, o.2.build l) bs := by
  simp only [opcodeByte, Bool.and_eq_true, Option.isNone_iff_eq_none, Bool.not_eq_true'] at hb
  obtain ⟨⟨hb, hr⟩, hx⟩ := hb
  obtain ⟨l, rex⟩ := p
  cases rex with
  | none => simp [decode, Pfx.bytes, scanLegacy_bytes hp hb hr, Scan.andThen, scanRex, hx]
  | some r =>
    obtain ⟨hn, hrr⟩ := r.byte_no_legacy
    obtain ⟨hrex, hof⟩ := r.byte_fields
    have hscan := scanLegacy_bytes hp hn hrr (b :: bs)
    simp [decode, Pfx.bytes, hscan, Scan.andThen, scanRex, hrex, hof, scanByte, hb, hr]

theorem scanOpcode_one {op : Byte} {f : OpForm} (h : oneByteForm op = some f) (bs : List Byte) :
    scanOpcode op bs = .ok ([op], f) bs := by
  obtain ⟨hb, h0F⟩ := opcodeByte_of_oneByteForm op (by rw [h]; rfl)
  simp only [opcodeByte, Bool.and_eq_true, Option.isNone_iff_eq_none, Bool.not_eq_true'] at hb
  have h66 : op ≠ 0x66#8 := fun e => by rw [e] at hb; exact absurd hb.1.1 (by decide)
  simp [scanOpcode, hb.2, h66, h0F, h]

theorem scanOpcode_two {op : Byte} {f : OpForm} (h : twoByteForm op = some f) (bs : List Byte) :
    scanOpcode 0x0F (op :: bs) = .ok ([0x0F, op], f) bs := by
  simp [scanOpcode, isRexByte, scanByte, Scan.andThen, h]

/-! ## Latches that fit a form -/

/-- The latch is laid out as the form asks: opcode, admitted extension, what comes before the opcode, addressing form,
immediate of the form's length (R97 to R99, R108, R112). -/
inductive OpForm.Fits : OpForm → Latch → Prop where
  | modrm {f : OpForm} {op : Byte} {p : Pfx} {reg : BitVec 3} {rm : RM} {imm : List Byte}
      (hop : oneByteForm op = some f) (hm : f.hasModrm = true) (hwf : wfModrm f p rm = true)
      (hext : f.extAdmitted reg = true) (hill : f = .lea8D → rm.isReg = false)
      (himm : imm.length = f.immLen (f.osz p)) : f.Fits (modrmLatch op p reg rm imm)
  | plain {f : OpForm} {op : Byte} {p : Pfx} {imm : List Byte} (hop : oneByteForm op = some f)
      (hm : f.hasModrm = false) (hwf : wfPlain f p = true) (himm : imm.length = f.immLen (f.osz p)) :
      f.Fits (plainLatch [op] p imm)
  | escape {f : OpForm} {op : Byte} {imm : List Byte} (hop : twoByteForm op = some f) (hm : f.hasModrm = false)
      (hwf : wfPlain f .none = true) (himm : imm.length = f.immLen (f.osz .none)) :
      f.Fits (plainLatch [0x0F, op] .none imm)

theorem scanBody_modrm {f : OpForm} {p : Pfx} {reg : BitVec 3} {rm : RM} {imm : List Byte} (hm : f.hasModrm = true)
    (hwf : wfModrm f p rm = true) (hext : f.extAdmitted reg = true) (hill : f = .lea8D → rm.isReg = false)
    (himm : imm.length = f.immLen (f.osz p)) (op : Byte) (rest : List Byte) :
    scanBody f p [op] (rm.modrm reg :: (rm.sib.toList ++ (rm.dispBytes ++ (imm ++ rest)))) =
      .ok (modrmLatch op p reg rm imm) rest := by
  simp only [wfModrm, Bool.and_eq_true] at hwf
  obtain ⟨⟨-, hrm⟩, hpfx⟩ := hwf
  obtain ⟨hsib, hdisp, hmod, hreg⟩ := RM.modrm_fields hrm reg
  have hpfx' : f.pfxAllowed p (modOf (rm.modrm reg) == 3#2) = true := by rw [← hpfx, ← hmod]; rfl
  have hlegal : f.illegalMod (modOf (rm.modrm reg)) = false := by
    rw [OpForm.illegalMod, hmod, Bool.and_eq_false_imp]
    exact fun h => hill (beq_iff_eq.mp h)
  have hscanModrm (bs : List Byte) : scanModrm f p (rm.modrm reg :: bs) = .ok (rm.modrm reg) bs := by
    simp [scanModrm, scanByte, Scan.andThen, hreg, hext, hlegal, hpfx']
  have hscanSib (bs : List Byte) : scanSib (rm.modrm reg) (rm.sib.toList ++ bs) = .ok rm.sib bs := by
    rw [scanSib, hsib]
    cases rm.sib <;> rfl
  simp only [scanBody, hm, if_true, hscanModrm, hscanSib, Scan.andThen, scanBytes_append _ _ _ hdisp.symm,
    scanBytes_append _ _ _ himm, modrmLatch]

theorem scanBody_plain {f : OpForm} {p : Pfx} {imm : List Byte} (hm : f.hasModrm = false) (hwf : wfPlain f p = true)
    (himm : imm.length = f.immLen (f.osz p)) (opcode rest : List Byte) :
    scanBody f p opcode (imm ++ rest) = .ok (plainLatch opcode p imm) rest := by
  simp only [wfPlain, Bool.and_eq_true] at hwf
  simp [scanBody, hm, hwf.2, Scan.andThen, scanBytes_append _ _ _ himm, plainLatch]

/-- The decoder reads a latch that fits a form back, and the instruction the form builds from it. -/
theorem OpForm.Fits.decode_bytes {f : OpForm} {l : Latch} (h : f.Fits l) (rest : List Byte) :
    decode (l.bytes ++ rest) = .ok (l, f.build l) rest := by
  cases h with
  | @modrm op p reg rm imm hop hm hwf hext hill himm =>
    have hp : p.wf = true := by simp only [wfModrm, Bool.and_eq_true] at hwf; exact hwf.1.1
    have hbytes : (modrmLatch op p reg rm imm).bytes ++ rest =
        p.bytes ++ op :: (rm.modrm reg :: (rm.sib.toList ++ (rm.dispBytes ++ (imm ++ rest)))) := by
      simp [Latch.bytes, modrmLatch, Pfx.bytes]
    rw [hbytes, decode_pfx_bytes hp (opcodeByte_of_oneByteForm op (by rw [hop]; rfl)).1, scanOpcode_one hop]
    simp only [Scan.andThen, scanBody_modrm hm hwf hext hill himm]
  | @plain op p imm hop hm hwf himm =>
    have hp : p.wf = true := by simp only [wfPlain, Bool.and_eq_true] at hwf; exact hwf.1
    have hbytes : (plainLatch [op] p imm).bytes ++ rest = p.bytes ++ op :: (imm ++ rest) := by
      simp [Latch.bytes, plainLatch, Pfx.bytes]
    rw [hbytes, decode_pfx_bytes hp (opcodeByte_of_oneByteForm op (by rw [hop]; rfl)).1, scanOpcode_one hop]
    simp only [Scan.andThen, scanBody_plain hm hwf himm]
  | @escape op imm hop hm hwf himm =>
    have hbytes : (plainLatch [0x0F, op] .none imm).bytes ++ rest =
        Pfx.none.bytes ++ 0x0F :: (op :: (imm ++ rest)) := by
      simp [Latch.bytes, plainLatch, Pfx.bytes, Pfx.none]
    rw [hbytes, decode_pfx_bytes (by decide) (by decide), scanOpcode_two hop]
    simp only [Scan.andThen, scanBody_plain hm hwf himm]

theorem OpForm.immLen_le (f : OpForm) (k : OSize) : f.immLen k ≤ 8 ∧ (f.hasModrm = true → f.immLen k ≤ 4) := by
  cases f <;> cases k <;> simp [OpForm.immLen, OpForm.hasModrm, immWLen, OSize.bytes]

/-- A latch that fits a form has at most 15 bytes (R91; log entry 24). -/
theorem OpForm.Fits.length_le {f : OpForm} {l : Latch} (h : f.Fits l) : l.bytes.length ≤ 15 := by
  cases h with
  | modrm hop hm hwf hext hill himm => exact (modrmLatch_length hwf (himm ▸ (f.immLen_le _).2 hm)).2
  | plain hop hm hwf himm => exact (plainLatch_length hwf (himm ▸ (f.immLen_le _).1)).2
  | escape hop hm hwf himm =>
    have := (f.immLen_le (f.osz .none)).1
    rw [← himm] at this
    simp [Latch.bytes, plainLatch, Pfx.none]
    omega

/-! ## Every well-formed instruction fits its form -/

@[simp] theorem modrmLatch_pfx (op : Byte) (p : Pfx) (reg : BitVec 3) (rm : RM) (imm : List Byte) :
    (modrmLatch op p reg rm imm).pfx = p := rfl

@[simp] theorem modrmLatch_modrm (op : Byte) (p : Pfx) (reg : BitVec 3) (rm : RM) (imm : List Byte) :
    (modrmLatch op p reg rm imm).modrm = some (rm.modrm reg) := rfl

@[simp] theorem modrmLatch_imm (op : Byte) (p : Pfx) (reg : BitVec 3) (rm : RM) (imm : List Byte) :
    (modrmLatch op p reg rm imm).imm = imm := rfl

@[simp] theorem plainLatch_pfx (opcode : List Byte) (p : Pfx) (imm : List Byte) :
    (plainLatch opcode p imm).pfx = p := rfl

@[simp] theorem plainLatch_imm (opcode : List Byte) (p : Pfx) (imm : List Byte) :
    (plainLatch opcode p imm).imm = imm := rfl

@[simp] theorem leVal_leBytes_8 (v : BitVec 8) : leVal 8 (leBytes 1 v) = v := leVal_leBytes (n := 1) rfl v

@[simp] theorem leVal_leBytes_32 (v : BitVec 32) : leVal 32 (leBytes 4 v) = v := leVal_leBytes (n := 4) rfl v

theorem wfModrm_rm {f : OpForm} {p : Pfx} {rm : RM} (h : wfModrm f p rm = true) : rm.wf = true := by
  simp only [wfModrm, Bool.and_eq_true] at h; exact h.1.2

theorem oneByteForm_movB0 : ∀ r : BitVec 3, oneByteForm (0x16#5 ++ r) = some (.movB0 r) := by decide

theorem oneByteForm_movB8 : ∀ r : BitVec 3, oneByteForm (0x17#5 ++ r) = some (.movB8 r) := by decide

theorem oneByteForm_jcc8 (c : Cond) : oneByteForm (0x7#4 ++ c.code) = some (.jcc8 c) := by cases c <;> rfl

theorem twoByteForm_jcc32 (c : Cond) : twoByteForm (0x8#4 ++ c.code) = some (.jcc32 c) := by cases c <;> rfl

/-- A well-formed instruction's latch fits the form that builds the instruction from it. -/
theorem exists_form {i : Instr} (h : i.wf = true) : ∃ f : OpForm, f.Fits i.latch ∧ f.build i.latch = i := by
  cases i using Instr.familyCases with
  | alu80 op p d imm =>
    rw [instr80_wf] at h
    rw [instr80_latch]
    exact ⟨.grp80, .modrm rfl rfl h rfl nofun rfl, by simp [OpForm.build, RM.ofLatch_modrmLatch (wfModrm_rm h)]⟩
  | alu81 op p d imm =>
    rw [instr81_wf, Bool.and_eq_true] at h
    obtain ⟨h, himm⟩ := h
    rw [instr81_latch]
    exact ⟨.grp81, .modrm rfl rfl h rfl nofun (Imm.bytes_length_wfW himm),
      by simp [OpForm.build, RM.ofLatch_modrmLatch (wfModrm_rm h)]⟩
  | alu83 op p d imm =>
    rw [instr83_wf] at h
    rw [instr83_latch]
    exact ⟨.grp83, .modrm rfl rfl h rfl nofun rfl, by simp [OpForm.build, RM.ofLatch_modrmLatch (wfModrm_rm h)]⟩
  | xorRm8R8 p d r =>
    exact ⟨.xor30, .modrm rfl rfl h rfl nofun rfl,
      by simp [Instr.latch, OpForm.build, RM.ofLatch_modrmLatch (wfModrm_rm h)]⟩
  | xorRmR p d r =>
    exact ⟨.xor31, .modrm rfl rfl h rfl nofun rfl,
      by simp [Instr.latch, OpForm.build, RM.ofLatch_modrmLatch (wfModrm_rm h)]⟩
  | xorR8Rm8 p r m =>
    exact ⟨.xor32, .modrm rfl rfl h rfl nofun rfl,
      by simp [Instr.latch, OpForm.build, RM.ofLatch_modrmLatch (wfModrm_rm h)]⟩
  | xorRRm p r m =>
    exact ⟨.xor33, .modrm rfl rfl h rfl nofun rfl,
      by simp [Instr.latch, OpForm.build, RM.ofLatch_modrmLatch (wfModrm_rm h)]⟩
  | incRm8 p d =>
    exact ⟨.grpFE, .modrm rfl rfl h rfl nofun rfl,
      by simp [Instr.latch, OpForm.build, RM.ofLatch_modrmLatch (wfModrm_rm h)]⟩
  | incRm p d =>
    exact ⟨.grpFF, .modrm rfl rfl h rfl nofun rfl,
      by simp [Instr.latch, OpForm.build, RM.ofLatch_modrmLatch (wfModrm_rm h)]⟩
  | movRm8R8 p d r =>
    exact ⟨.mov88, .modrm rfl rfl h rfl nofun rfl,
      by simp [Instr.latch, OpForm.build, RM.ofLatch_modrmLatch (wfModrm_rm h)]⟩
  | movRmR p d r =>
    exact ⟨.mov89, .modrm rfl rfl h rfl nofun rfl,
      by simp [Instr.latch, OpForm.build, RM.ofLatch_modrmLatch (wfModrm_rm h)]⟩
  | movR8Rm8 p r m =>
    exact ⟨.mov8A, .modrm rfl rfl h rfl nofun rfl,
      by simp [Instr.latch, OpForm.build, RM.ofLatch_modrmLatch (wfModrm_rm h)]⟩
  | movRRm p r m =>
    exact ⟨.mov8B, .modrm rfl rfl h rfl nofun rfl,
      by simp [Instr.latch, OpForm.build, RM.ofLatch_modrmLatch (wfModrm_rm h)]⟩
  | movR8Imm8 p r imm =>
    exact ⟨.movB0 r, .plain (oneByteForm_movB0 r) rfl h rfl, by simp [Instr.latch, OpForm.build]⟩
  | movRImm p r imm =>
    obtain ⟨h, himm⟩ := (Bool.and_eq_true ..).mp h
    exact ⟨.movB8 r, .plain (oneByteForm_movB8 r) rfl h (Imm.bytes_length_wfV himm),
      by simp [Instr.latch, OpForm.build]⟩
  | movRm8Imm8 p d imm =>
    exact ⟨.grpC6, .modrm rfl rfl h rfl nofun rfl,
      by simp [Instr.latch, OpForm.build, RM.ofLatch_modrmLatch (wfModrm_rm h)]⟩
  | movRmImm p d imm =>
    obtain ⟨h, himm⟩ := (Bool.and_eq_true ..).mp h
    exact ⟨.grpC7, .modrm rfl rfl h rfl nofun (Imm.bytes_length_wfW himm),
      by simp [Instr.latch, OpForm.build, RM.ofLatch_modrmLatch (wfModrm_rm h)]⟩
  | leaRM p r m =>
    exact ⟨.lea8D, .modrm rfl rfl h rfl (fun _ => rfl) rfl,
      by simp [Instr.latch, OpForm.build, MemForm.ofLatch_modrmLatch (wfModrm_rm h)]⟩
  | jmpRel8 rel => exact ⟨.jmp8, .plain rfl rfl rfl rfl, by simp [Instr.latch, OpForm.build]⟩
  | jmpRel32 rel => exact ⟨.jmp32, .plain rfl rfl rfl rfl, by simp [Instr.latch, OpForm.build]⟩
  | jcc8 c rel =>
    rw [instrJcc8_latch]
    exact ⟨.jcc8 c, .plain (oneByteForm_jcc8 c) rfl rfl rfl, by simp [OpForm.build]⟩
  | jcc32 c rel =>
    rw [instrJcc32_latch]
    exact ⟨.jcc32 c, .escape (twoByteForm_jcc32 c) rfl rfl rfl, by simp [OpForm.build]⟩
  | callRel32 rel => exact ⟨.call32, .plain rfl rfl rfl rfl, by simp [Instr.latch, OpForm.build]⟩
  | ret => exact ⟨.ret, .plain rfl rfl rfl rfl, rfl⟩
  | syscall => exact ⟨.syscall, .escape rfl rfl rfl rfl, rfl⟩

/-- The decoder reads an encoded instruction back, with its latch, and leaves the bytes after it (R90 to R112). -/
theorem decode_encode {i : Instr} (h : i.wf = true) (rest : List Byte) :
    decode (encode i ++ rest) = .ok (i.latch, i) rest := by
  obtain ⟨f, hf, hb⟩ := exists_form h
  rw [encode, hf.decode_bytes, hb]

theorem encode_length_le {i : Instr} (h : i.wf = true) : (encode i).length ≤ maxLen := by
  obtain ⟨f, hf, -⟩ := exists_form h
  exact hf.length_le

namespace Machine

/-- Fetch and decode find the instruction whose encoding is the executable bytes at `pc` (R92, R93). -/
theorem decodeAt_of_codeIs {s : State} {i : Instr} (hi : i.wf = true) (hc : s.codeIs (encode i)) :
    decodeAt s.mem s.cpu.pc =
      .insn { programCounter := s.cpu.pc, rawBytes := encode i, latch := i.latch, instr := i } := by
  obtain ⟨more, hm⟩ := codeBytes_starts (encode i) s.cpu.pc maxLen hc (encode_length_le hi)
  simp [decodeAt, hm, decode_encode hi, consumed]

/-- Settles O12: the fetched bytes start with the encoding, and the decoder reads it back. -/
theorem stepRunsTheDecodedInstruction : Obligations.StepRunsTheDecodedInstruction := by
  intro s i hs hi hc
  rw [step_running hs, decodeAt_of_codeIs hi hc]

end Machine

end Sys2Proof
end

/-! # Register views, flags word, vector views, launch -/

section
namespace Sys2Proof.Machine

/-! ## Register views (R23 to R25) -/

theorem writeView_w16_getLsbD (old : Word) (v : BitVec 16) (b : Nat) (hb : b < 64) :
    (writeView .w16 old v).getLsbD b = if b < 16 then v.getLsbD b else old.getLsbD b := by
  rw [writeView, BitVec.getLsbD_append]
  split
  · rfl
  · rw [BitVec.getLsbD_extractLsb', show 16 + (b - 16) = b by omega]
    simp [show b - 16 < 48 by omega]

theorem writeView_l8_getLsbD (old : Word) (v : BitVec 8) (b : Nat) (hb : b < 64) :
    (writeView .l8 old v).getLsbD b = if b < 8 then v.getLsbD b else old.getLsbD b := by
  rw [writeView, BitVec.getLsbD_append]
  split
  · rfl
  · rw [BitVec.getLsbD_extractLsb', show 8 + (b - 8) = b by omega]
    simp [show b - 8 < 56 by omega]

theorem writeView_h8_getLsbD (old : Word) (v : BitVec 8) (b : Nat) (hb : b < 64) :
    (writeView .h8 old v).getLsbD b = if 8 ≤ b ∧ b < 16 then v.getLsbD (b - 8) else old.getLsbD b := by
  rw [writeView, BitVec.getLsbD_append, BitVec.getLsbD_append]
  by_cases h8 : b < 8
  · simp [h8, show ¬ 8 ≤ b by omega]
  · by_cases h16 : b < 16
    · simp [h8, h16, show b - 8 < 8 by omega, show 8 ≤ b by omega]
    · simp only [h8, h16, show ¬ b - 8 < 8 by omega, BitVec.getLsbD_extractLsb', and_false, if_false]
      rw [show 16 + (b - 8 - 8) = b by omega]
      simp [show b - 8 - 8 < 48 by omega]

/-- Settles O51: a write reads back as `writeView`, whose bits are those above. -/
theorem registerViewRules : Obligations.RegisterViewRules := by
  intro s n
  refine ⟨⟨rfl, ?_, ?_, ?_, ?_⟩, fun v => ?_, fun v => ?_, fun v b hb => ?_, fun v b hb => ⟨?_, ?_⟩,
    fun k v m hm => State.regWrite_x_ne s k v hm⟩
  · exact (BitVec.setWidth_eq_extractLsb' (by decide : 32 ≤ 64)).symm
  · exact (BitVec.setWidth_eq_extractLsb' (by decide : 16 ≤ 64)).symm
  · exact (BitVec.setWidth_eq_extractLsb' (by decide : 8 ≤ 64)).symm
  · rfl
  · rw [State.regWrite_x_same]; rfl
  · rw [State.regWrite_x_same, writeView, BitVec.toNat_setWidth]
    exact Nat.mod_eq_of_lt (v.isLt.trans (by decide))
  · rw [State.regWrite_x_same, writeView_w16_getLsbD _ _ _ hb]
  · rw [State.regWrite_x_same, writeView_l8_getLsbD _ _ _ hb]
  · rw [State.regWrite_x_same, writeView_h8_getLsbD _ _ _ hb]

/-! ## Register selection (R27, R95, R106, R107, R131) -/

theorem sel8_without_rex (n : RegNum) :
    sel8 n false = if 4 ≤ n.val ∧ n.val ≤ 7 then (n - 4, .h8) else (n, .l8) := by simp [sel8]

theorem sel8_with_rex (n : RegNum) : sel8 n true = (n, .l8) := by simp [sel8]

theorem rexByte_toNat : ∀ b : Byte, isRexByte b = true →
    b.toNat = 64 + 8 * (Rex.ofByte b).w.toNat + 4 * (Rex.ofByte b).r.toNat + 2 * (Rex.ofByte b).x.toNat +
      (Rex.ofByte b).b.toNat := by decide

theorem osz_cases (p : Pfx) : (p.bits.w = true → p.osz = .o64) ∧
    (p.bits.w = false → .opsize ∈ p.legacy → p.osz = .o16) ∧
    (p.bits.w = false → .opsize ∉ p.legacy → p.osz = .o32) :=
  ⟨fun hw => by simp [Pfx.osz, hw], fun hw hl => by simp [Pfx.osz, Pfx.opsz16, hw, hl],
    fun hw hl => by simp [Pfx.osz, Pfx.opsz16, hw, hl]⟩

theorem regNum_val : ∀ (e : Bool) (low : BitVec 3), (regNum e low).val = 8 * e.toNat + low.toNat := by decide

/-- Settles O52: each clause is one fact about the fields or the definition of the operand. -/
theorem registerSelection : Obligations.RegisterSelection := by
  refine ⟨sel8_without_rex, sel8_with_rex, fun p hp => ?_, rexByte_toNat, fun p => ⟨fun hp => ?_, fun x hp => ?_⟩,
    osz_cases, regNum_val, fun p n => ⟨rfl, rfl, rfl, rfl⟩, fun p k f => ⟨rfl, rfl, rfl, rfl, rfl⟩⟩
  all_goals simp [Pfx.rexPresent, Pfx.bits, hp]

/-! ## The packed flags word (R31, R32) -/

theorem flagAt_getLsbD (b : Bool) {i : Nat} (hi : i < 64) (j : Nat) :
    (flagAt b i).getLsbD j = (decide (j = i) && b) := by
  rw [flagAt, BitVec.getLsbD_shiftLeft, BitVec.getLsbD_setWidth, BitVec.getLsbD_ofBool]
  rcases Nat.lt_trichotomy j i with h | rfl | h
  · simp [h, h.ne]
  · simp [hi]
  · simp [h.ne', show j - i ≠ 0 by omega]

theorem flags_pack_getLsbD (f : Flags) (j : Nat) : f.pack.getLsbD j =
    (decide (j = 0) && f.CF || decide (j = 2) && f.PF || decide (j = 4) && f.AF || decide (j = 6) && f.ZF ||
      decide (j = 7) && f.SF || decide (j = 10) && f.DF || decide (j = 11) && f.OF || decide (j = 18) && f.AC ||
      decide (j = 21) && f.ID) := by
  simp only [Flags.pack, BitVec.getLsbD_or, flagAt_getLsbD _ (show 0 < 64 by decide),
    flagAt_getLsbD _ (show 2 < 64 by decide), flagAt_getLsbD _ (show 4 < 64 by decide),
    flagAt_getLsbD _ (show 6 < 64 by decide), flagAt_getLsbD _ (show 7 < 64 by decide),
    flagAt_getLsbD _ (show 10 < 64 by decide), flagAt_getLsbD _ (show 11 < 64 by decide),
    flagAt_getLsbD _ (show 18 < 64 by decide), flagAt_getLsbD _ (show 21 < 64 by decide)]

/-- Unpacking finds the flags whatever the other bits are (R32). -/
theorem flagsOfWord_pack (f : Flags) (w : Word) : flagsOfWord (w &&& ~~~ Config.flagBits ||| f.pack) = f := by
  simp only [flagsOfWord, BitVec.getLsbD_or, flags_pack_getLsbD]
  simp [Config.flagBits]

/-- A flag set above all bits of a word adds its place value. -/
theorem toNat_or_flagAt {w : Word} {i n : Nat} (b : Bool) (hw : w.toNat = n) (hn : n < 2 ^ i) (hi : i < 64) :
    (w ||| flagAt b i).toNat = n + 2 ^ i * b.toNat := by
  have hb := b.toNat_le
  have hlt : b.toNat * 2 ^ i < 2 ^ 64 :=
    (Nat.mul_le_mul_right _ hb).trans_lt (by rw [Nat.one_mul]; exact Nat.pow_lt_pow_right (by decide) hi)
  have hflag : (flagAt b i).toNat = 2 ^ i * b.toNat := by
    rw [flagAt, BitVec.toNat_shiftLeft, BitVec.toNat_setWidth, BitVec.toNat_ofBool, Nat.shiftLeft_eq,
      Nat.mod_eq_of_lt (a := b.toNat) (by omega), Nat.mod_eq_of_lt hlt, Nat.mul_comm]
  rw [BitVec.toNat_or, hflag, hw, Nat.or_comm, ← Nat.two_pow_add_eq_or_of_lt hn, Nat.add_comm]

theorem flags_pack_toNat (f : Flags) : f.pack.toNat = f.CF.toNat + 4 * f.PF.toNat + 16 * f.AF.toNat +
    64 * f.ZF.toNat + 128 * f.SF.toNat + 1024 * f.DF.toNat + 2048 * f.OF.toNat + 2 ^ 18 * f.AC.toNat +
    2 ^ 21 * f.ID.toNat := by
  obtain ⟨CF, PF, AF, ZF, SF, DF, OF, AC, ID⟩ := f
  have bCF := CF.toNat_le
  have bPF := PF.toNat_le
  have bAF := AF.toNat_le
  have bZF := ZF.toNat_le
  have bSF := SF.toNat_le
  have bDF := DF.toNat_le
  have bOF := OF.toNat_le
  have bAC := AC.toNat_le
  have hCF : (flagAt CF 0).toNat = CF.toNat := by cases CF <;> rfl
  have hPF := toNat_or_flagAt (i := 2) PF hCF (by omega) (by decide)
  have hAF := toNat_or_flagAt (i := 4) AF hPF (by omega) (by decide)
  have hZF := toNat_or_flagAt (i := 6) ZF hAF (by omega) (by decide)
  have hSF := toNat_or_flagAt (i := 7) SF hZF (by omega) (by decide)
  have hDF := toNat_or_flagAt (i := 10) DF hSF (by omega) (by decide)
  have hOF := toNat_or_flagAt (i := 11) OF hDF (by omega) (by decide)
  have hAC := toNat_or_flagAt (i := 18) AC hOF (by omega) (by decide)
  have hID := toNat_or_flagAt (i := 21) ID hAC (by omega) (by decide)
  exact hID

/-- Settles O53: each flag's bit is clear outside `pack`, and `pack` sets the flags in rising order of place. -/
theorem flagsWordPacksAndUnpacks : Obligations.FlagsWordPacksAndUnpacks :=
  ⟨fun f => flagsOfWord_pack f Config.flagsFixedMask, flagsOfWord_pack, flags_pack_toNat⟩

/-! ## Reset and launch (R43) -/

theorem reset_vecCanonical : vecCanonical State.reset.cpu := by
  intro j
  have hj : State.reset.cpu.vreg[j.val] = 0 := Vector.getElem_replicate ..
  exact ⟨fun _ => hj, fun b _ => by rw [hj]; exact BitVec.getLsbD_zero⟩

/-- Settles O18: no region, and every vector register 0. -/
theorem resetMeetsTheInvariant : Obligations.ResetMeetsTheInvariant := ⟨reset_mem_wf, reset_vecCanonical⟩

theorem launch_x (l : Launch) (n : RegNum) : (State.launch l).x n = if n = rsp then l.rsp else l.gpr[n.val] :=
  State.setX_x { State.launch l with cpu := { (State.launch l).cpu with x := l.gpr } } rsp n l.rsp

/-- Settles O57: the fields of `State.launch`; only rsp is not the register file's own. -/
theorem launchValues : Obligations.LaunchValues := by
  intro l
  refine ⟨rfl, ?_, fun n hn => ?_, rfl, rfl, rfl, rfl, rfl, rfl, rfl, rfl, rfl, rfl⟩
  · rw [launch_x, if_pos rfl]
  · rw [launch_x, if_neg hn]

/-! ## Vector views (R37, R38) -/

theorem vecViewExists_narrower {j : Fin 32} {u v : VecLen} (h : vecViewExists j v = true) (hu : u.bits ≤ v.bits) :
    vecViewExists j u = true := by
  simp only [vecViewExists, decide_eq_true_eq] at h ⊢
  exact ⟨h.1, hu.trans h.2⟩

theorem VecLen.bits_le (v : VecLen) : v.bits ≤ 512 := by cases v <;> decide

/-- The written register, bit by bit. -/
theorem vecWrite_getLsbD {c : CpuState} {j : Fin 32} {v : VecLen} (h : vecViewExists j v = true)
    (new : BitVec v.bits) {b : Nat} (hb : b < 512) :
    (vecWrite c j v new).vreg[j.val].getLsbD b =
      if b < v.bits then new.getLsbD b else match Config.VEC_NARROW_WRITE with
        | .preserve => c.vreg[j.val].getLsbD b
        | .zero => false := by
  rw [vecWrite, if_pos h]
  simp only [Vector.getElem_set_self, BitVec.getLsbD_or, BitVec.getLsbD_setWidth, hb, decide_true, Bool.true_and]
  by_cases hv : b < v.bits
  · cases Config.VEC_NARROW_WRITE <;> simp [hv]
  · have hnew : new.getLsbD b = false := BitVec.getLsbD_of_ge new b (by omega)
    have hsum : v.bits + (b - v.bits) = b := by omega
    cases Config.VEC_NARROW_WRITE <;> simp [hv, hb, hnew, hsum]

/-- Settles O59: the bits of the written register. -/
theorem vectorViewsShareOneStorage : Obligations.VectorViewsShareOneStorage := by
  intro c j v u new h hu
  refine ⟨?_, fun b hv hb => ?_, fun i hi => ?_⟩
  · rw [vecRead, if_pos (vecViewExists_narrower h hu), Option.some.injEq]
    apply BitVec.eq_of_getLsbD_eq
    intro b hb
    have hv : b < v.bits := by omega
    have := VecLen.bits_le v
    rw [BitVec.getLsbD_setWidth, BitVec.getLsbD_setWidth, vecWrite_getLsbD h new (by omega), if_pos hv]
  · exact (vecWrite_getLsbD h new hb).trans (if_neg (by omega))
  · have hne : j.val ≠ i.val := fun e => hi (Fin.ext e.symm)
    rw [vecWrite, if_pos h]
    exact Vector.getElem_set_ne j.isLt i.isLt hne

end Sys2Proof.Machine
end

/-! # What an instruction does to memory, and the invariant -/

section
namespace Sys2Proof.Machine

variable {s t : State}

/-! ## The memory of a completed instruction (R71, R221) -/

/-- What a meaning leaves in memory: what was there, that with one passing store at the instruction's access, or, for
SYSCALL, what the collaborator's operations make of it. -/
inductive MemoryAfter (access : Option MemAccess) (isSyscall : Prop) (s t : State) : Prop where
  | same (h : t.mem = s.mem)
  | stored (a : MemAccess) (v : BitVec a.size.bits) (ha : access = some a) (hw : a.writes = true)
      (hc : s.canWrite a.addr a.size) (h : t.mem = (s.stored a.addr a.size v).mem)
  | syscall (hi : isSyscall) (acts : List MemoryAction) (h : t.mem = s.mem.applyAll acts)

theorem stopAccess_next_mem {e : AccessStop} {bs : List Byte} (h : s.stopAccess bs e = .next t) : t.mem = s.mem := by
  cases e with
  | violation a k => cases h; rfl
  | refused r => cases h

/-- A written operand leaves memory as it was, or is in memory and stored to. -/
theorem writeOp_mem_cases {next : Word} {k : OSize} {o : Operand} {v : BitVec k.bits} {s' : State}
    (h : writeOp s next k o v = .ok s') :
    s'.mem = s.mem ∨
      ∃ m, o = .mem m ∧ s.canWrite (effAddr s next m) k ∧ s'.mem = (s.stored (effAddr s next m) k v).mem := by
  rcases writeOp_ok h with ⟨n, w, -, rfl⟩ | ⟨m, ho, rfl, hc⟩ | ⟨w, -, rfl⟩
  · exact .inl rfl
  · exact .inr ⟨m, ho, hc, rfl⟩
  · exact .inl rfl

/-- With the destination in memory, the instruction's access is the destination's. -/
theorem or_access_of_mem {s : State} {next : Word} {k : OSize} {src : Operand} {m : MemOperand} {r w r' w' : Bool}
    (hone : OneInMemory (.mem m) src) :
    (src.access s next k r w).or (Operand.access s next k r' w' (.mem m)) =
      some { addr := effAddr s next m, size := k, reads := r', writes := w' } := by
  rcases hone with ⟨n, v, h⟩ | ⟨n, v, rfl⟩ | ⟨v, rfl⟩
  · cases h
  · rfl
  · rfl

theorem Shape.run_memoryAfter {sh : Shape} {bs : List Byte} (hone : sh.oneAccess) (h : sh.run bs s = .next t) :
    MemoryAfter (sh.access s (s.nextPc bs)) (sh = .syscall) s t := by
  cases sh with
  | alu op k dst src =>
    rcases aluExec_cases op k dst src bs s with ⟨e, -, hr⟩ | ⟨a, b, s', -, -, hw, hr⟩
    · exact .same (stopAccess_next_mem (hr.symm.trans h))
    · cases hr.symm.trans h
      rcases hw with ⟨-, rfl⟩ | ⟨hop, hw⟩
      · exact .same rfl
      · rcases writeOp_mem_cases hw with hm | ⟨m, rfl, hc, hm⟩
        · exact .same hm
        · exact .stored _ _ (or_access_of_mem hone) (bne_iff_ne.mpr hop) hc hm
  | inc k dst =>
    rcases incExec_cases k dst bs s with ⟨e, -, hr⟩ | ⟨a, s', -, hw, hr⟩
    · exact .same (stopAccess_next_mem (hr.symm.trans h))
    · cases hr.symm.trans h
      rcases writeOp_mem_cases hw with hm | ⟨m, rfl, hc, hm⟩
      · exact .same hm
      · exact .stored _ _ rfl rfl hc hm
  | mov k dst src =>
    rcases movExec_cases k dst src bs s with ⟨e, -, hr⟩ | ⟨v, s', -, hw, hr⟩
    · exact .same (stopAccess_next_mem (hr.symm.trans h))
    · cases hr.symm.trans h
      rcases writeOp_mem_cases hw with hm | ⟨m, rfl, hc, hm⟩
      · exact .same hm
      · exact .stored _ _ (or_access_of_mem hone) rfl hc hm
  | lea rv m => cases h; exact .same rfl
  | jmp rel => cases h; exact .same rfl
  | jcc c rel =>
    cases (jccExec_eq c rel bs s).symm.trans h
    refine .same ?_
    split <;> rfl
  | call rel =>
    rcases execCallRel32_cases rel s with ⟨e, -, hr⟩ | ⟨ret, -, hc, hr⟩
    · exact .same (stopAccess_next_mem (hr.symm.trans h))
    · cases hr.symm.trans h
      refine .stored ⟨s.x rsp - 8, .o64, false, true⟩ ret rfl rfl hc ?_
      rw [State.redirectTo_mem, State.setX_mem]
  | ret =>
    rcases execRet_cases s with ⟨e, -, hr⟩ | ⟨target, -, hr⟩
    · exact .same (stopAccess_next_mem (hr.symm.trans h))
    · cases hr.symm.trans h; exact .same rfl
  | syscall => cases h; exact .syscall rfl _ (syscallWith_ends ..).2.1

/-- What an instruction does to memory. -/
theorem exec_memoryAfter {i : Instr} (h : exec i s = .next t) : MemoryAfter (memAccess i s) (i = .syscall) s t := by
  obtain ⟨sh, hi⟩ := exists_shape i
  rw [hi.exec] at h
  rw [hi.access]
  cases sh.run_memoryAfter hi.oneAccess h with
  | same h => exact .same h
  | stored a v ha hw hc h => exact .stored a v ha hw hc h
  | syscall hsh acts h => exact .syscall (hi.syscall hsh) acts h

/-! ## The invariant (R61, R62, R37) -/

theorem MemoryAfter.wf {access : Option MemAccess} {isSyscall : Prop} (h : MemoryAfter access isSyscall s t)
    (hw : s.mem.wf) : t.mem.wf := by
  cases h with
  | same h => exact h ▸ hw
  | stored a v ha hwr hc h => exact h ▸ State.stored_wf hw
  | syscall hi acts h => exact h ▸ Memory.applyAll_wf hw acts

theorem vecCanonical_of_vreg {c d : CpuState} (h : vecCanonical c) (hv : d.vreg = c.vreg) : vecCanonical d := by
  unfold vecCanonical; rw [hv]; exact h

theorem exec_inv {i : Instr} (hs : s.Inv) (h : exec i s = .next t) : t.Inv := by
  obtain ⟨-, -, hvreg, -⟩ := segmentBasesVectorsAndRegionsUnchanged i s t h
  exact ⟨(exec_memoryAfter h).wf hs.1, vecCanonical_of_vreg hs.2 hvreg⟩

/-- Settles O17: a Trap of the decoder changes neither memory nor the vector file, and every meaning keeps both
canonical. -/
theorem stepKeepsTheInvariant : Obligations.StepKeepsTheInvariant := by
  intro s t hs h
  obtain ⟨-, ⟨i, l, hx⟩ | ⟨k, info, rfl, -⟩⟩ := step_next_cases h
  · exact exec_inv (s := s.setLatch l) hs hx
  · exact hs

/-! ## Runs (R243, R246, R247) -/

/-- A write through a vector view reaches only a register that exists, and only its bits that exist (R37, R38). -/
theorem vecWrite_canonical {c : CpuState} (h : vecCanonical c) (j : Fin 32) (v : VecLen) (new : BitVec v.bits) :
    vecCanonical (vecWrite c j v new) := by
  cases hv : vecViewExists j v with
  | false => simpa [vecWrite, hv] using h
  | true =>
    obtain ⟨hj, hlen⟩ : j.val < Config.NVEC ∧ v.bits ≤ Config.VLEN.bits := by simpa [vecViewExists] using hv
    intro i
    by_cases hi : i = j
    · subst hi
      refine ⟨fun hn => by omega, fun b hb => ?_⟩
      by_cases hb' : b < 512
      · rw [vecWrite_getLsbD hv new hb', if_neg (by omega)]
        cases Config.VEC_NARROW_WRITE
        · exact (h i).2 b hb
        · rfl
      · exact BitVec.getLsbD_of_ge _ b (by omega)
    · obtain ⟨-, -, hother⟩ := vectorViewsShareOneStorage c j v v new hv (Nat.le_refl _)
      rw [hother i hi]
      exact h i

theorem hostAction_inv (hs : s.Inv) {a : HostAction} (ha : a.ok) : (a.apply s).Inv := by
  refine ⟨hostAction_wf hs.1 a, ?_⟩
  cases a with
  | writeVec j v new => exact vecWrite_canonical hs.2 j v new
  | swap c => exact ha
  | redirect t => exact hs.2
  | writeReg n v new => exact hs.2
  | setFlags f => exact hs.2
  | setFlagsWord w => exact hs.2
  | setFsBase v => exact hs.2
  | setGsBase v => exact hs.2
  | memory m => exact hs.2

theorem applyHost_inv (hs : s.Inv) {acts : List HostAction} (ha : ∀ a ∈ acts, a.ok) : (applyHost acts s).Inv := by
  unfold applyHost
  induction acts generalizing s with
  | nil => exact hs
  | cons a acts ih =>
    exact ih (hostAction_inv hs (ha a (List.mem_cons_self ..))) fun b hb => ha b (List.mem_cons_of_mem _ hb)

/-- A step's recorded outcome: a next state, or the state before with at most the refusal mark set. -/
theorem settle_step_inv (hs : s.Inv) : (settle s (step s)).Inv := by
  cases h : step s with
  | next t => exact stepKeepsTheInvariant s t hs h
  | refused r => exact hs
  | fault f => exact hs

theorem turn_inv (hs : s.Inv) {acts : List HostAction} (ha : ∀ a ∈ acts, a.ok) : (turn s acts).Inv := by
  rcases turn_cases s acts with h | h <;> rw [h]
  · exact settle_step_inv hs
  · exact applyHost_inv (settle_step_inv hs) ha

theorem runWith_inv (hs : s.Inv) {schedule : List (List HostAction)} (ha : ∀ acts ∈ schedule, ∀ a ∈ acts, a.ok) :
    (runWith s schedule).Inv := by
  unfold runWith
  induction schedule generalizing s with
  | nil => exact hs
  | cons acts schedule ih =>
    exact ih (turn_inv hs (ha acts (List.mem_cons_self ..))) fun b hb => ha b (List.mem_cons_of_mem _ hb)

/-- Settles O19: the launch state meets the invariant, and every turn keeps it. -/
theorem everyRunKeepsTheInvariant : Obligations.EveryRunKeepsTheInvariant :=
  fun l _ hl ha => runWith_inv (s := .launch l) hl ha

/-! ## Frames -/

/-- Settles O26: memory is as it was, or that with the store of the instruction's access. -/
theorem bytesOutsideTheStoreUnchanged : Obligations.BytesOutsideTheStoreUnchanged := by
  intro i s t hi h
  cases exec_memoryAfter h with
  | same h =>
    have hsame : SameBytes s t := fun b => by rw [h]
    split
    · split
      · exact fun b _ => hsame b
      · exact hsame
    · exact hsame
  | stored a v ha hw hc h =>
    simp only [ha, hw, if_true]
    intro b hb
    rw [h]
    exact s.stored_outside v b hb
  | syscall hi' => exact absurd hi' hi

theorem executable_of_regions {m n : Memory} (h : m.regions = n.regions) (a : Word) :
    m.executable a = n.executable a := by
  rw [Memory.executable, Memory.executable, Memory.regionAt_of_regions h]

/-- Settles O28: the region map is as it was, and a store passes only where no byte is executable. -/
theorem executableBytesNeverChange : Obligations.ExecutableBytesNeverChange := by
  intro i s t b hi h hx
  obtain ⟨-, -, -, -, hregions⟩ := segmentBasesVectorsAndRegionsUnchanged i s t h
  refine ⟨(executable_of_regions (hregions hi) b).trans hx, ?_⟩
  cases exec_memoryAfter h with
  | same h => rw [h]
  | stored a v ha hw hc h =>
    rw [h]
    refine s.stored_outside v b fun j hj hb => ?_
    simp [hb, (hc.2 j hj).2] at hx
  | syscall hi' => exact absurd hi' hi

end Sys2Proof.Machine
end

/-! # Accesses that fail or are refused -/

section
namespace Sys2Proof.Machine

variable {s t : State} {k : OSize} {bs : List Byte} {e : AccessStop} {a : MemAccess}

/-! ## The bytes a Trap records (R233) -/

/-- A Trap of a meaning records the bytes `bs`. -/
structure RecordsBytes (bs : List Byte) (r : StepResult) : Prop where
  bytes : ∀ t tr, r = .next t → t.port = .trapped tr → tr.info.bytes = bs

theorem stopAccess_recordsBytes (s : State) (bs : List Byte) (e : AccessStop) :
    RecordsBytes bs (s.stopAccess bs e) := by
  refine ⟨fun t tr h hp => ?_⟩
  cases e with
  | violation a k => cases h; cases hp; rfl
  | refused r => cases h

theorem recordsBytes_of_not_trapped (ht : t.isTrapped = false) : RecordsBytes bs (.next t) := by
  refine ⟨fun t' tr h hp => ?_⟩
  cases h
  simp [State.isTrapped, hp] at ht

theorem aluExec_recordsBytes (op : AluOp) (k : OSize) (dst src : Operand) (bs : List Byte) (s : State) :
    RecordsBytes bs (aluExec op k dst src bs s) := by
  rcases aluExec_cases op k dst src bs s with ⟨e, -, hr⟩ | ⟨a, b, s', -, -, -, hr⟩ <;> rw [hr]
  · exact stopAccess_recordsBytes s bs e
  · exact recordsBytes_of_not_trapped rfl

theorem incExec_recordsBytes (k : OSize) (dst : Operand) (bs : List Byte) (s : State) :
    RecordsBytes bs (incExec k dst bs s) := by
  rcases incExec_cases k dst bs s with ⟨e, -, hr⟩ | ⟨a, s', -, -, hr⟩ <;> rw [hr]
  · exact stopAccess_recordsBytes s bs e
  · exact recordsBytes_of_not_trapped rfl

theorem movExec_recordsBytes (k : OSize) (dst src : Operand) (bs : List Byte) (s : State) :
    RecordsBytes bs (movExec k dst src bs s) := by
  rcases movExec_cases k dst src bs s with ⟨e, -, hr⟩ | ⟨v, s', -, -, hr⟩ <;> rw [hr]
  · exact stopAccess_recordsBytes s bs e
  · exact recordsBytes_of_not_trapped rfl

theorem jccExec_recordsBytes (c : Cond) (rel : Word) (bs bs' : List Byte) (s : State) :
    RecordsBytes bs (jccExec c rel bs' s) := by
  rw [jccExec_eq]
  split
  · exact recordsBytes_of_not_trapped rfl
  · exact recordsBytes_of_not_trapped rfl

/-- A Trap of an instruction's meaning records the instruction's own bytes. -/
theorem exec_recordsBytes (i : Instr) (s : State) : RecordsBytes (encode i) (exec i s) := by
  cases i using Instr.familyCases with
  | alu80 op p d imm => exact exec_instr80 op p d imm s ▸ aluExec_recordsBytes ..
  | alu81 op p d imm => exact exec_instr81 op p d imm s ▸ aluExec_recordsBytes ..
  | alu83 op p d imm => exact exec_instr83 op p d imm s ▸ aluExec_recordsBytes ..
  | xorRm8R8 p d r => exact aluExec_recordsBytes .xor .o8 (rmOperand p .o8 d) (regField p .o8 r) ..
  | xorRmR p d r => exact aluExec_recordsBytes .xor p.osz (rmOperand p p.osz d) (regField p p.osz r) ..
  | xorR8Rm8 p r m => exact aluExec_recordsBytes .xor .o8 (regField p .o8 r) (rmOperand p .o8 m) ..
  | xorRRm p r m => exact aluExec_recordsBytes .xor p.osz (regField p p.osz r) (rmOperand p p.osz m) ..
  | incRm8 p d => exact incExec_recordsBytes ..
  | incRm p d => exact incExec_recordsBytes ..
  | movRm8R8 p d r => exact movExec_recordsBytes .o8 (rmOperand p .o8 d) (regField p .o8 r) ..
  | movRmR p d r => exact movExec_recordsBytes p.osz (rmOperand p p.osz d) (regField p p.osz r) ..
  | movR8Rm8 p r m => exact movExec_recordsBytes .o8 (regField p .o8 r) (rmOperand p .o8 m) ..
  | movRRm p r m => exact movExec_recordsBytes p.osz (regField p p.osz r) (rmOperand p p.osz m) ..
  | movR8Imm8 p r imm => exact movExec_recordsBytes .o8 (opcodeReg p .o8 r) (immOperand (k := .o8) imm) ..
  | movRImm p r imm => exact movExec_recordsBytes p.osz (opcodeReg p p.osz r) (immOperand (immValue p.osz imm)) ..
  | movRm8Imm8 p d imm => exact movExec_recordsBytes .o8 (rmOperand p .o8 d) (immOperand (k := .o8) imm) ..
  | movRmImm p d imm => exact movExec_recordsBytes p.osz (rmOperand p p.osz d) (immOperand (immValue p.osz imm)) ..
  | leaRM p r m => exact recordsBytes_of_not_trapped rfl
  | jmpRel8 rel => exact recordsBytes_of_not_trapped rfl
  | jmpRel32 rel => exact recordsBytes_of_not_trapped rfl
  | jcc8 c rel => exact exec_instrJcc8 c rel s ▸ jccExec_recordsBytes ..
  | jcc32 c rel => exact exec_instrJcc32 c rel s ▸ jccExec_recordsBytes ..
  | callRel32 rel =>
    show RecordsBytes _ (execCallRel32 rel s)
    rcases execCallRel32_cases rel s with ⟨e, -, hr⟩ | ⟨ret, -, -, hr⟩ <;> rw [hr]
    · exact stopAccess_recordsBytes ..
    · exact recordsBytes_of_not_trapped rfl
  | ret =>
    show RecordsBytes _ (execRet s)
    rcases execRet_cases s with ⟨e, -, hr⟩ | ⟨target, -, hr⟩ <;> rw [hr]
    · exact stopAccess_recordsBytes ..
    · exact recordsBytes_of_not_trapped rfl
  | syscall => exact recordsBytes_of_not_trapped (syscallWith_completes ..).not_trapped

/-- A meaning that a stopped access ends is ended by it with the instruction's own bytes. -/
theorem exec_stopAccess {i : Instr} (h : exec i s = s.stopAccess bs e) : exec i s = s.stopAccess (encode i) e := by
  cases e with
  | violation a k =>
    obtain rfl : bs = encode i := (exec_recordsBytes i s).bytes _ _ h rfl
    exact h
  | refused r => exact h

/-! ## The access that stops a meaning (R69, R71) -/

/-- The access of two operands of which at most one is in memory is the source's or the destination's. -/
theorem operands_access {dst src : Operand} {next : Word} {r w r' w' : Bool} (hone : OneInMemory dst src)
    (h : (src.access s next k r w).or (dst.access s next k r' w') = some a) :
    (∃ m n v, src = .mem m ∧ dst = .reg n v ∧ a = ⟨effAddr s next m, k, r, w⟩) ∨
      ∃ m b, dst = .mem m ∧ readOp s next k src = .ok b ∧ a = ⟨effAddr s next m, k, r', w'⟩ := by
  cases src with
  | mem m =>
    rcases hone with ⟨n, v, rfl⟩ | ⟨n, v, hs⟩ | ⟨v, hs⟩
    · cases h; exact .inl ⟨m, n, v, rfl, rfl, rfl⟩
    · cases hs
    · cases hs
  | reg n v =>
    cases dst with
    | mem m => cases h; exact .inr ⟨m, _, rfl, rfl, rfl⟩
    | reg n v => cases h
    | imm v => cases h
  | imm v =>
    cases dst with
    | mem m => cases h; exact .inr ⟨m, _, rfl, rfl, rfl⟩
    | reg n v => cases h
    | imm v => cases h

theorem operand_access {o : Operand} {next : Word} {r w : Bool} (h : o.access s next k r w = some a) :
    ∃ m, o = .mem m ∧ a = ⟨effAddr s next m, k, r, w⟩ := by
  cases o with
  | mem m => cases h; exact ⟨m, rfl, rfl⟩
  | reg n v => cases h
  | imm v => cases h

/-- A read that stops ends the meaning (R69). -/
theorem Shape.run_read_stops {sh : Shape} (hone : sh.oneAccess) (ha : sh.access s (s.nextPc bs) = some a)
    (hr : a.reads = true) (he : s.memRead a.addr a.size = .error e) : ∃ bs', sh.run bs s = s.stopAccess bs' e := by
  cases sh with
  | alu op k dst src =>
    refine ⟨bs, ?_⟩
    rcases operands_access hone ha with ⟨m, n, v, rfl, rfl, rfl⟩ | ⟨m, b, rfl, -, rfl⟩
    · simp only [Shape.run, aluExec, readOp_reg, readOp_mem, he]
    · simp only [Shape.run, aluExec, readOp_mem, he]
  | inc k dst =>
    obtain ⟨m, rfl, rfl⟩ := operand_access ha
    exact ⟨bs, by simp only [Shape.run, incExec, readOp_mem, he]⟩
  | mov k dst src =>
    rcases operands_access hone ha with ⟨m, n, v, rfl, rfl, rfl⟩ | ⟨m, b, rfl, -, rfl⟩
    · exact ⟨bs, by simp only [Shape.run, movExec, readOp_mem, he]⟩
    · cases hr
  | ret => cases ha; exact ⟨encode .ret, by simp only [Shape.run, execRet, he]⟩
  | call rel => cases ha; cases hr
  | lea rv m => cases ha
  | jmp rel => cases ha
  | jcc c rel => cases ha
  | syscall => cases ha

/-- A write that stops ends the meaning, after the read of the same operand, if any, has passed (R69). -/
theorem Shape.run_write_stops {sh : Shape} (hone : sh.oneAccess) (ha : sh.access s (s.nextPc bs) = some a)
    (hw : a.writes = true) (hr : a.reads = true → s.canRead a.addr a.size)
    (he : ∀ v, s.memWrite a.addr a.size v = .error e) : ∃ bs', sh.run bs s = s.stopAccess bs' e := by
  cases sh with
  | alu op k dst src =>
    rcases operands_access hone ha with ⟨m, n, v, rfl, rfl, rfl⟩ | ⟨m, b, rfl, hb, rfl⟩
    · cases hw
    · obtain ⟨v, hv⟩ := memRead_of_canRead (hr rfl)
      exact ⟨bs, by simp only [Shape.run, aluExec, readOp_mem, hv, hb, if_neg (bne_iff_ne.mp hw), writeOp_mem, he]⟩
  | inc k dst =>
    obtain ⟨m, rfl, rfl⟩ := operand_access ha
    obtain ⟨v, hv⟩ := memRead_of_canRead (hr rfl)
    exact ⟨bs, by simp only [Shape.run, incExec, readOp_mem, hv, writeOp_mem, he]⟩
  | mov k dst src =>
    rcases operands_access hone ha with ⟨m, n, v, rfl, rfl, rfl⟩ | ⟨m, b, rfl, hb, rfl⟩
    · cases hw
    · exact ⟨bs, by simp only [Shape.run, movExec, hb, writeOp_mem, he]⟩
  | call rel => cases ha; exact ⟨encode (.callRel32 rel), by simp only [Shape.run, execCallRel32, he]⟩
  | ret => cases ha; cases hw
  | lea rv m => cases ha
  | jmp rel => cases ha
  | jcc c rel => cases ha
  | syscall => cases ha

theorem exec_read_stops {i : Instr} (ha : memAccess i s = some a) (hr : a.reads = true)
    (he : s.memRead a.addr a.size = .error e) : exec i s = s.stopAccess (encode i) e := by
  obtain ⟨sh, hi⟩ := exists_shape i
  obtain ⟨bs, h⟩ := sh.run_read_stops hi.oneAccess (hi.access s ▸ ha) hr he
  exact exec_stopAccess ((hi.exec s).trans h)

theorem exec_write_stops {i : Instr} (ha : memAccess i s = some a) (hw : a.writes = true)
    (hr : a.reads = true → s.canRead a.addr a.size) (he : ∀ v, s.memWrite a.addr a.size v = .error e) :
    exec i s = s.stopAccess (encode i) e := by
  obtain ⟨sh, hi⟩ := exists_shape i
  obtain ⟨bs, h⟩ := sh.run_write_stops hi.oneAccess (hi.access s ▸ ha) hw hr he
  exact exec_stopAccess ((hi.exec s).trans h)

/-- Every access of an instruction reads or writes (R71). -/
theorem memAccess_reads_or_writes {i : Instr} (ha : memAccess i s = some a) : a.reads = true ∨ a.writes = true := by
  obtain ⟨sh, hi⟩ := exists_shape i
  have hone := hi.oneAccess
  rw [hi.access] at ha
  cases sh with
  | alu op k dst src =>
    rcases operands_access hone ha with ⟨m, n, v, -, -, rfl⟩ | ⟨m, b, -, -, rfl⟩
    · exact .inl rfl
    · exact .inl rfl
  | inc k dst =>
    obtain ⟨m, -, rfl⟩ := operand_access ha
    exact .inl rfl
  | mov k dst src =>
    rcases operands_access hone ha with ⟨m, n, v, -, -, rfl⟩ | ⟨m, b, -, -, rfl⟩
    · exact .inl rfl
    · exact .inr rfl
  | call rel => cases ha; exact .inr rfl
  | ret => cases ha; exact .inl rfl
  | lea rv m => cases ha
  | jmp rel => cases ha
  | jcc c rel => cases ha
  | syscall => cases ha

/-- Settles O30: the read stops at its first byte that is not readable, and ends the meaning. -/
theorem failedReadTraps : Obligations.FailedReadTraps :=
  fun _ _ _ n ha hr hal hn hb hf => exec_read_stops ha hr (State.memRead_violation hal n hn hb hf)

/-- Settles O31: the write stops at its first byte that is not writable, and ends the meaning. -/
theorem failedWriteTraps : Obligations.FailedWriteTraps :=
  fun _ _ _ n ha hw hr hal hn hb hf => exec_write_stops ha hw hr fun v => State.memWrite_violation v hal n hn hb hf

/-- Settles O32: the read is refused, or the write where nothing is read. -/
theorem misalignedAccessUnderACRefused : Obligations.MisalignedAccessUnderACRefused := by
  intro i s a ha hac hmis
  by_cases hr : a.reads = true
  · exact exec_read_stops ha hr (State.memRead_misaligned hac hmis)
  · exact exec_write_stops ha ((memAccess_reads_or_writes ha).resolve_left hr) (fun h => absurd h hr) fun v =>
      State.memWrite_misaligned v hac hmis

/-- Settles O33: the write is refused for the executable byte, and ends the meaning. -/
theorem storeIntoCodeRefused : Obligations.StoreIntoCodeRefused :=
  fun _ _ _ n ha hw hr hal hn hb hx => exec_write_stops ha hw hr fun v => State.memWrite_code v hal hb n hn hx

end Sys2Proof.Machine
end

/-! # Reads and writes of memory, MOV from memory -/

section
namespace Sys2Proof.Machine

variable {s t : State} {k : OSize}

/-- Settles O55: a read that passes returns the value that is there, and the other ends are errors. -/
theorem readAssemblesLittleEndian : Obligations.ReadAssemblesLittleEndian := by
  refine fun s a k v => ⟨fun h => ?_, fun ⟨hc, hv⟩ => State.memRead_passes hc hv⟩
  rcases s.memRead_cases a k with ⟨w, hw, hc, hv⟩ | ⟨hw, -⟩ | ⟨f, hw, -⟩ <;> cases hw.symm.trans h
  exact ⟨hc, hv⟩

/-- Settles O54: a write that passes is `State.stored`. -/
theorem readAfterWrite : Obligations.ReadAfterWrite := by
  intro s t a k v hwf h
  obtain ⟨rfl, hc⟩ := memWrite_ok h
  have hv := State.stored_holdsAt v hwf hc
  exact ⟨hv, s.stored_outside v, rfl, s.stored_regions v, fun hr => State.memRead_passes hr hv⟩

/-- An instruction whose meaning writes one register view and continues. -/
theorem writesReg_of_exec {i : Instr} {rv : RegNum × RegView} {v : BitVec rv.2.bits}
    (h : exec i s = .next ((s.regWrite rv.1 rv.2 v).continueAt (s.nextPc (encode i)))) :
    WritesReg i s ((s.regWrite rv.1 rv.2 v).continueAt (s.nextPc (encode i))) rv v := by
  refine ⟨h, s.regWrite_x_same rv.1 rv.2 v, fun n hn => ?_, fun _ => rfl, ⟨rfl, rfl, rfl, rfl, rfl, rfl, rfl⟩, rfl, rfl,
    rfl⟩
  exact s.regWrite_x_ne rv.2 v (List.mem_singleton.not.mp hn)

/-- MOV to a register from a source that is read (R181 to R183). -/
theorem movExec_reg {n : RegNum} {w : RegView} {src : Operand} {bs : List Byte} {v : BitVec k.bits}
    (hv : readOp s (s.nextPc bs) k src = .ok v) :
    movExec k (.reg n w) src bs s = .next ((s.regWrite n w (v.setWidth w.bits)).continueAt (s.nextPc bs)) := by
  simp only [movExec, hv, writeOp_reg]

/-- A MOV whose destination is a register view and whose source is read moves the value there. -/
theorem movesToReg_of_readOp {i : Instr} {rv : RegNum × RegView} {src : Operand} {v : BitVec k.bits}
    (hi : exec i s = movExec k (.reg rv.1 rv.2) src (encode i) s)
    (hv : readOp s (s.nextPc (encode i)) k src = .ok v) : MovesToReg i s k rv v :=
  ⟨_, writesReg_of_exec (hi.trans (movExec_reg hv)), rfl⟩

/-- Settles O43: the operand's bytes are read at the effective address, and moved to the register view. -/
theorem movFromMemory : Obligations.MovFromMemory :=
  fun p m r _ => ⟨fun _ hc hv => movesToReg_of_readOp (rv := regFieldView p .o8 r) (src := .mem (memOperand p m)) rfl
      (State.memRead_passes hc hv),
    fun _ hc hv => movesToReg_of_readOp (rv := regFieldView p p.osz r) (src := .mem (memOperand p m)) rfl
      (State.memRead_passes hc hv)⟩

end Sys2Proof.Machine
end

/-! # Canonical address spaces -/

section
namespace Sys2Proof

/-! ## Cells and reads (R62; log entry 5) -/

theorem lookupCell_of_mem {cs : List Host.Cell} (hs : cs.Pairwise fun c d => c.1 < d.1) {c : Host.Cell} (hc : c ∈ cs) :
    lookupCell c.1 cs = c.2 := by
  induction cs with
  | nil => cases hc
  | cons d ds ih =>
    obtain ⟨hd, hs⟩ := List.pairwise_cons.mp hs
    rcases List.mem_cons.mp hc with rfl | hc
    · exact if_pos rfl
    · exact (if_neg (hd c hc).ne).trans (ih hs hc)

/-- A byte that differs from `blankByte` is listed. -/
theorem mem_of_lookupCell {a : Nat} {cs : List Host.Cell} (h : lookupCell a cs ≠ blankByte) :
    (a, lookupCell a cs) ∈ cs := by
  induction cs with
  | nil => exact absurd rfl h
  | cons d ds ih =>
    rw [lookupCell] at h ⊢
    by_cases hd : d.1 = a
    · subst hd
      rw [if_pos rfl]
      exact List.mem_cons_self ..
    · rw [if_neg hd] at h ⊢
      exact List.mem_cons_of_mem _ (ih h)

namespace Memory

/-- A listed cell of a canonical address space is the byte that its address reads as. -/
theorem byteAt_of_mem_cells {m : Memory} (hw : m.wf) {c : Host.Cell} (hc : c ∈ m.cells) :
    (BitVec.ofNat 64 c.1).toNat = c.1 ∧ m.byteAt (BitVec.ofNat 64 c.1) = some c.2 := by
  obtain ⟨hregions, -, hsorted, hcells⟩ := hw
  obtain ⟨-, r, hr, hh⟩ := hcells c hc
  have ha : (BitVec.ofNat 64 c.1).toNat = c.1 := by
    have := (hregions r hr).2
    rw [Region.holds_iff] at hh
    rw [BitVec.toNat_ofNat]
    exact Nat.mod_eq_of_lt (by omega)
  refine ⟨ha, byteAt_eq_some.mpr ⟨(m.mapped_iff _).mpr ⟨r, hr, ha.symm ▸ hh⟩, ?_⟩⟩
  rw [byte, ha, lookupCell_of_mem hsorted hc]

theorem cells_subset_of_byteAt {m n : Memory} (hm : m.wf) (h : ∀ a, m.byteAt a = n.byteAt a) :
    m.cells ⊆ n.cells := by
  intro c hc
  obtain ⟨ha, hb⟩ := byteAt_of_mem_cells hm hc
  have hn := (byteAt_eq_some.mp ((h _).symm.trans hb)).2
  rw [byte, ha] at hn
  have ⟨_, _, _, hcells⟩ := hm
  have hne := (hcells c hc).1
  rw [← hn] at hne
  simpa only [hn] using mem_of_lookupCell hne

/-- Settles O56: the cells of each are among the other's, and a sorted list is its set of members. -/
theorem canonicalMemoriesAreEqual : Obligations.CanonicalMemoriesAreEqual := by
  intro m n hm hn hregions h
  have hmem (c : Host.Cell) : c ∈ m.cells ↔ c ∈ n.cells :=
    ⟨fun hc => cells_subset_of_byteAt hm h hc, fun hc => cells_subset_of_byteAt hn (fun a => (h a).symm) hc⟩
  have : Std.Irrefl fun c d : Host.Cell => c.1 < d.1 := ⟨fun c => lt_irrefl c.1⟩
  have : Std.Antisymm fun c d : Host.Cell => c.1 < d.1 := ⟨fun c d h h' => absurd h' h.asymm⟩
  obtain ⟨-, -, hmSorted, -⟩ := hm
  obtain ⟨-, -, hnSorted, -⟩ := hn
  have hcells : m.cells = n.cells := hmSorted.eq_of_mem_iff hnSorted hmem
  cases m; cases n; cases hregions; cases hcells; rfl

/-! ## Protection by address (R61, R63) -/

/-- In a canonical address space an address is in at most one region. -/
theorem region_unique {m : Memory} (hw : m.wf) {r q : Region} (hr : r ∈ m.regions) (hq : q ∈ m.regions) {a : Nat}
    (hra : r.holds a = true) (hqa : q.holds a = true) : r = q := by
  have ⟨_, hrising, _⟩ := hw
  rw [Region.holds_iff] at hra hqa
  by_contra hne
  have hdisjoint : r.limit ≤ q.base ∨ q.limit ≤ r.base := by
    have : Std.Symm fun r q : Region => r.limit ≤ q.base ∨ q.limit ≤ r.base := ⟨fun _ _ h => h.symm⟩
    exact List.Pairwise.forall (R := fun r q : Region => r.limit ≤ q.base ∨ q.limit ≤ r.base) (hrising.imp .inl)
      hr hq hne
  omega

theorem regionAt_eq_some {m : Memory} (hw : m.wf) {a : Word} {r : Region} :
    m.regionAt a = some r ↔ r ∈ m.regions ∧ r.holds a.toNat = true := by
  have found {q : Region} (h : m.regionAt a = some q) : q ∈ m.regions ∧ q.holds a.toNat = true :=
    ⟨List.mem_of_find?_eq_some h, List.find?_some (p := fun r : Region => r.holds a.toNat) h⟩
  refine ⟨found, fun ⟨hr, hra⟩ => ?_⟩
  obtain ⟨q, h⟩ := Option.isSome_iff_exists.mp ((m.mapped_iff a).mpr ⟨r, hr, hra⟩)
  obtain ⟨hq, hqa⟩ := found h
  rw [h, region_unique hw hq hr hqa hra]

/-- The protection at an address of a canonical address space. -/
theorem prot_eq_some {m : Memory} (hw : m.wf) {a : Word} {p : Protection} :
    (m.regionAt a).map Region.prot = some p ↔ ∃ r ∈ m.regions, r.holds a.toNat = true ∧ r.prot = p := by
  simp only [Option.map_eq_some_iff, regionAt_eq_some hw, and_assoc]

theorem mapped_eq_isSome_prot (m : Memory) (a : Word) : m.mapped a = ((m.regionAt a).map Region.prot).isSome := by
  rw [mapped, Option.isSome_map]

/-! ## Parts of a region (R84; log entry 7) -/

theorem exists_mem_flatMap {α β : Type} {f : α → List β} {l : List α} {P : β → Prop} :
    (∃ q ∈ l.flatMap f, P q) ↔ ∃ r ∈ l, ∃ q ∈ f r, P q := by
  constructor
  · rintro ⟨q, hq, hp⟩
    obtain ⟨r, hr, hq⟩ := List.mem_flatMap.mp hq
    exact ⟨r, hr, q, hq, hp⟩
  · rintro ⟨r, hr, q, hq, hp⟩
    exact ⟨q, List.mem_flatMap.mpr ⟨r, hr, hq⟩, hp⟩

/-- The part of a protected region that an address is in: the new protection in the range, and the old one outside. -/
theorem protect_part (r : Region) (base size a : Nat) (p p' : Protection) :
    (∃ q ∈ (if base < base + size then r.below base ++ r.within base (base + size) p ++ r.above (base + size) else [r]),
        q.holds a = true ∧ q.prot = p') ↔
      r.holds a = true ∧ (if base ≤ a ∧ a < base + size then p else r.prot) = p' := by
  by_cases hlt : base < base + size
  · simp only [if_pos hlt, List.mem_append, Region.mem_below, Region.mem_within, Region.mem_above, Region.holds_iff,
      Region.limit]
    constructor
    · rintro ⟨q, (⟨hpart, rfl⟩ | ⟨hpart, rfl⟩) | ⟨hpart, rfl⟩, hq, hp⟩ <;> dsimp only at hq hp
      · exact ⟨by omega, by rwa [if_neg (by omega)]⟩
      · exact ⟨by omega, by rwa [if_pos (by omega)]⟩
      · exact ⟨by omega, by rwa [if_neg (by omega)]⟩
    · rintro ⟨hr, hp⟩
      by_cases hbelow : a < base
      · rw [if_neg (by omega)] at hp
        exact ⟨_, .inl (.inl ⟨by omega, rfl⟩), by dsimp only; omega, hp⟩
      · by_cases hin : a < base + size
        · rw [if_pos (by omega)] at hp
          exact ⟨_, .inl (.inr ⟨by omega, rfl⟩), by dsimp only; omega, hp⟩
        · rw [if_neg (by omega)] at hp
          exact ⟨_, .inr ⟨by omega, rfl⟩, by dsimp only; omega, hp⟩
  · simp only [if_neg hlt, List.mem_singleton, exists_eq_left, if_neg (show ¬ (base ≤ a ∧ a < base + size) by omega)]

/-- The part of an unmapped region that an address is in: none in the range, and the region's own outside. -/
theorem unmap_part (r : Region) (base size a : Nat) (p' : Protection) :
    (∃ q ∈ (if base < base + size then r.below base ++ r.above (base + size) else [r]),
        q.holds a = true ∧ q.prot = p') ↔
      r.holds a = true ∧ r.prot = p' ∧ ¬ (base ≤ a ∧ a < base + size) := by
  by_cases hlt : base < base + size
  · simp only [if_pos hlt, List.mem_append, Region.mem_below, Region.mem_above, Region.holds_iff, Region.limit]
    constructor
    · rintro ⟨q, ⟨hpart, rfl⟩ | ⟨hpart, rfl⟩, hq, hp⟩ <;> dsimp only at hq hp
      · exact ⟨by omega, hp, by omega⟩
      · exact ⟨by omega, hp, by omega⟩
    · rintro ⟨hr, hp, hout⟩
      by_cases hbelow : a < base
      · exact ⟨_, .inl ⟨by omega, rfl⟩, by dsimp only; omega, hp⟩
      · exact ⟨_, .inr ⟨by omega, rfl⟩, by dsimp only; omega, hp⟩
  · simp only [if_neg hlt, List.mem_singleton, exists_eq_left, show ¬ (base ≤ a ∧ a < base + size) by omega,
      not_false_eq_true, and_true]

theorem prot_protect {m : Memory} (hw : m.wf) (base size : Nat) (p : Protection) (a : Word) :
    ((m.apply (.protect base size p)).regionAt a).map Region.prot =
      (m.regionAt a).map fun r => if base ≤ a.toNat ∧ a.toNat < base + size then p else r.prot := by
  ext p'
  rw [prot_eq_some (apply_wf hw _), Option.map_eq_some_iff]
  simp only [apply, exists_mem_flatMap, protect_part, regionAt_eq_some hw, and_assoc]

theorem prot_unmap {m : Memory} (hw : m.wf) (base size : Nat) (a : Word) :
    ((m.apply (.unmap base size)).regionAt a).map Region.prot =
      if base ≤ a.toNat ∧ a.toNat < base + size then none else (m.regionAt a).map Region.prot := by
  ext p'
  rw [prot_eq_some (apply_wf hw _)]
  simp only [apply, exists_mem_flatMap, unmap_part]
  split
  · next hin => simp only [hin, not_true_eq_false, and_false, exists_false, reduceCtorEq, and_self]
  · next hout => simp only [prot_eq_some hw, hout, not_false_eq_true, and_true]

/-- The byte of an address that keeps its cell is there as long as the address stays mapped. -/
theorem byteAt_eq_of_prot {m n : Memory} {a : Word}
    (hp : ((n.regionAt a).map Region.prot).isSome = ((m.regionAt a).map Region.prot).isSome)
    (hb : n.byte a = m.byte a) : n.byteAt a = m.byteAt a := by
  rw [byteAt, byteAt, mapped_eq_isSome_prot, mapped_eq_isSome_prot, hp, hb]

theorem lookupCell_filter {a : Nat} {f : Host.Cell → Bool} (hf : ∀ b, f (a, b) = true) (cs : List Host.Cell) :
    lookupCell a (cs.filter f) = lookupCell a cs := by
  induction cs with
  | nil => rfl
  | cons d ds ih =>
    by_cases hd : d.1 = a
    · subst hd
      rw [List.filter_cons_of_pos (hf d.2), lookupCell, lookupCell, if_pos rfl, if_pos rfl]
    · rw [lookupCell, if_neg hd, ← ih]
      cases hfd : f d with
      | true => rw [List.filter_cons_of_pos hfd, lookupCell, if_neg hd]
      | false => rw [List.filter_cons_of_neg (by simp [hfd])]

/-- Settles O60: the parts of the split regions, address by address; `unmap` drops cells of its range alone. -/
theorem regionOperationsChangeOnlyTheirRange : Obligations.RegionOperationsChangeOnlyTheirRange := by
  intro m base size a hw
  refine ⟨fun p => ⟨byteAt_eq_of_prot ?_ rfl, (prot_protect hw base size p a).trans ?_⟩, ?_⟩
  · rw [prot_protect hw, Option.isSome_map, Option.isSome_map]
  · split <;> rfl
  · have hprot := prot_unmap hw base size a
    dsimp only
    split
    · next hin =>
      rw [if_pos hin] at hprot
      rw [byteAt, mapped_eq_isSome_prot, hprot]
      rfl
    · next hout =>
      rw [if_neg hout] at hprot
      have hkeeps (b : Byte) : (!decide (base ≤ a.toNat ∧ a.toNat < base + size)) = true := by
        rw [decide_eq_false hout]; rfl
      exact ⟨byteAt_eq_of_prot (by rw [hprot]) (lookupCell_filter hkeeps _), hprot⟩

end Memory

end Sys2Proof
end

/-! # How many bytes the decoder reads (R91, R93; log entry 24) -/

section
namespace Sys2Proof

/-! ## A stage's reach -/

/-- A stage on the bytes `bs` reads at most `n` of them: it ends with a result after at most `n`, and asks for more only
when it has fewer. -/
structure Scan.Reads {α : Type} (n : Nat) (bs : List Byte) (x : Scan α) : Prop where
  ok : ∀ a rest, x = .ok a rest → bs.length ≤ rest.length + n
  more : x = .more → bs.length < n

section
variable {α β : Type} {n m : Nat} {bs : List Byte}

theorem Scan.reads_ok (a : α) (bs : List Byte) (n : Nat) : Scan.Reads n bs (.ok a bs) :=
  ⟨fun _ _ h => by cases h; omega, nofun⟩

theorem Scan.reads_illegal (bs rest : List Byte) (n : Nat) : (Scan.illegal rest : Scan α).Reads n bs := ⟨nofun, nofun⟩

theorem Scan.reads_refused (bs : List Byte) (r : DecodeRefusal) (n : Nat) : (Scan.refused r : Scan α).Reads n bs :=
  ⟨nofun, nofun⟩

theorem Scan.Reads.mono {x : Scan α} (h : x.Reads n bs) (hn : n ≤ m) : x.Reads m bs :=
  ⟨fun a rest hx => (h.ok a rest hx).trans (by omega), fun hx => (h.more hx).trans_le hn⟩

/-- Two stages read what each of them reads. -/
theorem Scan.Reads.andThen {x : Scan α} {f : α → List Byte → Scan β} (hx : x.Reads n bs)
    (hf : ∀ a rest, x = .ok a rest → (f a rest).Reads m rest) : (x.andThen f).Reads (n + m) bs := by
  cases x with
  | ok a rest =>
    have hle := hx.ok a rest rfl
    have hf := hf a rest rfl
    exact ⟨fun b rest' h => by have := hf.ok b rest' h; omega, fun h => by have := hf.more h; omega⟩
  | illegal rest => exact reads_illegal ..
  | refused r => exact reads_refused ..
  | more => exact ⟨nofun, fun _ => by have := hx.more rfl; omega⟩

theorem Scan.andThen_assoc {γ : Type} (x : Scan α) (f : α → List Byte → Scan β) (g : β → List Byte → Scan γ) :
    (x.andThen f).andThen g = x.andThen fun a rest => (f a rest).andThen g := by cases x <;> rfl

end

/-! ## The stages -/

theorem scanByte_reads (bs : List Byte) : (scanByte bs).Reads 1 bs := by
  cases bs with
  | nil => exact ⟨nofun, fun _ => Nat.zero_lt_one⟩
  | cons b bs => exact ⟨fun _ _ h => by cases h; rfl, nofun⟩

theorem scanBytes_reads (n : Nat) (bs : List Byte) : (scanBytes n bs).Reads n bs := by
  induction n generalizing bs with
  | zero => exact Scan.reads_ok ..
  | succ n ih =>
    rw [scanBytes, Nat.add_comm]
    exact (scanByte_reads bs).andThen fun b rest _ => (ih rest).andThen (m := 0) fun t rest' _ => Scan.reads_ok ..

/-- The prefixes seen and an admitted one after them are distinct. -/
theorem noDuplicate_append_singleton (seen l : List LegacyPrefix) (q : LegacyPrefix) :
    noDuplicate seen (l ++ [q]) = (noDuplicate seen l && !isDuplicate (seen ++ l) q) := by
  induction l generalizing seen with
  | nil => simp [noDuplicate]
  | cons a l ih => simp [noDuplicate, ih, Bool.and_assoc]

/-- After the prefixes seen there are at most three in all, and one byte that is none (R90, R94). -/
theorem scanLegacy_reads {seen : List LegacyPrefix} (hs : noDuplicate [] seen = true) (bs : List Byte) :
    (scanLegacy seen bs).Reads (4 - seen.length) bs := by
  have hlen := noDuplicate_length hs
  induction bs generalizing seen with
  | nil => exact ⟨nofun, fun _ => by rw [List.length_nil]; omega⟩
  | cons b bs ih =>
    rw [scanLegacy]
    split
    · next q hq =>
      split
      · split
        · exact ⟨fun _ _ h => by cases h; rw [List.length_cons]; omega, nofun⟩
        · exact Scan.reads_refused ..
      · next hdup =>
        have hs' : noDuplicate [] (seen ++ [q]) = true := by
          rw [noDuplicate_append_singleton, hs, List.nil_append, Bool.eq_false_of_not_eq_true hdup]; rfl
        have hlen' := noDuplicate_length hs'
        have h := ih hs' hlen'
        rw [List.length_append, List.length_singleton] at h hlen'
        exact ⟨fun a rest hx => by have := h.ok a rest hx; rw [List.length_cons]; omega,
          fun hx => by have := h.more hx; rw [List.length_cons]; omega⟩
    · split
      · exact Scan.reads_refused ..
      · exact ⟨fun _ _ h => by cases h; rw [List.length_cons]; omega, nofun⟩

theorem scanRex_reads (b : Byte) (bs : List Byte) : (scanRex b bs).Reads 1 bs := by
  rw [scanRex]
  split
  · refine (scanByte_reads bs).andThen (m := 0) fun op rest _ => ?_
    split
    · exact Scan.reads_refused ..
    · exact Scan.reads_ok ..
  · exact Scan.reads_ok ..

theorem scanModrm_reads (f : OpForm) (p : Pfx) (bs : List Byte) : (scanModrm f p bs).Reads 1 bs := by
  refine (scanByte_reads bs).andThen (m := 0) fun m rest _ => ?_
  split
  · exact Scan.reads_refused ..
  · split
    · exact Scan.reads_illegal ..
    · split
      · exact Scan.reads_refused ..
      · exact Scan.reads_ok ..

theorem scanSib_reads (m : Byte) (bs : List Byte) : (scanSib m bs).Reads 1 bs := by
  rw [scanSib]
  split
  · exact (scanByte_reads bs).andThen (m := 0) fun s rest _ => Scan.reads_ok ..
  · exact Scan.reads_ok ..

theorem dispLen_le (m : Byte) (s : Option Byte) : dispLen m s ≤ 4 := by
  unfold dispLen
  repeat' split
  all_goals omega

/-- ModRM, SIB, displacement and an immediate of at most four bytes; or an immediate alone (R90, R108). -/
theorem scanBody_reads (f : OpForm) (p : Pfx) (opcode : List Byte) (bs : List Byte) :
    (scanBody f p opcode bs).Reads (if f.hasModrm then 10 else f.immLen (f.osz p)) bs := by
  rw [scanBody]
  split
  · next hm =>
    refine (scanModrm_reads f p bs).andThen (m := 9) fun m bs _ => ?_
    refine (scanSib_reads m bs).andThen (m := 8) fun s bs _ => ?_
    refine ((scanBytes_reads _ bs).mono (dispLen_le m s)).andThen (m := 4) fun d bs _ => ?_
    exact ((scanBytes_reads _ bs).mono ((f.immLen_le _).2 hm)).andThen (m := 0) fun i bs _ => Scan.reads_ok ..
  · split
    · exact Scan.reads_refused ..
    · exact (scanBytes_reads _ bs).andThen (m := 0) fun i bs _ => Scan.reads_ok ..

theorem twoByteForm_immLen {op : Byte} {f : OpForm} (h : twoByteForm op = some f) (k : OSize) :
    f.hasModrm = false ∧ f.immLen k ≤ 4 := by
  unfold twoByteForm at h
  split at h
  · cases h; exact ⟨rfl, Nat.zero_le 4⟩
  · split at h <;> cases h
    exact ⟨rfl, Nat.le_refl 4⟩

/-- What is read after the prefixes and a REX byte: ten bytes beyond the opcode. A form with a ModRM byte has no second
opcode byte (R97, R98). -/
theorem scanOpcode_body_reads (op : Byte) (p : Pfx) (bs : List Byte) :
    ((scanOpcode op bs).andThen fun o rest =>
      (scanBody o.2 p o.1 rest).andThen fun l rest => .ok (l, o.2.build l) rest).Reads 10 bs := by
  rw [scanOpcode]
  split
  · exact Scan.reads_illegal ..
  · split
    · rw [Scan.andThen_assoc]
      refine (scanByte_reads bs).andThen (m := 9) fun op2 rest _ => ?_
      split
      · next f hf =>
        obtain ⟨hm, himm⟩ := twoByteForm_immLen hf (f.osz p)
        have h := scanBody_reads f p [op, op2] rest
        rw [hm] at h
        exact (h.mono (himm.trans (by omega))).andThen (m := 0) fun l rest _ => Scan.reads_ok ..
      · exact Scan.reads_refused ..
    · split
      · next f hf =>
        have hle : (if f.hasModrm then 10 else f.immLen (f.osz p)) ≤ 10 := by
          have := (f.immLen_le (f.osz p)).1
          split <;> omega
        exact ((scanBody_reads f p [op] bs).mono hle).andThen (m := 0) fun l rest _ => Scan.reads_ok ..
      · exact Scan.reads_refused ..

/-- The decoder reads at most `maxLen` bytes. -/
theorem decode_reads (bs : List Byte) : (decode bs).Reads maxLen bs := by
  refine (scanLegacy_reads (seen := []) rfl bs).andThen (m := 11) fun a bs _ => ?_
  exact (scanRex_reads a.2 bs).andThen (m := 10) fun r bs _ => scanOpcode_body_reads r.2 _ bs

namespace Machine

/-- Fetch and decode stop at the byte that the decoder needs and that is not executable (R70, R93). -/
theorem decodeAt_of_more {s : State} {bs : List Byte} (hc : s.codeIs bs) (hm : decode bs = .more)
    (hx : s.mem.executable (s.cpu.pc + BitVec.ofNat 64 bs.length) = false) :
    decodeAt s.mem s.cpu.pc =
      .trap { addr := s.cpu.pc + BitVec.ofNat 64 bs.length, access := some .execute, pc := s.cpu.pc, bytes := bs } := by
  have hcode : codeBytes s.mem s.cpu.pc maxLen = bs :=
    codeBytes_stops bs s.cpu.pc maxLen hc hx ((decode_reads bs).more hm).le
  simp only [decodeAt, hcode, hm]

/-- Settles O13: the bytes before the fault are the ones the decoder was given, for it needs no more than are
fetched. -/
theorem fetchFaultTrapsAtTheExactByte : Obligations.FetchFaultTrapsAtTheExactByte := by
  intro s bs hs hc hm hx
  rw [step_running hs, decodeAt_of_more hc hm hx]

end Machine

end Sys2Proof
end

/-! # What stands before the opcode (R94, R95) -/

section
namespace Sys2Proof

/-! ## The two stages as one -/

/-- The stages before the opcode: the prefixes, and the byte in opcode position. -/
def scanPrefixes (bs : List Byte) : Scan (Pfx × Byte) :=
  (scanLegacy [] bs).andThen fun a bs =>
  (scanRex a.2 bs).andThen fun r bs => .ok ({ legacy := a.1, rex := r.1 }, r.2) bs

/-- The stages from the opcode byte on. -/
def scanInstr (p : Pfx) (op : Byte) (bs : List Byte) : Scan (Latch × Instr) :=
  (scanOpcode op bs).andThen fun o bs => (scanBody o.2 p o.1 bs).andThen fun l bs => .ok (l, o.2.build l) bs

theorem decode_eq (bs : List Byte) :
    decode bs = (scanPrefixes bs).andThen fun a bs => scanInstr a.1 a.2 bs := by
  simp only [decode, scanPrefixes, scanInstr, Scan.andThen_assoc]
  rfl

/-! ## Legacy prefixes -/

theorem LegacyPrefix.ofByte_eq_some {b : Byte} {q : LegacyPrefix} : LegacyPrefix.ofByte b = some q ↔ b = q.byte := by
  have h : ∀ b : Byte, (LegacyPrefix.ofByte b = some .opsize ↔ b = 0x66) ∧
      (LegacyPrefix.ofByte b = some .addrsize ↔ b = 0x67) ∧ (LegacyPrefix.ofByte b = some .segFS ↔ b = 0x64) ∧
      (LegacyPrefix.ofByte b = some .segGS ↔ b = 0x65) := by decide
  obtain ⟨h66, h67, h64, h65⟩ := h b
  cases q <;> assumption

/-- Admitted prefixes are read, whatever follows them. -/
theorem scanLegacy_append {seen l : List LegacyPrefix} (hl : noDuplicate seen l = true) (bs : List Byte) :
    scanLegacy seen (l.map LegacyPrefix.byte ++ bs) = scanLegacy (seen ++ l) bs := by
  induction l generalizing seen with
  | nil => simp
  | cons q l ih =>
    simp only [noDuplicate, Bool.and_eq_true, Bool.not_eq_true'] at hl
    simp [scanLegacy, hl.1, ih hl.2]

/-- The byte ends the legacy prefixes `l`: it is none of them, or a second 0x66 (R94). -/
def legacyEndsAt (l : List LegacyPrefix) (b : Byte) : Prop :=
  b = 0x66 ∧ l.contains .opsize = true ∨ LegacyPrefix.ofByte b = none ∧ isRefusedPrefix b = false

theorem scanLegacy_end {seen : List LegacyPrefix} {b : Byte} (h : legacyEndsAt seen b) (bs : List Byte) :
    scanLegacy seen (b :: bs) = .ok (seen, b) bs := by
  rcases h with ⟨rfl, h⟩ | ⟨hb, hr⟩
  · exact (if_pos h).trans (if_pos rfl)
  · simp [scanLegacy, hb, hr]

theorem scanLegacy_ok {seen l : List LegacyPrefix} {b : Byte} {bs rest : List Byte}
    (h : scanLegacy seen bs = .ok (l, b) rest) :
    ∃ l', l = seen ++ l' ∧ noDuplicate seen l' = true ∧ bs = l'.map LegacyPrefix.byte ++ b :: rest ∧
      legacyEndsAt l b := by
  induction bs generalizing seen with
  | nil => cases h
  | cons c bs ih =>
    rw [scanLegacy] at h
    split at h
    · next q hq =>
      rw [LegacyPrefix.ofByte_eq_some] at hq
      split at h
      · next hd =>
        split at h <;> cases h
        next hop =>
        subst hop hq
        exact ⟨[], by simp, rfl, rfl, .inl ⟨rfl, hd⟩⟩
      · next hd =>
        obtain ⟨l', rfl, hl', rfl, hend⟩ := ih h
        exact ⟨q :: l', by simp, by simp [noDuplicate, hd, hl'], by simp [hq], hend⟩
    · next hq =>
      split at h <;> cases h
      next hr => exact ⟨[], by simp, rfl, rfl, .inr ⟨hq, Bool.eq_false_of_not_eq_true hr⟩⟩

/-! ## REX -/

theorem Rex.byte_ofByte : ∀ b : Byte, isRexByte b = true → (Rex.ofByte b).byte = b := by decide

theorem scanRex_none {b : Byte} (hb : isRexByte b = false) (bs : List Byte) : scanRex b bs = .ok (none, b) bs := by
  simp [scanRex, hb]

/-- After REX, 0x67, 0x64, 0x65 and the refused bytes are refused, and any other byte is in opcode position (R95). -/
theorem scanRex_byte (r : Rex) (op : Byte) (bs : List Byte) :
    scanRex r.byte (op :: bs) =
      if op ≠ 0x66 ∧ ((LegacyPrefix.ofByte op).isSome ∨ isRefusedPrefix op) then .refused .legacyPrefixAfterRex
      else .ok (some r, op) bs := by
  obtain ⟨hrex, hof⟩ := r.byte_fields
  simp [scanRex, hrex, hof, scanByte, Scan.andThen]

/-! ## The byte in opcode position -/

/-- The byte is in opcode position after the prefixes `p`: a 0x66 after a first one or after REX, or any byte that is
not among the legacy prefixes; without a REX byte it is not of the REX pattern (R94, R95). -/
def Pfx.endsAt (p : Pfx) (op : Byte) : Prop :=
  op = 0x66 ∧ (p.rexPresent = true ∨ p.opsz16 = true) ∨
    (LegacyPrefix.ofByte op = Option.none ∧ isRefusedPrefix op = false) ∧ (p.rexPresent = true ∨ isRexByte op = false)

theorem scanPrefixes_bytes {p : Pfx} (hp : p.wf = true) {op : Byte} (h : p.endsAt op) (rest : List Byte) :
    scanPrefixes (p.bytes ++ op :: rest) = .ok (p, op) rest := by
  obtain ⟨l, rex⟩ := p
  cases rex with
  | none =>
    have hend : legacyEndsAt l op ∧ isRexByte op = false := by
      rcases h with ⟨rfl, h⟩ | ⟨hb, h⟩
      · exact ⟨.inl ⟨rfl, h.resolve_left Bool.false_ne_true⟩, rfl⟩
      · exact ⟨.inr hb, h.resolve_left Bool.false_ne_true⟩
    simp [scanPrefixes, Pfx.bytes, scanLegacy_append hp, scanLegacy_end hend.1, scanRex_none hend.2, Scan.andThen]
  | some r =>
    have hop : ¬ (op ≠ 0x66 ∧ ((LegacyPrefix.ofByte op).isSome ∨ isRefusedPrefix op)) := by
      rcases h with ⟨rfl, -⟩ | ⟨⟨hb, hr⟩, -⟩
      · simp
      · simp [hb, hr]
    have hend : legacyEndsAt l r.byte := .inr r.byte_no_legacy
    simp only [scanPrefixes, Pfx.bytes, Option.map_some, Option.toList_some, List.append_assoc, List.singleton_append,
      scanLegacy_append hp, List.nil_append, scanLegacy_end hend, scanRex_byte, if_neg hop, Scan.andThen]

theorem scanPrefixes_ok {bs rest : List Byte} {p : Pfx} {op : Byte} (h : scanPrefixes bs = .ok (p, op) rest) :
    p.wf = true ∧ p.endsAt op ∧ bs = p.bytes ++ op :: rest := by
  obtain ⟨⟨l, b⟩, bs', hl, h⟩ := Scan.andThen_ok h
  obtain ⟨⟨rex, op'⟩, bs'', hr, h⟩ := Scan.andThen_ok h
  cases h
  obtain ⟨l', rfl, hwf, rfl, hend⟩ := scanLegacy_ok hl
  cases hx : isRexByte b with
  | false =>
    rw [scanRex_none hx] at hr
    cases hr
    exact ⟨hwf, hend.imp (fun ⟨h, h'⟩ => ⟨h, .inr h'⟩) (fun h => ⟨h, .inr hx⟩), by simp [Pfx.bytes]⟩
  | true =>
    rw [← Rex.byte_ofByte b hx] at hr ⊢
    cases bs' with
    | nil => simp [scanRex, (Rex.ofByte b).byte_fields.1, scanByte, Scan.andThen] at hr
    | cons c bs' =>
      rw [scanRex_byte] at hr
      split at hr
      · cases hr
      · next hc =>
        cases hr
        have hop : op' ≠ 0x66#8 → LegacyPrefix.ofByte op' = none ∧ isRefusedPrefix op' = false := by simpa using hc
        exact ⟨hwf, (eq_or_ne op' 0x66#8).imp (fun h => ⟨h, .inl rfl⟩) (fun h => ⟨hop h, .inl rfl⟩),
          by simp [Pfx.bytes]⟩

/-- After the prefixes, the decoder goes on at the byte in opcode position. -/
theorem decode_bytes_append {p : Pfx} (hp : p.wf = true) {op : Byte} (h : p.endsAt op) (rest : List Byte) :
    decode (p.bytes ++ op :: rest) = scanInstr p op rest := by
  rw [decode_eq, scanPrefixes_bytes hp h]; rfl

end Sys2Proof
end

/-! # Whatever decodes is an encoding -/

section
namespace Sys2Proof

/-! ## An r/m operand for every ModRM, SIB and displacement -/

/-- The length of a displacement that mod alone gives (R103). -/
def modDispLen (mod : BitVec 2) : Nat := if mod = 1 then 1 else if mod = 2 then 4 else 0

theorem exists_disp {mod : BitVec 2} (hmod : mod ≠ 3#2) {bs : List Byte} (hbs : bs.length = modDispLen mod) :
    ∃ d : Disp, d.mod = mod ∧ d.bytes = bs := by
  have hcases : ∀ x : BitVec 2, x ≠ 3#2 → x = 0#2 ∨ x = 1#2 ∨ x = 2#2 := by decide
  rcases hcases mod hmod with rfl | rfl | rfl
  · exact ⟨.none, rfl, (List.length_eq_zero_iff.mp hbs).symm⟩
  · exact ⟨.d8 (leVal 8 bs), rfl, leBytes_leVal rfl bs hbs⟩
  · exact ⟨.d32 (leVal 32 bs), rfl, leBytes_leVal rfl bs hbs⟩

theorem dispLen_without_sib {m : Byte} (h : modOf m = 0#2 → rmOf m ≠ 5#3) :
    dispLen m none = modDispLen (modOf m) := by
  by_cases h0 : modOf m = 0#2 <;> simp [dispLen, modDispLen, h0, h]

theorem dispLen_with_sib {m s : Byte} (hrm : rmOf m = 4#3) (h : modOf m = 0#2 → rmOf s ≠ 5#3) :
    dispLen m (some s) = modDispLen (modOf m) := by
  by_cases h0 : modOf m = 0#2 <;> simp [dispLen, modDispLen, hrm, h0, h]

theorem fieldsByte_eq {m : Byte} {a : BitVec 2} {b c : BitVec 3} (ha : modOf m = a) (hb : regOf m = b)
    (hc : rmOf m = c) : fieldsByte a b c = m := by rw [← ha, ← hb, ← hc, fieldsByte_of]

/-- The bytes that ModRM, SIB and displacement are read from are those of an r/m operand (R100 to R104). -/
theorem exists_rm {m : Byte} {sib : Option Byte} {disp : List Byte} (hs : needsSib m = sib.isSome)
    (hd : disp.length = dispLen m sib) :
    ∃ rm : RM, rm.wf = true ∧ rm.modrm (regOf m) = m ∧ rm.sib = sib ∧ rm.dispBytes = disp ∧
      rm.isReg = (modOf m == 3) := by
  by_cases hmod : modOf m = 3#2
  · have hsib : sib = none := by simpa [needsSib, hmod] using hs
    subst hsib
    have hdisp : disp = [] := by simpa [dispLen, hmod] using hd
    exact ⟨.reg (rmOf m), rfl, fieldsByte_eq hmod rfl rfl, rfl, hdisp.symm, by simp [RM.isReg, hmod]⟩
  have hmem : (modOf m == 3) = false := by simpa using hmod
  rw [hmem]
  cases sib with
  | none =>
    have hrm : rmOf m ≠ 4#3 := by simpa [needsSib, hmod] using hs
    by_cases hrip : modOf m = 0#2 ∧ rmOf m = 5#3
    · have hlen : disp.length = 4 := by simpa [dispLen, hrip] using hd
      exact ⟨.mem (.ripRel (leVal 32 disp)), rfl, fieldsByte_eq hrip.1 rfl hrip.2, rfl,
        leBytes_leVal rfl disp hlen, rfl⟩
    · rw [not_and] at hrip
      obtain ⟨d, hdm, rfl⟩ := exists_disp hmod (hd.trans (dispLen_without_sib hrip))
      refine ⟨.mem (.base (rmOf m) d), ?_, fieldsByte_eq hdm.symm rfl rfl, rfl, rfl, rfl⟩
      have hbase : d = .none → rmOf m ≠ 5#3 := fun h => hrip (hdm ▸ Disp.mod_eq_zero.mpr h)
      simpa [RM.wf, MemForm.wf, hrm, imp_iff_not_or] using hbase
  | some s =>
    have hrm : rmOf m = 4#3 := by simpa [needsSib, hmod] using hs
    by_cases hbase : modOf m = 0#2 ∧ rmOf s = 5#3
    · have hlen : disp.length = 4 := by simpa [dispLen, hrm, hbase] using hd
      exact ⟨.mem (.sibNoBase (modOf s) (regOf s) (leVal 32 disp)), rfl,
        fieldsByte_eq hbase.1 rfl hrm, congrArg some (fieldsByte_eq rfl rfl hbase.2),
        leBytes_leVal rfl disp hlen, rfl⟩
    · rw [not_and] at hbase
      obtain ⟨d, hdm, rfl⟩ := exists_disp hmod (hd.trans (dispLen_with_sib hrm hbase))
      refine ⟨.mem (.sib (modOf s) (regOf s) (rmOf s) d), ?_, fieldsByte_eq hdm.symm rfl hrm,
        congrArg some (fieldsByte_of s), rfl, rfl⟩
      have hbase : d = .none → rmOf s ≠ 5#3 := fun h => hbase (hdm ▸ Disp.mod_eq_zero.mpr h)
      simpa [RM.wf, MemForm.wf, imp_iff_not_or] using hbase

/-! ## The fields after the opcode -/

theorem scanByte_ok {b : Byte} {bs rest : List Byte} (h : scanByte bs = .ok b rest) : bs = b :: rest := by
  cases bs with
  | nil => cases h
  | cons c bs => cases h; rfl

theorem scanSib_ok {m : Byte} {sib : Option Byte} {bs rest : List Byte} (h : scanSib m bs = .ok sib rest) :
    needsSib m = sib.isSome ∧ bs = sib.toList ++ rest := by
  unfold scanSib at h
  split at h
  · next hs =>
    obtain ⟨s, r, hb, h⟩ := Scan.andThen_ok h
    cases h
    exact ⟨hs, scanByte_ok hb⟩
  · next hs => cases h; exact ⟨Bool.eq_false_of_not_eq_true hs, rfl⟩

theorem scanModrm_ok {f : OpForm} {p : Pfx} {m : Byte} {bs rest : List Byte} (h : scanModrm f p bs = .ok m rest) :
    f.extAdmitted (regOf m) = true ∧ f.illegalMod (modOf m) = false ∧ f.pfxAllowed p (modOf m == 3) = true ∧
      bs = m :: rest := by
  obtain ⟨c, r, hb, h⟩ := Scan.andThen_ok h
  by_cases hext : f.extAdmitted (regOf c) = true
  · cases hill : f.illegalMod (modOf c) with
    | true => simp [hext, hill] at h
    | false =>
      by_cases hpfx : f.pfxAllowed p (modOf c == 3) = true
      · rw [if_neg (not_not_intro hext), hill, if_neg Bool.false_ne_true, if_neg (not_not_intro hpfx)] at h
        cases h
        exact ⟨hext, hill, hpfx, scanByte_ok hb⟩
      · rw [if_neg (not_not_intro hext), hill, if_neg Bool.false_ne_true, if_pos hpfx] at h
        cases h
  · rw [if_pos hext] at h
    cases h

/-- The fields that a form with one opcode byte is read from fit the form. -/
theorem scanBody_ok {f : OpForm} {p : Pfx} {op : Byte} {l : Latch} {bs rest : List Byte}
    (hop : oneByteForm op = some f) (hp : p.wf = true) (h : scanBody f p [op] bs = .ok l rest) :
    f.Fits l ∧ p.bytes ++ op :: bs = l.bytes ++ rest := by
  unfold scanBody at h
  split at h
  · next hm =>
    obtain ⟨m, bs₁, hmod, h⟩ := Scan.andThen_ok h
    obtain ⟨sib, bs₂, hsib, h⟩ := Scan.andThen_ok h
    obtain ⟨disp, bs₃, hdisp, h⟩ := Scan.andThen_ok h
    obtain ⟨imm, bs₄, himm, h⟩ := Scan.andThen_ok h
    cases h
    obtain ⟨hext, hill, hpfx, rfl⟩ := scanModrm_ok hmod
    obtain ⟨hs, rfl⟩ := scanSib_ok hsib
    obtain ⟨rfl, hd⟩ := scanBytes_ok hdisp
    obtain ⟨rfl, hi⟩ := scanBytes_ok himm
    obtain ⟨rm, hrm, hmodrm, rfl, rfl, hreg⟩ := exists_rm hs hd
    have hlatch : modrmLatch op p (regOf m) rm imm = ⟨p, [op], some m, rm.sib, rm.dispBytes, imm⟩ := by
      rw [modrmLatch, hmodrm]
    refine ⟨hlatch ▸ .modrm hop hm ?_ hext ?_ hi, by simp [Latch.bytes, Pfx.bytes]⟩
    · rw [← hreg] at hpfx
      simp [wfModrm, hp, hrm, hpfx]
    · rintro rfl
      rw [hreg]
      simpa [OpForm.illegalMod] using hill
  · next hm =>
    split at h
    · cases h
    · next hpfx =>
      obtain ⟨imm, bs₁, himm, h⟩ := Scan.andThen_ok h
      cases h
      obtain ⟨rfl, hi⟩ := scanBytes_ok himm
      exact ⟨.plain (p := p) hop (Bool.eq_false_of_not_eq_true hm) (by simpa [wfPlain, hp] using hpfx) hi,
        by simp [Latch.bytes, Pfx.bytes]⟩

theorem twoByteForm_cases {op : Byte} {f : OpForm} (h : twoByteForm op = some f) :
    f = .syscall ∨ ∃ c, f = .jcc32 c := by
  unfold twoByteForm at h
  split at h
  · cases h; exact .inl rfl
  · split at h <;> cases h
    exact .inr ⟨_, rfl⟩

theorem twoByteForm_plain {op : Byte} {f : OpForm} (h : twoByteForm op = some f) (p : Pfx) (isReg : Bool) :
    f.hasModrm = false ∧ f.pfxAllowed p isReg = (p.legacy.isEmpty && !p.rexPresent) := by
  rcases twoByteForm_cases h with rfl | ⟨c, rfl⟩ <;> exact ⟨rfl, rfl⟩

theorem Pfx.eq_none_iff (p : Pfx) : p = .none ↔ (p.legacy.isEmpty && !p.rexPresent) = true := by
  obtain ⟨l, rex⟩ := p
  simp [Pfx.rexPresent, Pfx.none]

/-- The fields that a form after the escape is read from fit the form. -/
theorem scanBody_escape_ok {f : OpForm} {p : Pfx} {op : Byte} {l : Latch} {bs rest : List Byte}
    (hop : twoByteForm op = some f) (h : scanBody f p [0x0F, op] bs = .ok l rest) :
    f.Fits l ∧ p.bytes ++ 0x0F :: op :: bs = l.bytes ++ rest := by
  obtain ⟨hm, hpfx⟩ := twoByteForm_plain hop p false
  rw [scanBody, hm, if_neg Bool.false_ne_true] at h
  split at h
  · cases h
  · next hp =>
    obtain ⟨imm, bs₁, himm, h⟩ := Scan.andThen_ok h
    cases h
    obtain ⟨rfl, hi⟩ := scanBytes_ok himm
    obtain rfl : p = .none := p.eq_none_iff.mpr (hpfx.symm.trans (not_not.mp hp))
    exact ⟨.escape hop hm ((Bool.and_eq_true ..).mpr ⟨rfl, by simpa using hp⟩) hi, by simp [Latch.bytes, Pfx.bytes]⟩

/-- What the decoder admits is the bytes of a latch that fits a form, and the instruction that the form builds. -/
theorem decode_ok {bs rest : List Byte} {l : Latch} {i : Instr} (hdec : decode bs = .ok (l, i) rest) :
    ∃ f : OpForm, f.Fits l ∧ i = f.build l ∧ bs = l.bytes ++ rest := by
  rw [decode_eq] at hdec
  obtain ⟨⟨p, op⟩, bs₁, hpre, h⟩ := Scan.andThen_ok hdec
  obtain ⟨hp, -, rfl⟩ := scanPrefixes_ok hpre
  rw [scanInstr] at h
  obtain ⟨⟨opcode, f⟩, bs₂, hopc, h⟩ := Scan.andThen_ok h
  obtain ⟨l', bs₃, hbody, h⟩ := Scan.andThen_ok h
  cases h
  refine ⟨f, ?_⟩
  rw [scanOpcode] at hopc
  split at hopc
  · cases hopc
  · split at hopc
    · next h0F =>
      subst h0F
      obtain ⟨op2, bs₄, hb, hopc⟩ := Scan.andThen_ok hopc
      split at hopc <;> cases hopc
      next hop =>
      rw [scanByte_ok hb]
      obtain ⟨hfit, hbs⟩ := scanBody_escape_ok hop hbody
      exact ⟨hfit, rfl, hbs⟩
    · split at hopc <;> cases hopc
      next hop =>
      obtain ⟨hfit, hbs⟩ := scanBody_ok hop hp hbody
      exact ⟨hfit, rfl, hbs⟩

/-! ## Every latch that fits a form is an instruction's -/

/-- The last opcode byte of a form (R97, R98). -/
def OpForm.opcode : OpForm → Byte
  | .grp80 => 0x80
  | .grp81 => 0x81
  | .grp83 => 0x83
  | .grpC6 => 0xC6
  | .grpC7 => 0xC7
  | .grpFE => 0xFE
  | .grpFF => 0xFF
  | .xor30 => 0x30
  | .xor31 => 0x31
  | .xor32 => 0x32
  | .xor33 => 0x33
  | .mov88 => 0x88
  | .mov89 => 0x89
  | .mov8A => 0x8A
  | .mov8B => 0x8B
  | .lea8D => 0x8D
  | .movB0 r => 0x16#5 ++ r
  | .movB8 r => 0x17#5 ++ r
  | .jcc8 c => 0x7#4 ++ c.code
  | .jcc32 c => 0x8#4 ++ c.code
  | .jmp8 => 0xEB
  | .jmp32 => 0xE9
  | .call32 => 0xE8
  | .ret => 0xC3
  | .syscall => 0x05

theorem oneByteForm_opcode : ∀ op : Byte, ∀ f ∈ oneByteForm op, op = f.opcode := by decide

theorem oneByteForm_ne_twoByteForm : ∀ op : Byte, ∀ f ∈ oneByteForm op, twoByteForm f.opcode ≠ some f := by decide

theorem twoByteForm_opcode : ∀ op : Byte, ∀ f ∈ twoByteForm op, op = f.opcode := by decide

theorem Pfx.osz_ne_o8 (p : Pfx) : p.osz ≠ .o8 := by
  unfold Pfx.osz
  split
  · nofun
  · split <;> nofun

/-- The bytes of an iw, id or io immediate. -/
theorem Imm.bytes_ofBytes {bs : List Byte} (h : bs.length = 2 ∨ bs.length = 4 ∨ bs.length = 8) :
    (Imm.ofBytes bs).bytes = bs := by
  rcases h with h | h | h
  all_goals simp only [Imm.ofBytes, h]; exact leBytes_leVal rfl bs h

theorem Imm.wfW_ofBytes {k : OSize} (hk : k ≠ .o8) {bs : List Byte} (h : bs.length = immWLen k) :
    (Imm.ofBytes bs).wfW k = true ∧ (Imm.ofBytes bs).bytes = bs := by
  cases k with
  | o8 => exact absurd rfl hk
  | o16 => exact ⟨by simp [Imm.ofBytes, h, immWLen, Imm.wfW], Imm.bytes_ofBytes (.inl h)⟩
  | o32 | o64 => exact ⟨by simp [Imm.ofBytes, h, immWLen, Imm.wfW], Imm.bytes_ofBytes (.inr (.inl h))⟩

theorem Imm.wfV_ofBytes {k : OSize} (hk : k ≠ .o8) {bs : List Byte} (h : bs.length = k.bytes) :
    (Imm.ofBytes bs).wfV k = true ∧ (Imm.ofBytes bs).bytes = bs := by
  cases k with
  | o8 => exact absurd rfl hk
  | o16 => exact ⟨by simp [Imm.ofBytes, h, Imm.wfV], Imm.bytes_ofBytes (.inl h)⟩
  | o32 => exact ⟨by simp [Imm.ofBytes, h, Imm.wfV], Imm.bytes_ofBytes (.inr (.inl h))⟩
  | o64 => exact ⟨by simp [Imm.ofBytes, h, Imm.wfV], Imm.bytes_ofBytes (.inr (.inr h))⟩

/-- A form with a ModRM byte: its fields are those of a well-formed instruction. -/
theorem exists_instr_modrm {f : OpForm} {p : Pfx} {reg : BitVec 3} {rm : RM} {imm : List Byte}
    (hm : f.hasModrm = true) (hwf : wfModrm f p rm = true) (hext : f.extAdmitted reg = true)
    (hill : f = .lea8D → rm.isReg = false) (himm : imm.length = f.immLen (f.osz p)) :
    ∃ i : Instr, i.wf = true ∧ i.latch = modrmLatch f.opcode p reg rm imm := by
  have himm8 (h : imm.length = 1) : leBytes 1 (leVal 8 imm) = imm := leBytes_leVal rfl imm h
  have himmW := Imm.wfW_ofBytes p.osz_ne_o8 (bs := imm)
  have hnone (h : imm.length = 0) : imm = [] := List.length_eq_zero_iff.mp h
  have hreg (h : (reg == 0) = true) : reg = 0 := beq_iff_eq.mp h
  cases f with
  | grp80 =>
    exact ⟨instr80 (.ofExt reg) p rm (leVal 8 imm), by rwa [instr80_wf],
      by rw [instr80_latch, AluOp.ext_ofExt, himm8 himm]; rfl⟩
  | grp81 =>
    obtain ⟨hiwf, hbytes⟩ := himmW himm
    exact ⟨instr81 (.ofExt reg) p rm (.ofBytes imm), by rw [instr81_wf, hwf, hiwf]; rfl,
      by rw [instr81_latch, AluOp.ext_ofExt, hbytes]; rfl⟩
  | grp83 =>
    exact ⟨instr83 (.ofExt reg) p rm (leVal 8 imm), by rwa [instr83_wf],
      by rw [instr83_latch, AluOp.ext_ofExt, himm8 himm]; rfl⟩
  | grpC6 =>
    exact ⟨.movRm8Imm8 p rm (leVal 8 imm), hwf, by rw [Instr.latch, himm8 himm, hreg hext]; rfl⟩
  | grpC7 =>
    obtain ⟨hiwf, hbytes⟩ := himmW himm
    exact ⟨.movRmImm p rm (.ofBytes imm), (Bool.and_eq_true ..).mpr ⟨hwf, hiwf⟩,
      by rw [Instr.latch, hbytes, hreg hext]; rfl⟩
  | grpFE => exact ⟨.incRm8 p rm, hwf, by rw [hnone himm, hreg hext]; rfl⟩
  | grpFF => exact ⟨.incRm p rm, hwf, by rw [hnone himm, hreg hext]; rfl⟩
  | xor30 => exact ⟨.xorRm8R8 p rm reg, hwf, by rw [hnone himm]; rfl⟩
  | xor31 => exact ⟨.xorRmR p rm reg, hwf, by rw [hnone himm]; rfl⟩
  | xor32 => exact ⟨.xorR8Rm8 p reg rm, hwf, by rw [hnone himm]; rfl⟩
  | xor33 => exact ⟨.xorRRm p reg rm, hwf, by rw [hnone himm]; rfl⟩
  | mov88 => exact ⟨.movRm8R8 p rm reg, hwf, by rw [hnone himm]; rfl⟩
  | mov89 => exact ⟨.movRmR p rm reg, hwf, by rw [hnone himm]; rfl⟩
  | mov8A => exact ⟨.movR8Rm8 p reg rm, hwf, by rw [hnone himm]; rfl⟩
  | mov8B => exact ⟨.movRRm p reg rm, hwf, by rw [hnone himm]; rfl⟩
  | lea8D =>
    cases rm with
    | reg r => exact Bool.noConfusion (hill rfl)
    | mem m => exact ⟨.leaRM p reg m, hwf, by rw [hnone himm]; rfl⟩
  | movB0 | movB8 | jcc8 | jcc32 | jmp8 | jmp32 | call32 | ret | syscall => cases hm

/-- A form with one opcode byte and no ModRM byte: its fields are those of a well-formed instruction. -/
theorem exists_instr_plain {f : OpForm} {op : Byte} {p : Pfx} {imm : List Byte} (hop : oneByteForm op = some f)
    (hm : f.hasModrm = false) (hwf : wfPlain f p = true) (himm : imm.length = f.immLen (f.osz p)) :
    ∃ i : Instr, i.wf = true ∧ i.latch = plainLatch [op] p imm := by
  have himm8 (h : imm.length = 1) : leBytes 1 (leVal 8 imm) = imm := leBytes_leVal rfl imm h
  have himm32 (h : imm.length = 4) : leBytes 4 (leVal 32 imm) = imm := leBytes_leVal rfl imm h
  rw [oneByteForm_opcode op f hop]
  obtain ⟨-, hpfx⟩ := (Bool.and_eq_true ..).mp hwf
  cases f with
  | movB0 r => exact ⟨.movR8Imm8 p r (leVal 8 imm), hwf, by rw [Instr.latch, himm8 himm]; rfl⟩
  | movB8 r =>
    obtain ⟨hiwf, hbytes⟩ := Imm.wfV_ofBytes p.osz_ne_o8 himm
    exact ⟨.movRImm p r (.ofBytes imm), (Bool.and_eq_true ..).mpr ⟨hwf, hiwf⟩, by rw [Instr.latch, hbytes]; rfl⟩
  | jcc8 c =>
    exact ⟨instrJcc8 c (leVal 8 imm), by cases c <;> rfl,
      by rw [instrJcc8_latch, himm8 himm, p.eq_none_iff.mpr hpfx]; rfl⟩
  | jmp8 => exact ⟨.jmpRel8 (leVal 8 imm), rfl, by rw [Instr.latch, himm8 himm, p.eq_none_iff.mpr hpfx]; rfl⟩
  | jmp32 => exact ⟨.jmpRel32 (leVal 32 imm), rfl, by rw [Instr.latch, himm32 himm, p.eq_none_iff.mpr hpfx]; rfl⟩
  | call32 => exact ⟨.callRel32 (leVal 32 imm), rfl, by rw [Instr.latch, himm32 himm, p.eq_none_iff.mpr hpfx]; rfl⟩
  | ret => exact ⟨.ret, rfl, by rw [List.length_eq_zero_iff.mp himm, p.eq_none_iff.mpr hpfx]; rfl⟩
  | jcc32 c => exact absurd (twoByteForm_jcc32 c) (oneByteForm_ne_twoByteForm op _ hop)
  | syscall => exact absurd rfl (oneByteForm_ne_twoByteForm op _ hop)
  | grp80 | grp81 | grp83 | grpC6 | grpC7 | grpFE | grpFF | xor30 | xor31 | xor32 | xor33 | mov88 | mov89 | mov8A
  | mov8B | lea8D => cases hm

/-- A form after the escape: its fields are those of a well-formed instruction. -/
theorem exists_instr_escape {f : OpForm} {op : Byte} {imm : List Byte} (hop : twoByteForm op = some f)
    (himm : imm.length = f.immLen (f.osz .none)) :
    ∃ i : Instr, i.wf = true ∧ i.latch = plainLatch [0x0F, op] .none imm := by
  rw [twoByteForm_opcode op f hop]
  rcases twoByteForm_cases hop with rfl | ⟨c, rfl⟩
  · exact ⟨.syscall, rfl, by rw [List.length_eq_zero_iff.mp himm]; rfl⟩
  · have himm32 : leBytes 4 (leVal 32 imm) = imm := leBytes_leVal rfl imm himm
    exact ⟨instrJcc32 c (leVal 32 imm), by cases c <;> rfl, by rw [instrJcc32_latch, himm32]; rfl⟩

/-- The latch that fits a form is the latch of the well-formed instruction that the form builds from it. -/
theorem OpForm.Fits.build_latch {f : OpForm} {l : Latch} (h : f.Fits l) :
    (f.build l).latch = l ∧ (f.build l).wf = true := by
  have hi : ∃ i : Instr, i.wf = true ∧ i.latch = l := by
    cases h with
    | modrm hop hm hwf hext hill himm =>
      rw [oneByteForm_opcode _ _ hop]
      exact exists_instr_modrm hm hwf hext hill himm
    | plain hop hm hwf himm => exact exists_instr_plain hop hm hwf himm
    | escape hop hm hwf himm => exact exists_instr_escape hop himm
  obtain ⟨i, hwf, rfl⟩ := hi
  have hdec := (decode_encode hwf []).symm.trans (h.decode_bytes [])
  have hbuild : i = f.build i.latch := by simpa using hdec
  rw [← hbuild]
  exact ⟨rfl, hwf⟩

/-- Settles O1: the stages read each field of an encoded instruction back. -/
theorem decodeOfEncodeIsTheInstruction : Obligations.DecodeOfEncodeIsTheInstruction :=
  fun _ rest h => decode_encode h rest

/-- Settles O2: the bytes that were read are those of a latch that fits a form, and each such latch is the latch of the
well-formed instruction that the form builds. -/
theorem decoderConsumesExactlyItsEncoding : Obligations.DecoderConsumesExactlyItsEncoding := by
  intro bs rest l i h
  obtain ⟨f, hf, rfl, rfl⟩ := decode_ok h
  obtain ⟨hl, hwf⟩ := hf.build_latch
  exact ⟨by rw [encode, hl], hl.symm, hwf⟩

end Sys2Proof
end

/-! # The decoder's verdicts (R114, R118) -/

section
namespace Sys2Proof

/-! ## Verdicts of stages -/

/-- The verdict of a stage: illegal with these bytes not read, or refused; none for a result or a missing byte. -/
def Scan.verdict {α : Type} : Scan α → Option (List Byte ⊕ DecodeRefusal)
  | .illegal rest => some (.inl rest)
  | .refused r => some (.inr r)
  | .ok _ _ | .more => none

section
variable {α β : Type}

theorem Scan.eq_illegal_iff {x : Scan α} {rest : List Byte} : x = .illegal rest ↔ x.verdict = some (.inl rest) := by
  cases x <;> simp [Scan.verdict]

theorem Scan.eq_refused_iff {x : Scan α} {r : DecodeRefusal} : x = .refused r ↔ x.verdict = some (.inr r) := by
  cases x <;> simp [Scan.verdict]

/-- Stages without a verdict add none. -/
theorem Scan.verdict_andThen {x : Scan α} {f : α → List Byte → Scan β} (hf : ∀ a rest, (f a rest).verdict = none) :
    (x.andThen f).verdict = x.verdict := by
  cases x with
  | ok a rest => exact hf a rest
  | illegal rest => rfl
  | refused r => rfl
  | more => rfl

end

theorem scanByte_verdict (bs : List Byte) : (scanByte bs).verdict = none := by cases bs <;> rfl

theorem scanBytes_verdict (n : Nat) (bs : List Byte) : (scanBytes n bs).verdict = none := by
  induction n generalizing bs with
  | zero => rfl
  | succ n ih =>
    rw [scanBytes, Scan.verdict_andThen fun b rest => (Scan.verdict_andThen fun _ _ => rfl).trans (ih rest)]
    exact scanByte_verdict bs

theorem scanSib_verdict (m : Byte) (bs : List Byte) : (scanSib m bs).verdict = none := by
  rw [scanSib]
  split
  · exact (Scan.verdict_andThen fun _ _ => rfl).trans (scanByte_verdict bs)
  · rfl

/-- A form with a ModRM byte has its verdict at that byte. -/
theorem scanBody_verdict_modrm {f : OpForm} (hm : f.hasModrm = true) (p : Pfx) (opcode bs : List Byte) :
    (scanBody f p opcode bs).verdict = (scanModrm f p bs).verdict := by
  rw [scanBody, if_pos hm]
  refine Scan.verdict_andThen fun m bs => (Scan.verdict_andThen fun sib bs => ?_).trans (scanSib_verdict m bs)
  refine (Scan.verdict_andThen fun disp bs => ?_).trans (scanBytes_verdict _ bs)
  exact (Scan.verdict_andThen fun _ _ => rfl).trans (scanBytes_verdict _ bs)

/-- A form without a ModRM byte has its verdict at the opcode. -/
theorem scanBody_verdict_plain {f : OpForm} (hm : f.hasModrm = false) (p : Pfx) (opcode bs : List Byte) :
    (scanBody f p opcode bs).verdict =
      if f.pfxAllowed p false = true then none else some (.inr .prefixNotApplicable) := by
  rw [scanBody, hm, if_neg Bool.false_ne_true]
  by_cases hpfx : f.pfxAllowed p false = true
  · rw [if_neg (not_not_intro hpfx), if_pos hpfx]
    exact (Scan.verdict_andThen fun _ _ => rfl).trans (scanBytes_verdict _ bs)
  · rw [if_pos hpfx, if_neg hpfx]
    rfl

/-- The verdict that falls on a ModRM byte (R99, R112, R113; log entry 13). -/
theorem scanModrm_verdict (f : OpForm) (p : Pfx) (m : Byte) (bs : List Byte) :
    (scanModrm f p (m :: bs)).verdict =
      if f.extAdmitted (regOf m) = false then some (.inr .groupMemberNotAdmitted)
      else if f.illegalMod (modOf m) = true then some (.inl bs)
      else if f.pfxAllowed p (modOf m == 3) = false then some (.inr .prefixNotApplicable) else none := by
  simp only [scanModrm, scanByte, Scan.andThen, Bool.not_eq_true]
  repeat' split
  all_goals rfl

/-- From an opcode of one byte on, the verdict is the one of the form's fields. -/
theorem scanInstr_one_verdict {op : Byte} {f : OpForm} (hop : oneByteForm op = some f) (p : Pfx) (bs : List Byte) :
    (scanInstr p op bs).verdict = (scanBody f p [op] bs).verdict := by
  rw [scanInstr, scanOpcode_one hop]
  exact Scan.verdict_andThen (f := fun l bs => .ok (l, f.build l) bs) fun _ _ => rfl

theorem scanInstr_two_verdict {op : Byte} {f : OpForm} (hop : twoByteForm op = some f) (p : Pfx) (bs : List Byte) :
    (scanInstr p 0x0F (op :: bs)).verdict = (scanBody f p [0x0F, op] bs).verdict := by
  rw [scanInstr, scanOpcode_two hop]
  exact Scan.verdict_andThen (f := fun l bs => .ok (l, f.build l) bs) fun _ _ => rfl

/-- A byte in opcode position that is in no map is refused (R97). -/
theorem scanInstr_one_unknown {op : Byte} (hrex : isRexByte op = false) (h66 : op ≠ 0x66) (h0F : op ≠ 0x0F)
    (hop : oneByteForm op = none) (p : Pfx) (bs : List Byte) :
    scanInstr p op bs = .refused .opcodeNotAdmitted := by
  rw [scanInstr, scanOpcode, if_neg (not_or.mpr ⟨ne_true_of_eq_false hrex, h66⟩), if_neg h0F, hop]
  rfl

/-- A byte after the escape that is not in the two-byte map is refused (R98). -/
theorem scanInstr_two_unknown {op : Byte} (hop : twoByteForm op = none) (p : Pfx) (bs : List Byte) :
    scanInstr p 0x0F (op :: bs) = .refused .opcodeNotAdmitted := by
  rw [scanInstr, scanOpcode, if_neg (by decide), if_pos rfl]
  simp only [scanByte, Scan.andThen, hop]

/-! ## Illegal encodings -/

theorem scanLegacy_not_illegal (seen : List LegacyPrefix) (bs rest : List Byte) :
    scanLegacy seen bs ≠ .illegal rest := by
  induction bs generalizing seen with
  | nil => nofun
  | cons b bs ih =>
    rw [scanLegacy]
    split
    · split
      · split <;> nofun
      · exact ih _
    · split <;> nofun

theorem scanRex_not_illegal (b : Byte) (bs rest : List Byte) : scanRex b bs ≠ .illegal rest := by
  rw [scanRex]
  split
  · cases bs with
    | nil => nofun
    | cons op bs =>
      simp only [scanByte, Scan.andThen]
      split <;> nofun
  · nofun

theorem scanPrefixes_not_illegal (bs rest : List Byte) : scanPrefixes bs ≠ .illegal rest := by
  intro h
  rw [scanPrefixes] at h
  cases hl : scanLegacy [] bs with
  | ok a bs₁ =>
    rw [hl, Scan.eq_illegal_iff] at h
    exact scanRex_not_illegal _ _ _ (Scan.eq_illegal_iff.mpr ((Scan.verdict_andThen fun _ _ => rfl).symm.trans h))
  | illegal r => exact scanLegacy_not_illegal _ _ _ hl
  | refused r => rw [hl] at h; cases h
  | more => rw [hl] at h; cases h

/-- After the escape byte no verdict is illegal. -/
theorem scanInstr_escape_not_illegal (p : Pfx) (bs rest : List Byte) : scanInstr p 0x0F bs ≠ .illegal rest := by
  cases bs with
  | nil => nofun
  | cons op bs =>
    cases hop : twoByteForm op with
    | none => rw [scanInstr_two_unknown hop]; nofun
    | some f =>
      rw [Ne, Scan.eq_illegal_iff, scanInstr_two_verdict hop,
        scanBody_verdict_plain (twoByteForm_plain hop p false).1]
      split <;> nofun

theorem OpForm.illegalMod_eq_false {f : OpForm} (hlea : f ≠ .lea8D) (mod : BitVec 2) : f.illegalMod mod = false := by
  simp [OpForm.illegalMod, hlea]

/-- A form's fields are illegal exactly for LEA with mod 11 (R113). -/
theorem scanBody_illegal_iff {f : OpForm} {p : Pfx} {opcode bs rest : List Byte} :
    scanBody f p opcode bs = .illegal rest ↔ f = .lea8D ∧ ∃ m, modOf m = 3 ∧ bs = m :: rest := by
  rw [Scan.eq_illegal_iff]
  cases hm : f.hasModrm with
  | false =>
    have hlea : f ≠ .lea8D := by rintro rfl; cases hm
    rw [scanBody_verdict_plain hm]
    split <;> simp [hlea]
  | true =>
    rw [scanBody_verdict_modrm hm]
    cases bs with
    | nil => simp [scanModrm, scanByte, Scan.andThen, Scan.verdict]
    | cons m bs =>
      rw [scanModrm_verdict]
      by_cases hlea : f = .lea8D
      · subst hlea
        by_cases hmod : modOf m = 3#2 <;> simp [OpForm.extAdmitted, OpForm.illegalMod, hmod]
      · rw [f.illegalMod_eq_false hlea, if_neg Bool.false_ne_true]
        refine iff_of_false ?_ fun h => hlea h.1
        split
        · nofun
        · split <;> nofun

/-- From the opcode byte on, a REX byte, a 0x66 and LEA with mod 11 are illegal, and nothing else (R113, R114). -/
theorem scanInstr_illegal_iff {p : Pfx} {op : Byte} {bs rest : List Byte} :
    scanInstr p op bs = .illegal rest ↔
      (isRexByte op = true ∨ op = 0x66) ∧ bs = rest ∨ op = 0x8D ∧ ∃ m, modOf m = 3 ∧ bs = m :: rest := by
  by_cases hstop : isRexByte op = true ∨ op = 0x66
  · have hlea : op ≠ 0x8D := by rintro rfl; exact absurd hstop (by decide)
    have hv : scanInstr p op bs = .illegal bs := by rw [scanInstr, scanOpcode, if_pos hstop]; rfl
    simp only [hv, Scan.illegal.injEq, hstop, hlea, true_and, false_and, or_false]
  · simp only [hstop, false_and, false_or]
    by_cases h0F : op = 0x0F
    · subst h0F
      exact iff_of_false (scanInstr_escape_not_illegal p bs rest) fun h => absurd h.1 (by decide)
    · cases hop : oneByteForm op with
      | none =>
        rw [not_or, Bool.not_eq_true] at hstop
        rw [scanInstr_one_unknown hstop.1 hstop.2 h0F hop]
        exact iff_of_false nofun fun h => by rw [h.1] at hop; cases hop
      | some f =>
        have hlea : f = .lea8D ↔ op = 0x8D :=
          ⟨fun h => by rw [oneByteForm_opcode op f hop, h]; rfl,
            fun h => by rw [h] at hop; exact (Option.some.inj hop).symm⟩
        rw [Scan.eq_illegal_iff, scanInstr_one_verdict hop, ← Scan.eq_illegal_iff, scanBody_illegal_iff, hlea]

theorem rexByte_no_legacy : ∀ b : Byte, isRexByte b = true →
    LegacyPrefix.ofByte b = none ∧ isRefusedPrefix b = false := by decide

/-- Settles O8: the stages before the opcode are never illegal, and from the opcode byte on exactly three bytes are. -/
theorem illegalEncodingsAreExactlyThree : Obligations.IllegalEncodingsAreExactlyThree := by
  intro bs rest
  constructor
  · intro h
    rw [decode_eq] at h
    cases hpre : scanPrefixes bs with
    | ok a bs₁ =>
      obtain ⟨p, op⟩ := a
      rw [hpre] at h
      obtain ⟨hp, hend, rfl⟩ := scanPrefixes_ok hpre
      refine ⟨p, hp, ?_⟩
      rcases scanInstr_illegal_iff.mp h with ⟨hrex | rfl, rfl⟩ | ⟨rfl, m, hm, rfl⟩
      · refine .inl ⟨?_, op, hrex, rfl⟩
        rcases hend with ⟨rfl, -⟩ | ⟨-, h⟩
        · exact absurd hrex (show isRexByte 0x66 ≠ true by decide)
        · exact h.resolve_right (by simp [hrex])
      · refine .inr (.inl ⟨?_, rfl⟩)
        rcases hend with ⟨-, h⟩ | ⟨⟨h, -⟩, -⟩
        · exact h
        · cases h
      · exact .inr (.inr ⟨m, hm, rfl⟩)
    | illegal r => exact absurd hpre (scanPrefixes_not_illegal bs r)
    | refused r => rw [hpre] at h; cases h
    | more => rw [hpre] at h; cases h
  · rintro ⟨p, hp, ⟨hrex, b, hb, rfl⟩ | ⟨h66, rfl⟩ | ⟨m, hm, rfl⟩⟩
    · have hend : p.endsAt b := .inr ⟨rexByte_no_legacy b hb, .inl hrex⟩
      rw [decode_bytes_append hp hend, scanInstr_illegal_iff]
      exact .inl ⟨.inl hb, rfl⟩
    · rw [decode_bytes_append hp (.inl ⟨rfl, h66⟩), scanInstr_illegal_iff]
      exact .inl ⟨.inr rfl, rfl⟩
    · rw [decode_bytes_append hp (.inr ⟨⟨rfl, rfl⟩, .inr rfl⟩), scanInstr_illegal_iff]
      exact .inr ⟨rfl, m, hm, rfl⟩

/-! ## Prefix bytes that are refused (R94, R95) -/

/-- Without REX, a refusal of the stage of legacy prefixes is the decoder's. -/
theorem decode_legacy_refused {p : Pfx} (hp : p.wf = true) (hrex : p.rex = none) {bs : List Byte} {r : DecodeRefusal}
    (h : scanLegacy p.legacy bs = .refused r) : decode (p.bytes ++ bs) = .refused r := by
  rw [decode_eq, scanPrefixes, Pfx.bytes, hrex]
  simp only [Option.map_none, Option.toList_none, List.append_nil, scanLegacy_append hp, List.nil_append, h,
    Scan.andThen]

theorem scanLegacy_duplicate {seen : List LegacyPrefix} {q : LegacyPrefix} (hq : q ≠ .opsize)
    (hdup : isDuplicate seen q = true) (bs : List Byte) :
    scanLegacy seen (q.byte :: bs) = .refused .duplicatePrefix := by
  simp [scanLegacy, hq, hdup]

/-- After REX, the bytes of legacy prefixes other than 0x66 are refused (R95). -/
theorem decode_after_rex_refused {p : Pfx} (hp : p.wf = true) (hrex : p.rexPresent = true) {b : Byte} (h66 : b ≠ 0x66)
    (hb : (LegacyPrefix.ofByte b).isSome ∨ isRefusedPrefix b) (rest : List Byte) :
    decode (p.bytes ++ b :: rest) = .refused .legacyPrefixAfterRex := by
  obtain ⟨r, hr⟩ := Option.isSome_iff_exists.mp hrex
  have hend : legacyEndsAt p.legacy r.byte := .inr r.byte_no_legacy
  rw [decode_eq, scanPrefixes, Pfx.bytes, hr]
  simp only [Option.map_some, Option.toList_some, List.append_assoc, List.singleton_append, scanLegacy_append hp,
    List.nil_append, scanLegacy_end hend, scanRex_byte, if_pos (And.intro h66 hb), Scan.andThen]

theorem Pfx.seg_eq_none_iff (p : Pfx) : p.seg = Option.none ↔ .segFS ∉ p.legacy ∧ .segGS ∉ p.legacy := by
  simp only [Pfx.seg, List.contains_iff_mem]
  split
  · next h => simp [h]
  · next h => split <;> simp_all

/-- Settles O9: the stage of legacy prefixes refuses the first two kinds, the REX stage the third. -/
theorem prefixBytesRefused : Obligations.PrefixBytesRefused := by
  intro p b rest hp
  refine ⟨fun hrex hb => ?_, fun hrex hb => ?_, fun hrex hb => ?_⟩
  · have hrefused : ∀ b ∈ ([0xF0, 0xF2, 0xF3, 0x26, 0x2E, 0x36, 0x3E] : List Byte),
        LegacyPrefix.ofByte b = none ∧ isRefusedPrefix b = true := by decide
    obtain ⟨hnone, href⟩ := hrefused b hb
    exact decode_legacy_refused hp hrex (by simp [scanLegacy, hnone, href])
  · rcases hb with ⟨rfl, h⟩ | ⟨hb, h⟩
    · exact decode_legacy_refused hp hrex (scanLegacy_duplicate (q := .addrsize) nofun h rest)
    · have hseg : p.legacy.contains .segFS || p.legacy.contains .segGS := by
        rw [Ne, Pfx.seg_eq_none_iff] at h
        simpa [or_iff_not_imp_left] using h
      rcases hb with rfl | rfl
      · exact decode_legacy_refused hp hrex (scanLegacy_duplicate (q := .segFS) nofun hseg rest)
      · exact decode_legacy_refused hp hrex (scanLegacy_duplicate (q := .segGS) nofun hseg rest)
  · have hlegacy : ∀ b ∈ ([0x67, 0x64, 0x65, 0xF0, 0xF2, 0xF3, 0x26, 0x2E, 0x36, 0x3E] : List Byte),
        b ≠ 0x66 ∧ ((LegacyPrefix.ofByte b).isSome ∨ isRefusedPrefix b) := by decide
    obtain ⟨h66, hb⟩ := hlegacy b hb
    exact decode_after_rex_refused hp hrex h66 hb rest

/-! ## Opcodes outside the maps, and group members (R97 to R99) -/

/-- The decoder goes on with `scanInstr` at a byte that no stage before the opcode takes. -/
theorem decode_opcodeByte {p : Pfx} (hp : p.wf = true) {op : Byte} (h : opcodeByte op = true) (bs : List Byte) :
    decode (p.bytes ++ op :: bs) = scanInstr p op bs := decode_pfx_bytes hp h bs

/-- The verdict of a form with a ModRM byte, after the prefixes. -/
theorem decode_modrm_verdict {p : Pfx} (hp : p.wf = true) {op : Byte} {f : OpForm} (hop : oneByteForm op = some f)
    (hm : f.hasModrm = true) (m : Byte) (rest : List Byte) :
    (decode (p.bytes ++ op :: m :: rest)).verdict = (scanModrm f p (m :: rest)).verdict := by
  rw [decode_opcodeByte hp (opcodeByte_of_oneByteForm op (by rw [hop]; rfl)).1, scanInstr_one_verdict hop,
    scanBody_verdict_modrm hm]

/-- Settles O10: the first two refusals are of the opcode, the third falls on the ModRM byte before the other checks. -/
theorem opcodesOutsideTheMapsRefused : Obligations.OpcodesOutsideTheMapsRefused := by
  intro p b rest hp
  refine ⟨?_, fun h05 hjcc => ?_, fun op hop hreg => ?_⟩
  · have hunknown : ∀ b : Byte,
        b ∉ ([0x0F, 0x26, 0x2E, 0x36, 0x3E, 0x64, 0x65, 0x66, 0x67, 0xF0, 0xF2, 0xF3] : List Byte) ∧
        ¬ (0x30 ≤ b ∧ b ≤ 0x33) ∧ ¬ (0x40 ≤ b ∧ b ≤ 0x4F) ∧ ¬ (0x70 ≤ b ∧ b ≤ 0x7F) ∧
        ¬ (0x88 ≤ b ∧ b ≤ 0x8B) ∧ ¬ (0xB0 ≤ b ∧ b ≤ 0xBF) ∧
        b ∉ ([0x80, 0x81, 0x83, 0x8D, 0xC3, 0xC6, 0xC7, 0xE8, 0xE9, 0xEB, 0xFE, 0xFF] : List Byte) →
        opcodeByte b = true ∧ isRexByte b = false ∧ b ≠ 0x66 ∧ b ≠ 0x0F ∧ oneByteForm b = none := by decide
    intro h₁ h₂ h₃ h₄ h₅ h₆ h₇
    obtain ⟨hb, hrex, h66, h0F, hop⟩ := hunknown b ⟨h₁, h₂, h₃, h₄, h₅, h₆, h₇⟩
    rw [decode_opcodeByte hp hb, scanInstr_one_unknown hrex h66 h0F hop]
  · have hunknown : ∀ b : Byte, b ≠ 0x05 → ¬ (0x80 ≤ b ∧ b ≤ 0x8F) → twoByteForm b = none := by decide
    rw [decode_opcodeByte hp (by decide), scanInstr_two_unknown (hunknown b h05 hjcc)]
  · have hgroup : ∀ op ∈ ([0xC6, 0xC7, 0xFE, 0xFF] : List Byte),
        ∃ f ∈ oneByteForm op, f.hasModrm = true ∧ ∀ e : BitVec 3, e ≠ 0 → f.extAdmitted e = false := by decide
    obtain ⟨f, hf, hm, hext⟩ := hgroup op hop
    rw [Scan.eq_refused_iff, decode_modrm_verdict hp hf hm, scanModrm_verdict, if_pos (hext _ hreg)]

/-! ## Prefix applicability (R112) -/

theorem Pfx.not_namesMemory_iff (p : Pfx) : (!p.adsz32 && p.seg.isNone) = false ↔ p.namesMemory := by
  rw [Bool.and_eq_false_iff, Bool.not_eq_false', Option.isNone_eq_false_iff, Pfx.namesMemory]

/-- A form whose operand size is not 8 is refused for 0x67, 0x64 and 0x65 beside a register operand (R112). -/
theorem OpForm.pfxAllowed_eq_false_of_wide {f : OpForm} (hm : f.hasModrm = true) (hb : f.byteForm = false)
    (hlea : f ≠ .lea8D) (p : Pfx) (mod : BitVec 2) :
    f.pfxAllowed p (mod == 3) = false ↔ mod = 3 ∧ p.namesMemory := by
  have hpfx : f.pfxAllowed p (mod == 3) = (!(mod == 3) || (!p.adsz32 && p.seg.isNone)) := by
    cases f with
    | grp81 | grp83 | grpC7 | grpFF | xor31 | xor33 | mov89 | mov8B => rfl
    | lea8D => exact absurd rfl hlea
    | grp80 | grpC6 | grpFE | xor30 | xor32 | mov88 | mov8A => cases hb
    | movB0 | movB8 | jcc8 | jcc32 | jmp8 | jmp32 | call32 | ret | syscall => cases hm
  rw [hpfx, Bool.or_eq_false_iff, Bool.not_eq_false', beq_iff_eq, Pfx.not_namesMemory_iff]

/-- A byte form is refused for 0x66 as well (R112). -/
theorem OpForm.pfxAllowed_eq_false_of_byteForm {f : OpForm} (hm : f.hasModrm = true) (hb : f.byteForm = true) (p : Pfx)
    (mod : BitVec 2) :
    f.pfxAllowed p (mod == 3) = false ↔ p.opsz16 = true ∨ mod = 3 ∧ p.namesMemory := by
  have hpfx : f.pfxAllowed p (mod == 3) = (!p.opsz16 && (!(mod == 3) || (!p.adsz32 && p.seg.isNone))) := by
    cases f with
    | grp80 | grpC6 | grpFE | xor30 | xor32 | mov88 | mov8A => rfl
    | grp81 | grp83 | grpC7 | grpFF | xor31 | xor33 | mov89 | mov8B | lea8D => cases hb
    | movB0 | movB8 | jcc8 | jcc32 | jmp8 | jmp32 | call32 | ret | syscall => cases hm
  rw [hpfx, Bool.and_eq_false_iff, Bool.or_eq_false_iff, Bool.not_eq_false', Bool.not_eq_false', beq_iff_eq,
    Pfx.not_namesMemory_iff]

/-- A form with a ModRM byte that has no other verdict is refused exactly for its prefixes. -/
theorem decode_modrm_not_applicable_iff {p : Pfx} (hp : p.wf = true) {op : Byte} {f : OpForm}
    (hop : oneByteForm op = some f) (hm : f.hasModrm = true) {m : Byte} (hext : f.extAdmitted (regOf m) = true)
    (hill : f.illegalMod (modOf m) = false) (rest : List Byte) :
    decode (p.bytes ++ op :: m :: rest) = .refused .prefixNotApplicable ↔
      f.pfxAllowed p (modOf m == 3) = false := by
  rw [Scan.eq_refused_iff, decode_modrm_verdict hp hop hm, scanModrm_verdict, hext, hill]
  cases f.pfxAllowed p (modOf m == 3) <;> simp

theorem decode_plain_not_applicable_iff {p : Pfx} (hp : p.wf = true) {op : Byte} {f : OpForm}
    (hop : oneByteForm op = some f) (hm : f.hasModrm = false) (rest : List Byte) :
    decode (p.bytes ++ op :: rest) = .refused .prefixNotApplicable ↔ f.pfxAllowed p false = false := by
  rw [Scan.eq_refused_iff, decode_opcodeByte hp (opcodeByte_of_oneByteForm op (by rw [hop]; rfl)).1,
    scanInstr_one_verdict hop, scanBody_verdict_plain hm]
  cases f.pfxAllowed p false <;> simp

theorem decode_escape_not_applicable_iff {p : Pfx} (hp : p.wf = true) {op : Byte} {f : OpForm}
    (hop : twoByteForm op = some f) (rest : List Byte) :
    decode (p.bytes ++ 0x0F :: op :: rest) = .refused .prefixNotApplicable ↔ p ≠ .none := by
  obtain ⟨hm, hpfx⟩ := twoByteForm_plain hop p false
  rw [Scan.eq_refused_iff, decode_opcodeByte hp (by decide), scanInstr_two_verdict hop, scanBody_verdict_plain hm, hpfx,
    Ne, Pfx.eq_none_iff]
  cases p.legacy.isEmpty && !p.rexPresent <;> simp

/-- Settles O11: each clause's opcodes have one form in common, or forms with the same row of the table. -/
theorem prefixApplicabilityFollowsTheTable : Obligations.PrefixApplicabilityFollowsTheTable := by
  intro p op m rest hp
  refine ⟨fun hop hgrp => ?_, fun hop hgrp => ?_, fun hmod => ?_, fun hop => ?_, fun hop => ?_, fun hop => ?_,
    fun hop => ?_⟩
  · have hform : ∀ op ∈ ([0x81, 0x83, 0xC7, 0xFF, 0x31, 0x33, 0x89, 0x8B] : List Byte), ∃ f ∈ oneByteForm op,
        f.hasModrm = true ∧ f.byteForm = false ∧ f ≠ .lea8D ∧
          ∀ e : BitVec 3, (op ∈ ([0xC7, 0xFF] : List Byte) → e = 0) → f.extAdmitted e = true := by decide
    obtain ⟨f, hf, hm, hb, hlea, hext⟩ := hform op hop
    rw [decode_modrm_not_applicable_iff hp hf hm (hext _ hgrp) (f.illegalMod_eq_false hlea _),
      OpForm.pfxAllowed_eq_false_of_wide hm hb hlea]
  · have hform : ∀ op ∈ ([0x80, 0xC6, 0xFE, 0x30, 0x32, 0x88, 0x8A] : List Byte), ∃ f ∈ oneByteForm op,
        f.hasModrm = true ∧ f.byteForm = true ∧ f ≠ .lea8D ∧
          ∀ e : BitVec 3, (op ∈ ([0xC6, 0xFE] : List Byte) → e = 0) → f.extAdmitted e = true := by decide
    obtain ⟨f, hf, hm, hb, hlea, hext⟩ := hform op hop
    rw [decode_modrm_not_applicable_iff hp hf hm (hext _ hgrp) (f.illegalMod_eq_false hlea _),
      OpForm.pfxAllowed_eq_false_of_byteForm hm hb]
  · have hill : OpForm.lea8D.illegalMod (modOf m) = false := by simpa [OpForm.illegalMod] using hmod
    rw [decode_modrm_not_applicable_iff hp (f := .lea8D) rfl rfl rfl hill, OpForm.pfxAllowed,
      Option.isNone_eq_false_iff, Option.isSome_iff_ne_none]
  · have hform : ∀ op : Byte, 0xB0 ≤ op ∧ op ≤ 0xB7 → oneByteForm op = some (.movB0 (op.extractLsb' 0 3)) := by decide
    rw [decode_plain_not_applicable_iff hp (hform op hop) rfl, OpForm.pfxAllowed, List.isEmpty_eq_false_iff]
  · have hform : ∀ op : Byte, 0xB8 ≤ op ∧ op ≤ 0xBF → oneByteForm op = some (.movB8 (op.extractLsb' 0 3)) := by decide
    rw [decode_plain_not_applicable_iff hp (hform op hop) rfl]
    exact p.not_namesMemory_iff
  · have hjcc : ∀ op : Byte, 0x70 ≤ op ∧ op ≤ 0x7F → oneByteForm op = some (.jcc8 (.ofCode (op.extractLsb' 0 4))) := by
      decide
    have hform : ∃ f, oneByteForm op = some f ∧ f.hasModrm = false ∧
        f.pfxAllowed p false = (p.legacy.isEmpty && !p.rexPresent) := by
      rcases hop with hop | hop
      · simp only [List.mem_cons, List.not_mem_nil, or_false] at hop
        rcases hop with rfl | rfl | rfl | rfl <;> exact ⟨_, rfl, rfl, rfl⟩
      · exact ⟨_, hjcc op hop, rfl, rfl⟩
    obtain ⟨f, hf, hm, hpfx⟩ := hform
    rw [decode_plain_not_applicable_iff hp hf hm, hpfx, Ne, Pfx.eq_none_iff, Bool.not_eq_true]
  · have hform : ∀ op : Byte, op = 0x05 ∨ 0x80 ≤ op ∧ op ≤ 0x8F → (twoByteForm op).isSome = true := by decide
    obtain ⟨f, hf⟩ := Option.isSome_iff_exists.mp (hform op hop)
    exact decode_escape_not_applicable_iff hp hf rest

end Sys2Proof
end

/-! # Bytes after the deciding one (R93, R235) -/

section
namespace Sys2Proof

/-- How a stage ends when more bytes follow the ones it was given. -/
def Scan.append {α : Type} (x : Scan α) (more : List Byte) : Scan α :=
  match x with
  | .ok a rest => .ok a (rest ++ more)
  | .illegal rest => .illegal (rest ++ more)
  | .refused r => .refused r
  | .more => .more

/-- A stage that has ended ends so whatever bytes follow. -/
def Stable {α : Type} (f : List Byte → Scan α) : Prop :=
  ∀ bs more : List Byte, f bs ≠ .more → f (bs ++ more) = (f bs).append more

section
variable {α β : Type}

theorem stable_ok (a : α) : Stable fun bs => .ok a bs := fun _ _ _ => rfl

theorem stable_illegal : Stable fun bs => (.illegal bs : Scan α) := fun _ _ _ => rfl

theorem stable_refused (r : DecodeRefusal) : Stable fun _ => (.refused r : Scan α) := fun _ _ _ => rfl

theorem Stable.andThen {f : List Byte → Scan α} {g : α → List Byte → Scan β} (hf : Stable f) (hg : ∀ a, Stable (g a)) :
    Stable fun bs => (f bs).andThen g := by
  intro bs more h
  dsimp only at h ⊢
  have hne : f bs ≠ .more := fun hm => h (by rw [hm]; rfl)
  rw [hf bs more hne]
  cases hx : f bs with
  | ok a rest =>
    rw [hx] at h
    exact hg a rest more h
  | illegal rest => rfl
  | refused r => rfl
  | more => exact absurd hx hne

theorem Stable.ite {c : Prop} [Decidable c] {f g : List Byte → Scan α} (hf : Stable f) (hg : Stable g) :
    Stable fun bs => if c then f bs else g bs := by
  by_cases h : c
  · simpa only [if_pos h] using hf
  · simpa only [if_neg h] using hg

end

theorem scanByte_stable : Stable scanByte := by
  intro bs more h
  cases bs with
  | nil => exact absurd rfl h
  | cons b bs => rfl

theorem scanBytes_stable (n : Nat) : Stable (scanBytes n) := by
  induction n with
  | zero => exact stable_ok []
  | succ n ih => exact scanByte_stable.andThen fun b => ih.andThen fun t => stable_ok _

theorem scanLegacy_stable (seen : List LegacyPrefix) : Stable (scanLegacy seen) := by
  intro bs more h
  induction bs generalizing seen with
  | nil => exact absurd rfl h
  | cons b bs ih =>
    rw [scanLegacy] at h
    rw [List.cons_append, scanLegacy, scanLegacy]
    split
    · next q hq =>
      rw [hq] at h
      by_cases hdup : isDuplicate seen q = true
      · rw [if_pos hdup, if_pos hdup]
        split <;> rfl
      · simp only [if_neg hdup] at h ⊢
        exact ih _ h
    · split <;> rfl

theorem scanRex_stable (b : Byte) : Stable (scanRex b) :=
  .ite (scanByte_stable.andThen fun _ => .ite (stable_refused _) (stable_ok _)) (stable_ok _)

theorem scanOpcode_stable (op : Byte) : Stable (scanOpcode op) := by
  refine .ite stable_illegal (.ite (scanByte_stable.andThen fun op2 => ?_) ?_)
  · cases twoByteForm op2 with
    | none => exact stable_refused _
    | some f => exact stable_ok _
  · cases oneByteForm op with
    | none => exact stable_refused _
    | some f => exact stable_ok _

theorem scanModrm_stable (f : OpForm) (p : Pfx) : Stable (scanModrm f p) :=
  scanByte_stable.andThen fun m => .ite (stable_refused _) (.ite stable_illegal (.ite (stable_refused _) (stable_ok m)))

theorem scanSib_stable (m : Byte) : Stable (scanSib m) :=
  .ite (scanByte_stable.andThen fun _ => stable_ok _) (stable_ok _)

theorem scanBody_stable (f : OpForm) (p : Pfx) (opcode : List Byte) : Stable (scanBody f p opcode) :=
  .ite
    ((scanModrm_stable f p).andThen fun m => (scanSib_stable m).andThen fun _ => (scanBytes_stable _).andThen fun _ =>
      (scanBytes_stable _).andThen fun _ => stable_ok _)
    (.ite (stable_refused _) ((scanBytes_stable _).andThen fun _ => stable_ok _))

/-- The decoder's answer does not change when bytes are appended. -/
theorem decode_stable : Stable decode :=
  (scanLegacy_stable []).andThen fun _ => (scanRex_stable _).andThen fun _ => (scanOpcode_stable _).andThen fun _ =>
    (scanBody_stable _ _ _).andThen fun _ => stable_ok _

/-- Settles O4: every stage of the decoder is stable. -/
theorem laterBytesChangeNoVerdict : Obligations.LaterBytesChangeNoVerdict := by
  intro bs more
  have happend (h : decode bs ≠ .more) : decode (bs ++ more) = (decode bs).append more := decode_stable bs more h
  refine ⟨fun a rest h => ?_, fun rest h => ?_, fun r h => ?_⟩
  all_goals rw [h] at happend; exact happend nofun

/-! ## Refused bytes at `pc` -/

/-- The bytes that the decoder may read decide its refusal. -/
theorem decode_take_refused {bs : List Byte} {r : DecodeRefusal} (h : decode bs = .refused r) :
    decode (bs.take maxLen) = .refused r := by
  have hne : decode (bs.take maxLen) ≠ .more := by
    intro hm
    have hlen := (decode_reads _).more hm
    rw [List.length_take] at hlen
    rw [List.take_of_length_le (by omega), h] at hm
    cases hm
  have hall := decode_stable _ (bs.drop maxLen) hne
  rw [List.take_append_drop, h] at hall
  cases hd : decode (bs.take maxLen) <;> rw [hd] at hall <;> cases hall
  rfl

namespace Machine

theorem decodeAt_of_refused {s : State} {bs : List Byte} {r : DecodeRefusal} (hc : s.codeIs bs)
    (hr : decode bs = .refused r) : decodeAt s.mem s.cpu.pc = .refused r := by
  have hcode : s.codeIs (bs.take maxLen) := fun k b hk => by
    rw [List.getElem?_take] at hk
    split at hk
    · exact hc k b hk
    · cases hk
  obtain ⟨more, hm⟩ := codeBytes_starts _ s.cpu.pc maxLen hcode (List.length_take_le ..)
  have hdec := decode_take_refused hr
  have hall := decode_stable (bs.take maxLen) more (by rw [hdec]; nofun)
  rw [hdec] at hall
  simp only [decodeAt, hm, hall, Scan.append]

/-- Settles O15: the bytes fetched begin with those that decide the refusal, and a refused run keeps its end state. -/
theorem refusedBytesRefuseTheStep : Obligations.RefusedBytesRefuseTheStep := by
  intro s bs r hs hc hr
  have hstep : step s = .refused (.decoder r) := by rw [step_running hs, decodeAt_of_refused hc hr]
  exact ⟨hstep, fun acts => by rw [turn, hstep]; rfl⟩

end Machine

/-! ## Lengths (R91; log entry 24) -/

/-- Three distinct legacy prefixes are 0x66, 0x67 and a segment override (R94). -/
theorem opsize_mem_of_three {l : List LegacyPrefix} (h : noDuplicate [] l = true) (hl : l.length = 3) :
    .opsize ∈ l := by
  obtain ⟨a, b, c, rfl⟩ := List.length_eq_three.mp hl
  revert h
  cases a <;> cases b <;> cases c <;> decide

/-- A form with a ModRM byte has at most two bytes of immediate at the operand sizes 8 and 16 (R108). -/
theorem OpForm.immLen_le_two {f : OpForm} (hm : f.hasModrm = true) {p : Pfx} (hp : p.osz = .o16) :
    f.immLen (f.osz p) ≤ 2 := by
  rw [OpForm.osz, hp]
  cases f with
  | movB0 | movB8 | jcc8 | jcc32 | jmp8 | jmp32 | call32 | ret | syscall => cases hm
  | grp80 | grp81 | grp83 | grpC6 | grpC7 | grpFE | grpFF | xor30 | xor31 | xor32 | xor33 | mov88 | mov89 | mov8A
  | mov8B | lea8D => decide

/-- A latch longer than MAXLEN has three legacy prefixes, and an immediate of four bytes though 0x66 is among them, for
REX.W sets the operand size (R107, R108). -/
theorem OpForm.Fits.of_maxlen_lt {f : OpForm} {l : Latch} (h : f.Fits l) (hlen : Config.MAXLEN < l.bytes.length) :
    l.bytes.length = 15 ∧ l.pfx.legacy.length = 3 ∧ l.pfx.bits.w = true := by
  have hle := h.length_le
  have hrex : l.pfx.rex.toList.length ≤ 1 := by cases l.pfx.rex <;> simp
  rw [Latch.bytes_length] at hlen hle ⊢
  rw [Config.MAXLEN] at hlen
  cases h with
  | @modrm op p reg rm imm hop hm hwf hext hill himm =>
    simp only [modrmLatch, List.length_singleton, Option.toList_some] at hlen hle hrex ⊢
    obtain ⟨⟨hp, -⟩, -⟩ : (p.wf = true ∧ rm.wf = true) ∧ f.pfxAllowed p rm.isReg = true := by
      simpa only [wfModrm, Bool.and_eq_true] using hwf
    have hlegacy := noDuplicate_length hp
    have hrm := rm.sib_disp_length
    have himm4 := himm ▸ (f.immLen_le (f.osz p)).2 hm
    have hthree : p.legacy.length = 3 := by omega
    refine ⟨by omega, hthree, ?_⟩
    by_contra hw
    have hosz := (Machine.osz_cases p).2.1 (Bool.eq_false_of_not_eq_true hw) (opsize_mem_of_three hp hthree)
    have := himm ▸ OpForm.immLen_le_two hm hosz
    omega
  | @plain op p imm hop hm hwf himm =>
    simp only [plainLatch, List.length_singleton, Option.toList_none, List.length_nil] at hlen hrex
    obtain ⟨hp, -⟩ := (Bool.and_eq_true ..).mp hwf
    have hlegacy := noDuplicate_length hp
    have := himm ▸ (f.immLen_le (f.osz p)).1
    omega
  | @escape op imm hop hm hwf himm =>
    simp only [plainLatch, Pfx.none, List.length_cons, Option.toList_none, List.length_nil] at hlen
    have := himm ▸ (f.immLen_le (f.osz .none)).1
    omega

/-- Settles O3: the decoder reads at most 15 bytes, and an encoding longer than MAXLEN has every field it can have. -/
theorem instructionLengthBounds : Obligations.InstructionLengthBounds := by
  refine ⟨fun bs hbs hm => ?_, ⟨.ret, rfl, rfl⟩, ?_, fun i hi hlen => ?_⟩
  · have hlt : bs.length < 15 := (decode_reads bs).more hm
    omega
  · exact ⟨.addRmImm ⟨[.opsize, .addrsize, .segFS], some ⟨true, false, false, false⟩⟩ (.mem (.sib 0 0 0 (.d32 0)))
      (.i32 0), by decide, by decide⟩
  · obtain ⟨f, hf, -⟩ := exists_form hi
    exact hf.of_maxlen_lt hlen

end Sys2Proof
end

/-! # The opcode table (R126) -/

section
namespace Sys2Proof

/-! ## Keys and masks -/

/-- A mask acts on the opcode bytes and on the ModRM byte of a key apart. -/
theorem key_and_mask (k c : Nat) {m d : Nat} (hm : m < 2 ^ 8) (hd : d < 2 ^ 8) :
    (2 ^ 8 * k + m) &&& (2 ^ 8 * c + d) = 2 ^ 8 * (k &&& c) + (m &&& d) := by
  have hmd : m &&& d < 2 ^ 8 := Nat.and_lt_two_pow m hd
  apply Nat.eq_of_testBit_eq
  intro i
  rw [Nat.testBit_and, Nat.testBit_two_pow_mul_add _ hm, Nat.testBit_two_pow_mul_add _ hd,
    Nat.testBit_two_pow_mul_add _ hmd]
  split <;> rw [Nat.testBit_and]

/-- The masks of the table ask for every opcode bit. -/
theorem opcode_and_mask {k : Nat} (hk : k < 2 ^ 16) : k &&& 0xFFFF = k :=
  (Nat.and_two_pow_sub_one_eq_mod k 16).trans (Nat.mod_eq_of_lt hk)

/-- The key of a group member under its row's mask. -/
theorem key_and_groupMask {k : Nat} (hk : k < 2 ^ 16) (m : Byte) :
    (2 ^ 8 * k + m.toNat) &&& 0xFFFF38 = 2 ^ 8 * k + 8 * (regOf m).toNat := by
  have hext : ∀ m : Byte, m.toNat &&& 0x38 = 8 * (regOf m).toNat := by decide
  have h := key_and_mask k 0xFFFF m.isLt (show 0x38 < 2 ^ 8 by decide)
  rwa [opcode_and_mask hk, hext] at h

/-- The key of an opcode under a mask that leaves the ModRM byte out. -/
theorem key_and_opcodeMask {k : Nat} (hk : k < 2 ^ 16) (m : Byte) :
    (2 ^ 8 * k + m.toNat) &&& 0xFFFF00 = 2 ^ 8 * k := by
  have h := key_and_mask k 0xFFFF m.isLt (show 0 < 2 ^ 8 by decide)
  rwa [opcode_and_mask hk, Nat.and_zero] at h

theorem Instr.key_one {i : Instr} {op : Byte} (h : i.latch.opcode = [op]) :
    i.key = 2 ^ 8 * op.toNat + (i.latch.modrm.getD 0).toNat := by
  simp only [Instr.key, h]
  omega

theorem Instr.key_two {i : Instr} {op op2 : Byte} (h : i.latch.opcode = [op, op2]) :
    i.key = 2 ^ 8 * (2 ^ 8 * op.toNat + op2.toNat) + (i.latch.modrm.getD 0).toNat := by
  simp only [Instr.key, h]
  omega

/-! ## The table's rows -/

/-- The instruction's key matches the row at its own place. -/
def Instr.MatchesOwnRow (i : Instr) : Prop :=
  ∃ r, opcodeTable[i.row]? = some r ∧ i.key &&& r.maskBits = r.matchBits

/-- A row of one opcode. -/
theorem matchesOwnRow_opcode {i : Instr} {op : Byte} (hop : i.latch.opcode = [op])
    (hrow : opcodeTable[i.row]? = some ⟨2 ^ 8 * op.toNat, 0xFFFF00⟩) : i.MatchesOwnRow := by
  refine ⟨_, hrow, ?_⟩
  rw [Instr.key_one hop]
  exact key_and_opcodeMask (op.isLt.trans (by decide)) _

/-- A row of a group member. -/
theorem matchesOwnRow_group {i : Instr} {op : Byte} {p : Pfx} {reg : BitVec 3} {rm : RM} {imm : List Byte}
    (hl : i.latch = modrmLatch op p reg rm imm)
    (hrow : opcodeTable[i.row]? = some ⟨2 ^ 8 * op.toNat + 8 * reg.toNat, 0xFFFF38⟩) : i.MatchesOwnRow := by
  refine ⟨_, hrow, ?_⟩
  rw [Instr.key_one (op := op) (by rw [hl]; rfl), hl, modrmLatch_modrm, Option.getD_some,
    key_and_groupMask (op.isLt.trans (by decide)), RM.regOf_modrm]

/-- A row of the two-byte map. -/
theorem matchesOwnRow_escape {i : Instr} {op : Byte} (hop : i.latch.opcode = [0x0F, op])
    (hrow : opcodeTable[i.row]? = some ⟨2 ^ 8 * (2 ^ 8 * 0x0F + op.toNat), 0xFFFF00⟩) : i.MatchesOwnRow := by
  have hop8 := op.isLt
  refine ⟨_, hrow, ?_⟩
  rw [Instr.key_two hop]
  exact key_and_opcodeMask (by simp; omega) _

/-- A row of an opcode with a register number in its low bits. -/
theorem matchesOwnRow_register {i : Instr} {hi : BitVec 5} {r : BitVec 3} (hop : i.latch.opcode = [hi ++ r])
    (hm : i.latch.modrm = none)
    (hrow : opcodeTable[i.row]? = some ⟨2 ^ 8 * (2 ^ 3 * hi.toNat), 0xFFF800⟩) : i.MatchesOwnRow := by
  have hmask : ∀ (hi : BitVec 5) (r : BitVec 3),
      (2 ^ 8 * (hi ++ r).toNat + (0#8).toNat) &&& 0xFFF800 = 2 ^ 8 * (2 ^ 3 * hi.toNat) := by decide
  refine ⟨_, hrow, ?_⟩
  rw [Instr.key_one hop, hm]
  exact hmask hi r

theorem Instr.matchesOwnRow (i : Instr) : i.MatchesOwnRow := by
  cases i using Instr.familyCases with
  | alu80 op p d imm => exact matchesOwnRow_group (instr80_latch op p d imm) (by cases op <;> rfl)
  | alu81 op p d imm => exact matchesOwnRow_group (instr81_latch op p d imm) (by cases op <;> rfl)
  | alu83 op p d imm => exact matchesOwnRow_group (instr83_latch op p d imm) (by cases op <;> rfl)
  | xorRm8R8 p d r => exact matchesOwnRow_opcode rfl rfl
  | xorRmR p d r => exact matchesOwnRow_opcode rfl rfl
  | xorR8Rm8 p r m => exact matchesOwnRow_opcode rfl rfl
  | xorRRm p r m => exact matchesOwnRow_opcode rfl rfl
  | incRm8 p d => exact matchesOwnRow_group rfl rfl
  | incRm p d => exact matchesOwnRow_group rfl rfl
  | movRm8R8 p d r => exact matchesOwnRow_opcode rfl rfl
  | movRmR p d r => exact matchesOwnRow_opcode rfl rfl
  | movR8Rm8 p r m => exact matchesOwnRow_opcode rfl rfl
  | movRRm p r m => exact matchesOwnRow_opcode rfl rfl
  | movR8Imm8 p r imm => exact matchesOwnRow_register rfl rfl rfl
  | movRImm p r imm => exact matchesOwnRow_register rfl rfl rfl
  | movRm8Imm8 p d imm => exact matchesOwnRow_group rfl rfl
  | movRmImm p d imm => exact matchesOwnRow_group rfl rfl
  | leaRM p r m => exact matchesOwnRow_opcode rfl rfl
  | jmpRel8 rel => exact matchesOwnRow_opcode rfl rfl
  | jmpRel32 rel => exact matchesOwnRow_opcode rfl rfl
  | jcc8 c rel => exact matchesOwnRow_opcode (by rw [instrJcc8_latch]; rfl) (by cases c <;> rfl)
  | jcc32 c rel => exact matchesOwnRow_escape (by rw [instrJcc32_latch]; rfl) (by cases c <;> rfl)
  | callRel32 rel => exact matchesOwnRow_opcode rfl rfl
  | ret => exact matchesOwnRow_opcode rfl rfl
  | syscall => exact matchesOwnRow_escape rfl rfl

/-- Two rows of the table differ in a bit that both masks ask for. -/
theorem opcodeTable_pairwise :
    opcodeTable.Pairwise fun r q => r.matchBits &&& q.maskBits ≠ q.matchBits &&& r.maskBits := by decide

/-- No key matches two rows. -/
theorem opcodeTable_unique {k n m : Nat} {r q : OpcodeRow} (hr : opcodeTable[n]? = some r)
    (hq : opcodeTable[m]? = some q) (hkr : k &&& r.maskBits = r.matchBits) (hkq : k &&& q.maskBits = q.matchBits) :
    n = m := by
  have hboth : r.matchBits &&& q.maskBits = q.matchBits &&& r.maskBits := by
    rw [← hkr, ← hkq, Nat.and_assoc, Nat.and_assoc, Nat.and_comm r.maskBits]
  obtain ⟨hn, rfl⟩ := List.getElem?_eq_some_iff.mp hr
  obtain ⟨hm, rfl⟩ := List.getElem?_eq_some_iff.mp hq
  have hpair := List.pairwise_iff_getElem.mp opcodeTable_pairwise
  rcases Nat.lt_trichotomy n m with h | h | h
  · exact absurd hboth (hpair n m hn hm h)
  · exact h
  · exact absurd hboth.symm (hpair m n hm hn h)

/-- Settles O7: the key matches the instruction's own row, and no key matches two rows. -/
theorem opcodeKeySelectsOneRow : Obligations.OpcodeKeySelectsOneRow := by
  refine ⟨rfl, fun i n r hr => ?_⟩
  obtain ⟨q, hq, hkey⟩ := i.matchesOwnRow
  constructor
  · exact fun h => opcodeTable_unique hr hq h hkey
  · rintro rfl
    obtain rfl : r = q := Option.some.inj (hr.symm.trans hq)
    exact hkey

end Sys2Proof
end

/-! # What an execution is refused for; MOV of an immediate -/

section
namespace Sys2Proof.Machine

/-- Settles O23: a meaning stops at an access, in a Trap or one of the two refusals, or it completes. -/
theorem execStopsOnlyForTheTwoDataRefusals : Obligations.ExecStopsOnlyForTheTwoDataRefusals := by
  intro i s
  obtain ⟨sh, hi⟩ := exists_shape i
  rw [hi.exec]
  rcases sh.run_cases (encode i) s with ⟨e, bs, he, hr⟩ | ⟨t, hr, -⟩ <;> rw [hr]
  · rcases stopAccess_cases (s := s) (bs := bs) he with ⟨info, hs, -⟩ | hs | hs <;> rw [hs]
    · exact ⟨nofun, nofun⟩
    · exact ⟨nofun, fun r h => by cases h; exact .inl rfl⟩
    · exact ⟨nofun, fun r h => by cases h; exact .inr rfl⟩
  · exact ⟨nofun, nofun⟩

/-- A MOV of an immediate to a register view moves the immediate there. -/
theorem movesToReg_of_immediate {i : Instr} {s : State} {k : OSize} {rv : RegNum × RegView} {v : BitVec k.bits}
    (hi : exec i s = movExec k (.reg rv.1 rv.2) (immOperand v) (encode i) s) : MovesToReg i s k rv v :=
  movesToReg_of_readOp hi (readOp_imm _ v)

section
variable {p : Pfx} {k : OSize} {imm : Imm} {v : BitVec k.bits}

/-- B8+r at the operand size of its prefixes (R182). -/
theorem movRImm_moves (hp : p.osz = k) (hv : immValue k imm = v) (r : BitVec 3) (s : State) :
    MovesToReg (.movRImm p r imm) s k (rmView p k r) v := by
  subst hp hv
  exact movesToReg_of_immediate (rv := rmView p p.osz r) rfl

/-- C7 /0 at the operand size of its prefixes (R183). -/
theorem movRmImm_moves (hp : p.osz = k) (hv : immValue k imm = v) (r : BitVec 3) (s : State) :
    MovesToReg (.movRmImm p (.reg r) imm) s k (rmView p k r) v := by
  subst hp hv
  exact movesToReg_of_immediate (rv := rmView p p.osz r) rfl

end

theorem immValue_i16 (v : BitVec 16) : immValue .o16 (.i16 v) = v := BitVec.signExtend_eq v

theorem immValue_i32 (v : BitVec 32) : immValue .o32 (.i32 v) = v := BitVec.signExtend_eq v

theorem immValue_i64 (v : BitVec 64) : immValue .o64 (.i64 v) = v := BitVec.setWidth_eq v

/-- Settles O41: each form is a MOV of its immediate's value, which at the immediate's own size is the immediate. -/
theorem movImmediateToRegister : Obligations.MovImmediateToRegister := fun p r s =>
  ⟨fun _ => ⟨movesToReg_of_immediate (rv := rmView p .o8 r) rfl, movesToReg_of_immediate (rv := rmView p .o8 r) rfl⟩,
    fun imm hp => ⟨movRImm_moves hp (immValue_i16 imm) r s, movRmImm_moves hp (immValue_i16 imm) r s⟩,
    fun imm hp => ⟨movRImm_moves hp (immValue_i32 imm) r s, movRmImm_moves hp (immValue_i32 imm) r s⟩,
    fun imm hp => movRImm_moves hp (immValue_i64 imm) r s,
    fun _ hp => movRmImm_moves hp rfl r s⟩

end Sys2Proof.Machine
end

/-! # From an encoding's fields to the effective address (R102 to R107, R139 to R142) -/

section
namespace Sys2Proof

/-- After a segment override there is no other (R94). -/
theorem no_segment_after {seen l : List LegacyPrefix} (h : noDuplicate seen l = true)
    (hseen : .segFS ∈ seen ∨ .segGS ∈ seen) : .segFS ∉ l ∧ .segGS ∉ l := by
  induction l generalizing seen with
  | nil => simp
  | cons q l ih =>
    simp only [noDuplicate, Bool.and_eq_true, Bool.not_eq_true'] at h
    have hl := ih h.2 (hseen.imp (List.mem_append_left [q]) (List.mem_append_left [q]))
    have hdup : (seen.contains .segFS || seen.contains .segGS) = true := by simpa using hseen
    cases q with
    | opsize | addrsize => simpa using hl
    | segFS | segGS => exact absurd h.1 (ne_false_of_eq_true hdup)

/-- Admitted prefixes hold one segment override at most (R94). -/
theorem not_both_segments {seen l : List LegacyPrefix} (h : noDuplicate seen l = true) :
    ¬ (.segFS ∈ l ∧ .segGS ∈ l) := by
  induction l generalizing seen with
  | nil => simp
  | cons q l ih =>
    simp only [noDuplicate, Bool.and_eq_true] at h
    have hl := ih h.2
    cases q with
    | opsize | addrsize => simpa using hl
    | segFS => simpa using (no_segment_after h.2 (by simp)).2
    | segGS => simpa using (no_segment_after h.2 (by simp)).1

namespace Machine

/-! ## The operand -/

theorem memOperand_prefixes (p : Pfx) (m : MemForm) :
    (memOperand p m).asz32 = p.adsz32 ∧ (memOperand p m).seg = p.seg := by cases m <;> exact ⟨rfl, rfl⟩

theorem seg_eq_iff {p : Pfx} (hp : p.wf = true) :
    (p.seg = some .FS ↔ .segFS ∈ p.legacy) ∧ (p.seg = some .GS ↔ .segGS ∈ p.legacy) := by
  have hone := not_both_segments hp
  simp only [Pfx.seg, List.contains_iff_mem]
  by_cases hfs : .segFS ∈ p.legacy
  · have hgs : .segGS ∉ p.legacy := fun h => hone ⟨hfs, h⟩
    simp [hfs, hgs]
  · by_cases hgs : .segGS ∈ p.legacy <;> simp [hfs, hgs]

theorem indexIs_of_indexReg {o : MemOperand} {p : Pfx} {idx : BitVec 3} (h : o.index = indexReg p idx) :
    o.indexIs p idx := by
  have hval := regNum_val p.bits.x idx
  have hiff : regNum p.bits.x idx = 4 ↔ 8 * p.bits.x.toNat + idx.toNat = 4 := by rw [← hval]; exact Fin.ext_iff
  unfold indexReg at h
  refine ⟨fun hn => by rw [h, if_pos (hiff.mpr hn)], fun hn => ⟨_, by rw [h, if_neg (mt hiff.mp hn)], hval⟩⟩

theorem baseIs_of_regNum {o : MemOperand} {p : Pfx} {b : BitVec 3} (h : o.base = some (regNum p.bits.b b)) :
    o.baseIs p b := ⟨_, h, regNum_val p.bits.b b⟩

theorem fieldsGiveTheOperand {p : Pfx} (hp : p.wf = true) : FieldsGiveTheOperand p := by
  have hdisp8 (v : BitVec 8) : (v.signExtend 64).toInt = v.toInt := BitVec.toInt_signExtend_of_le (by decide)
  have hdisp32 (v : BitVec 32) : (v.signExtend 64).toInt = v.toInt := BitVec.toInt_signExtend_of_le (by decide)
  refine ⟨fun m => ?_, fun b d => ⟨baseIs_of_regNum rfl, rfl, rfl⟩,
    fun ss idx b d => ⟨baseIs_of_regNum rfl, indexIs_of_indexReg rfl, rfl, rfl⟩,
    fun ss idx d => ⟨rfl, indexIs_of_indexReg rfl, rfl, rfl, hdisp32 d⟩,
    fun d => ⟨rfl, rfl, rfl, hdisp32 d⟩, fun ss idx b v w => ⟨?_, ?_, ?_⟩⟩
  · obtain ⟨hasz, hseg⟩ := memOperand_prefixes p m
    rw [hasz, hseg]
    exact ⟨List.contains_iff_mem, seg_eq_iff hp⟩
  all_goals simp only [List.forall_mem_cons, List.not_mem_nil, false_imp_iff, implies_true, and_true]
  · exact ⟨rfl, rfl⟩
  · exact ⟨hdisp8 v, hdisp8 v⟩
  · exact ⟨hdisp32 w, hdisp32 w⟩

/-! ## The offset in exact arithmetic -/

/-- Base plus scaled index plus displacement, modulo 2^w. -/
theorem toNat_sum {w : Nat} (b i d : BitVec w) (n : Nat) :
    (b + i <<< n + d).toNat = (b.toNat + i.toNat * 2 ^ n + d.toNat) % 2 ^ w := by
  simp [BitVec.toNat_add, BitVec.toNat_shiftLeft, Nat.shiftLeft_eq]

/-- The value of an optional register, 0 where there is none. -/
def regValue (s : State) (o : Option RegNum) : Nat := match o with | some n => (s.x n).toNat | none => 0

theorem toNat_optReg (s : State) (o : Option RegNum) : ((o.map s.x).getD 0).toNat = regValue s o := by
  cases o <;> rfl

/-- The offset without the instruction's address, at address size 64 (R139). -/
theorem off64_toNat (s : State) (o : MemOperand) :
    (off64 s o).toNat = (regValue s o.base + regValue s o.index * 2 ^ o.scale.toNat + o.disp.toNat) % 2 ^ 64 := by
  simp only [off64, toNat_sum, toNat_optReg]

theorem off32_toNat (s : State) (o : MemOperand) :
    (off32 s o).toNat = (regValue s o.base % 2 ^ 32 + regValue s o.index % 2 ^ 32 * 2 ^ o.scale.toNat +
      o.disp.toNat % 2 ^ 32) % 2 ^ 32 := by
  rw [off32, BitVec.toNat_setWidth_of_le (by decide), toNat_sum]
  simp only [BitVec.toNat_setWidth, toNat_optReg]

/-- Settles O45: the fields give the operand one by one, and each datapath is the exact sum reduced once. -/
theorem effectiveAddressArithmetic : Obligations.EffectiveAddressArithmetic := by
  refine ⟨⟨rfl, rfl, rfl, rfl⟩, fun p hp => fieldsGiveTheOperand hp, fun i s p m => rfl, fun s next o => ?_⟩
  refine ⟨⟨fun hr ha => ?_, fun hr ha => ?_⟩, fun hr ha => ?_, fun hr ha => ?_, fun h => ?_, fun h => ?_, fun h => ?_⟩
  · rw [offset, hr, ha]
    exact off64_toNat s o
  · rw [offset, hr, ha]
    exact off32_toNat s o
  · rw [offset, hr, ripOff, ha]
    exact BitVec.toNat_add ..
  · rw [offset, hr, ripOff, ha]
    have hlow : ((next + o.disp).setWidth 32).toNat = (next.toNat + o.disp.toNat) % 2 ^ 64 % 2 ^ 32 := by
      rw [BitVec.toNat_setWidth, BitVec.toNat_add]
    exact (BitVec.toNat_setWidth_of_le (by decide)).trans (hlow.trans (Nat.mod_mod_of_dvd _ (by decide)))
  · rw [effAddr, h]
    exact BitVec.zero_add _
  · rw [effAddr, h]; rfl
  · rw [effAddr, h]; rfl

end Machine

end Sys2Proof
end

/-! # Encodings written out (R97, R98, R127, R128) -/

section
namespace Sys2Proof

/-- The decoder reads written-out bytes as the instruction they encode. -/
theorem decode_of_encode_eq {i : Instr} {bs : List Byte} {l : Latch} (h : i.wf = true) (hbs : encode i = bs)
    (hl : i.latch = l) : decode bs = .ok (l, i) [] := by
  rw [← hbs, ← hl, ← List.append_nil (encode i)]
  exact decode_encode h []

/-- Settles O5: the bytes are the instructions' encodings, and the operands and texts are read off the fields. -/
theorem sourceEncodingsDecode : Obligations.SourceEncodingsDecode :=
  ⟨⟨decode_of_encode_eq rfl rfl rfl, rfl, rfl, rfl, rfl⟩, decode_of_encode_eq rfl rfl rfl, rfl, rfl, rfl, rfl⟩

/-- Settles O6: each word is the encoding of the instruction it stands for. -/
theorem familyWordsDecode : Obligations.FamilyWordsDecode := by
  refine ⟨?_, ?_, ?_, ?_, ?_, ?_, ?_⟩
  all_goals exact decode_of_encode_eq rfl rfl rfl

end Sys2Proof
end

/-! # LEA and JMP (R145, R185, R191) -/

section
namespace Sys2Proof.Machine

/-- Settles O44: LEA's meaning is one write of a register view, without an operand read from memory. -/
theorem leaWritesTheOffset : Obligations.LeaWritesTheOffset :=
  fun p r _ _ => ⟨_, writesReg_of_exec (rv := regFieldView p p.osz r) rfl, rfl, rfl⟩

/-- An instruction whose meaning is a redirect alone. -/
theorem jumpsTo_of_exec {i : Instr} {s : State} {target : Word} (h : exec i s = .next (s.redirectTo target)) :
    JumpsTo i s target :=
  ⟨_, h, ⟨rfl, rfl, rfl⟩, fun _ _ => rfl, fun _ => rfl, ⟨rfl, rfl, rfl, rfl, rfl, rfl, rfl⟩, rfl⟩

/-- JMP's target is its displacement from the end of its `n` bytes (R135, R191). -/
theorem jumpsTo_of_jmpExec {i : Instr} {s : State} {rel : Word} {n : Nat}
    (hi : exec i s = jmpExec rel (encode i) s) (hn : i.size = n) :
    JumpsTo i s (s.cpu.pc + BitVec.ofNat 64 n + rel) := by
  subst hn
  exact jumpsTo_of_exec hi

/-- Settles O46: the encoding has an opcode byte and 1 or 4 bytes of displacement. -/
theorem jumpTarget : Obligations.JumpTarget :=
  ⟨fun _ _ => jumpsTo_of_jmpExec (n := 2) rfl rfl, fun _ _ => jumpsTo_of_jmpExec (n := 5) rfl rfl⟩

end Sys2Proof.Machine
end

/-! # ALU operations, XOR and INC on resolved operands (R150 to R163) -/

section
namespace Sys2Proof.Machine

variable {s s' : State} {k : OSize} {i : Instr} {op : AluOp} {dst src : Operand} {bs : List Byte}
  {a b : BitVec k.bits}

/-! ## How an ALU instruction and INC end -/

/-- Flags written, free values drawn, then Continue: the end that ALU instructions and INC share (R154, R163). -/
def State.finish (s : State) (f : Flags) (draws : Nat) (next : Word) : State :=
  ((s.setFlags f).useDraws draws).continueAt next

theorem writesReg_of_finish {rv : RegNum × RegView} {v : BitVec rv.2.bits} {f : Flags} {d : Nat}
    (h : exec i s = .next ((s.regWrite rv.1 rv.2 v).finish f d (s.nextPc (encode i)))) :
    WritesReg i s ((s.regWrite rv.1 rv.2 v).finish f d (s.nextPc (encode i))) rv v :=
  ⟨h, s.regWrite_x_same rv.1 rv.2 v, fun _ hn => s.regWrite_x_ne rv.2 v (List.mem_singleton.not.mp hn), fun _ => rfl,
    ⟨rfl, rfl, rfl, rfl, rfl, rfl, rfl⟩, rfl, rfl, rfl⟩

theorem writesMem_of_finish {a : Word} {v : BitVec k.bits} {f : Flags} {d : Nat} (hwf : s.mem.wf)
    (hc : s.canWrite a k) (h : exec i s = .next ((s.stored a k v).finish f d (s.nextPc (encode i)))) :
    WritesMem i s ((s.stored a k v).finish f d (s.nextPc (encode i))) a k v :=
  ⟨h, s.stored_holdsAt v hwf hc, s.stored_outside v, fun _ _ => rfl,
    ⟨s.stored_regions v, rfl, rfl, rfl, rfl, rfl, rfl⟩, rfl, rfl, rfl⟩

theorem writesNothing_of_finish {f : Flags} {d : Nat} (h : exec i s = .next (s.finish f d (s.nextPc (encode i)))) :
    WritesNothing i s (s.finish f d (s.nextPc (encode i))) :=
  ⟨h, fun _ _ => rfl, fun _ => rfl, ⟨rfl, rfl, rfl, rfl, rfl, rfl, rfl⟩, rfl, rfl, rfl⟩

/-- The flags an ALU instruction leaves, with the AF drawn in `s` for AND, OR and XOR (R153). -/
def State.flagsAfterAlu (s : State) (op : AluOp) (a b : BitVec k.bits) : Flags :=
  s.cpu.flags.afterAlu (aluEval op a b s.cpu.flags.CF (Config.drawBit s.draws))

theorem OSize.five_le_bits (k : OSize) : 5 ≤ k.bits := by cases k <;> decide

/-- They are those of the operation (R150 to R162), and no other flag is written (R30). -/
theorem State.flagsAfterAlu_spec (s : State) (op : AluOp) (a b : BitVec k.bits) :
    AluFlags op a b s.cpu.flags.CF (s.flagsAfterAlu op a b) ∧
      ∀ n, n ∉ aluFlagNames → (s.flagsAfterAlu op a b).get n = s.cpu.flags.get n :=
  ⟨aluEval_flags (OSize.five_le_bits k) op a b _ _ _, fun _ hn => afterAlu_other _ _ hn⟩

/-! ## The ALU template once its operands are read (R154) -/

/-- An operation that writes its destination. -/
theorem aluExec_of_writeOp (hop : op ≠ .cmp) (ha : readOp s (s.nextPc bs) k dst = .ok a)
    (hb : readOp s (s.nextPc bs) k src = .ok b)
    (hw : writeOp s (s.nextPc bs) k dst (aluResult op a b s.cpu.flags.CF) = .ok s') :
    aluExec op k dst src bs s = .next (s'.finish (s.flagsAfterAlu op a b) (aluDraws op) (s.nextPc bs)) := by
  simp only [aluExec, ha, hb, if_neg hop, aluEval_r, hw]
  rfl

/-- CMP writes no operand (R162). -/
theorem aluExec_cmp (ha : readOp s (s.nextPc bs) k dst = .ok a) (hb : readOp s (s.nextPc bs) k src = .ok b) :
    aluExec .cmp k dst src bs s = .next (s.finish (s.flagsAfterAlu .cmp a b) 0 (s.nextPc bs)) := by
  simp only [aluExec, ha, hb, if_true]
  rfl

theorem aluToReg_of_readOp {rv : RegNum × RegView} (hop : op ≠ .cmp)
    (hi : exec i s = aluExec op k (.reg rv.1 rv.2) src (encode i) s)
    (hb : readOp s (s.nextPc (encode i)) k src = .ok b) : AluToReg op i s k rv b :=
  ⟨_, writesReg_of_finish (hi.trans (aluExec_of_writeOp hop (readOp_reg ..) hb (writeOp_reg ..))),
    s.flagsAfterAlu_spec op _ b⟩

theorem aluToMem_of_readOp {o : MemOperand} (hop : op ≠ .cmp)
    (hi : exec i s = aluExec op k (.mem o) src (encode i) s)
    (hb : readOp s (s.nextPc (encode i)) k src = .ok b) :
    AluToMem op i s k (effAddr s (s.nextPc (encode i)) o) b := fun hwf hr hc v hv =>
  ⟨_, writesMem_of_finish hwf hc
      (hi.trans (aluExec_of_writeOp hop (State.memRead_passes hr hv) hb (State.memWrite_passes _ hc))),
    s.flagsAfterAlu_spec op v b⟩

theorem compares_of_readOp (hi : exec i s = aluExec .cmp k dst (immOperand b) (encode i) s)
    (ha : readOp s (s.nextPc (encode i)) k dst = .ok a) : Compares i s k a b :=
  ⟨_, writesNothing_of_finish (hi.trans (aluExec_cmp ha (readOp_imm _ b))), s.flagsAfterAlu_spec .cmp a b⟩

/-! ## INC (R163) -/

theorem addC_one_r {w : Nat} (a : BitVec w) : (addC a 1 false).r = a + 1 := by simp [addC_r]

/-- INC's flags are those of an addition of 1, which as a signed number is 1 where there are two bits or more. -/
theorem afterInc_flags {w : Nat} (hw : 5 ≤ w) (a : BitVec w) (f : Flags) :
    IncFlags a (f.afterInc (addC a 1 false)) := by
  obtain ⟨-, hof, haf⟩ := addC_flags hw a 1 false f
  have hnat : (1 : BitVec w).toNat = 1 := BitVec.toNat_one (by omega)
  have hint : (1 : BitVec w).toInt = 1 := BitVec.toInt_one (by omega)
  rw [hint, Bool.toNat_false, Nat.cast_zero, Int.add_zero] at hof
  rw [hnat, Bool.toNat_false] at haf
  exact ⟨addC_one_r a ▸ szp_flags _ _, hof, haf.trans (by omega)⟩

theorem incExec_of_writeOp (ha : readOp s (s.nextPc bs) k dst = .ok a)
    (hw : writeOp s (s.nextPc bs) k dst (a + 1) = .ok s') :
    incExec k dst bs s = .next (s'.finish (s.cpu.flags.afterInc (addC a 1 false)) 0 (s.nextPc bs)) := by
  simp only [incExec, ha, addC_one_r, hw]
  rfl

theorem increments_reg {rv : RegNum × RegView} (hi : exec i s = incExec k (.reg rv.1 rv.2) (encode i) s) :
    ∃ t, WritesReg i s t rv ((viewValue s k rv + 1).setWidth _) ∧ IncFlags (viewValue s k rv) t.cpu.flags ∧
      SameFlagsBut s t [.PF, .AF, .ZF, .SF, .OF] :=
  ⟨_, writesReg_of_finish (hi.trans (incExec_of_writeOp (readOp_reg ..) (writeOp_reg ..))),
    afterInc_flags (OSize.five_le_bits k) _ _, fun _ hn => afterInc_other _ _ hn⟩

theorem increments_mem {o : MemOperand} (hi : exec i s = incExec k (.mem o) (encode i) s) (hwf : s.mem.wf)
    (hr : s.canRead (effAddr s (s.nextPc (encode i)) o) k) (hc : s.canWrite (effAddr s (s.nextPc (encode i)) o) k)
    (hv : s.holdsAt (effAddr s (s.nextPc (encode i)) o) k a) :
    ∃ t, WritesMem i s t (effAddr s (s.nextPc (encode i)) o) k (a + 1) ∧ IncFlags a t.cpu.flags ∧
      SameFlagsBut s t [.PF, .AF, .ZF, .SF, .OF] :=
  ⟨_, writesMem_of_finish hwf hc
      (hi.trans (incExec_of_writeOp (State.memRead_passes hr hv) (State.memWrite_passes _ hc))),
    afterInc_flags (OSize.five_le_bits k) _ _, fun _ hn => afterInc_other _ _ hn⟩

/-! ## The statements -/

/-- Settles O34: each group is the ALU template on a register view and an immediate, which is read as it is. -/
theorem aluImmediateToRegister : Obligations.AluImmediateToRegister := fun op p r s hop =>
  ⟨fun imm => aluToReg_of_readOp (rv := rmView p .o8 r) hop (exec_instr80 op p (.reg r) imm s) (readOp_imm _ _),
    fun imm => aluToReg_of_readOp (rv := rmView p p.osz r) hop (exec_instr81 op p (.reg r) imm s) (readOp_imm _ _),
    fun imm => aluToReg_of_readOp (rv := rmView p p.osz r) hop (exec_instr83 op p (.reg r) imm s) (readOp_imm _ _)⟩

/-- Settles O35: the template on a memory operand reads it, and stores the result where it read. -/
theorem aluImmediateToMemory : Obligations.AluImmediateToMemory := fun op p m s hop =>
  ⟨fun imm => aluToMem_of_readOp hop (exec_instr80 op p (.mem m) imm s) (readOp_imm _ _),
    fun imm => aluToMem_of_readOp hop (exec_instr81 op p (.mem m) imm s) (readOp_imm _ _),
    fun imm => aluToMem_of_readOp hop (exec_instr83 op p (.mem m) imm s) (readOp_imm _ _)⟩

/-- Settles O36: the template of CMP ends without a write, whether a register or memory is read. -/
theorem compareSetsFlagsOnly : Obligations.CompareSetsFlagsOnly := fun p _ =>
  ⟨fun r imm => ⟨compares_of_readOp (exec_instr80 .cmp p (.reg r) imm _) (readOp_reg ..),
      compares_of_readOp (exec_instr83 .cmp p (.reg r) imm _) (readOp_reg ..)⟩,
    fun r imm => compares_of_readOp (exec_instr81 .cmp p (.reg r) imm _) (readOp_reg ..),
    fun m imm _ hr hv => compares_of_readOp (exec_instr80 .cmp p (.mem m) imm _) (State.memRead_passes hr hv),
    fun m imm _ hr hv => compares_of_readOp (exec_instr83 .cmp p (.mem m) imm _) (State.memRead_passes hr hv),
    fun m imm _ hr hv => compares_of_readOp (exec_instr81 .cmp p (.mem m) imm _) (State.memRead_passes hr hv)⟩

/-- The exclusive or of a view with itself is 0, and ZF says so (R150, R161). -/
theorem AluToReg.xor_self {rv : RegNum × RegView} (h : AluToReg .xor i s k rv (viewValue s k rv)) :
    ∃ t, WritesReg i s t rv 0 ∧ t.cpu.flags.ZF = true := by
  obtain ⟨t, hw, ⟨⟨hzf, -⟩, -⟩, -⟩ := h
  simp only [aluResult, BitVec.xor_self] at hw hzf
  exact ⟨t, by simpa using hw, hzf.mpr rfl⟩

/-- Settles O37: the source register is read as its view, and form 31 on one view is the exclusive or with itself. -/
theorem xorOfRegisters : Obligations.XorOfRegisters := by
  intro p d r s
  have form31 : AluToReg .xor (.xorRmR p (.reg d) r) s p.osz (rmView p p.osz d)
      (viewValue s p.osz (regFieldView p p.osz r)) := aluToReg_of_readOp (by decide) rfl (readOp_reg ..)
  refine ⟨?_, form31, ?_, ?_, fun hsame => ?_⟩
  · exact aluToReg_of_readOp (rv := rmView p .o8 d) (by decide) rfl (readOp_reg ..)
  · exact aluToReg_of_readOp (rv := regFieldView p .o8 d) (by decide) rfl (readOp_reg ..)
  · exact aluToReg_of_readOp (rv := regFieldView p p.osz d) (by decide) rfl (readOp_reg ..)
  · rw [← hsame] at form31
    exact form31.xor_self

/-- Settles O38: the template with one operand in memory, as destination (30, 31) or as source (32, 33). -/
theorem xorWithMemory : Obligations.XorWithMemory := fun p _ r _ =>
  ⟨aluToMem_of_readOp (by decide) rfl (readOp_reg ..), aluToMem_of_readOp (by decide) rfl (readOp_reg ..),
    fun _ hr hv => aluToReg_of_readOp (rv := regFieldView p .o8 r) (by decide) rfl (State.memRead_passes hr hv),
    fun _ hr hv => aluToReg_of_readOp (rv := regFieldView p p.osz r) (by decide) rfl (State.memRead_passes hr hv)⟩

/-- Settles O39: INC reads its operand and writes it plus 1, and `Flags.afterInc` leaves CF alone. -/
theorem incrementKeepsCarry : Obligations.IncrementKeepsCarry := fun p _ =>
  ⟨fun r => increments_reg (rv := rmView p .o8 r) rfl, fun r => increments_reg (rv := rmView p p.osz r) rfl,
    fun _ _ hwf hr hc hv => increments_mem rfl hwf hr hc hv, fun _ _ hwf hr hc hv => increments_mem rfl hwf hr hc hv⟩

end Sys2Proof.Machine
end

/-! # MOV between registers and to memory (R180, R181, R183, R184) -/

section
namespace Sys2Proof.Machine

variable {s : State} {k : OSize} {i : Instr} {o : MemOperand} {src : Operand} {v : BitVec k.bits}

/-- Settles O40: the source is read as its view, and a MOV whose source is read moves the value there. -/
theorem movBetweenRegisters : Obligations.MovBetweenRegisters := fun p d _ _ =>
  ⟨movesToReg_of_readOp (rv := rmView p .o8 d) rfl (readOp_reg ..),
    movesToReg_of_readOp (rv := rmView p p.osz d) rfl (readOp_reg ..),
    movesToReg_of_readOp (rv := regFieldView p .o8 d) rfl (readOp_reg ..),
    movesToReg_of_readOp (rv := regFieldView p p.osz d) rfl (readOp_reg ..)⟩

/-- MOV to memory from a source that is read, where the store passes its checks (R180, R183). -/
theorem movExec_mem {bs : List Byte} (hv : readOp s (s.nextPc bs) k src = .ok v)
    (hc : s.canWrite (effAddr s (s.nextPc bs) o) k) :
    movExec k (.mem o) src bs s =
      .next ((s.stored (effAddr s (s.nextPc bs) o) k v).continueAt (s.nextPc bs)) := by
  simp only [movExec, hv, writeOp_mem, State.memWrite_passes v hc]

/-- A MOV whose destination is a memory operand and whose source is read stores the value there; its Continue is
`State.finish` with the flags it found and no value drawn. -/
theorem movesToMem_of_readOp (hi : exec i s = movExec k (.mem o) src (encode i) s)
    (hv : readOp s (s.nextPc (encode i)) k src = .ok v) :
    MovesToMem i s k (effAddr s (s.nextPc (encode i)) o) v := fun hwf hc =>
  ⟨_, writesMem_of_finish (f := s.cpu.flags) (d := 0) hwf hc (hi.trans (movExec_mem hv hc)), rfl⟩

/-- Settles O42: each form is a MOV to the memory operand, from a register view or an immediate, read as it is. -/
theorem movToMemory : Obligations.MovToMemory := fun _ _ _ =>
  ⟨fun _ => movesToMem_of_readOp rfl (readOp_reg ..), fun _ => movesToMem_of_readOp rfl (readOp_reg ..),
    fun _ => movesToMem_of_readOp rfl (readOp_imm _ _), fun _ => movesToMem_of_readOp rfl (readOp_imm _ _)⟩

end Sys2Proof.Machine
end

/-! # Conditional jumps, CALL and RET (R192 to R211) -/

section
namespace Sys2Proof.Machine

variable {s : State} {i : Instr}

/-! ## Conditional jumps -/

/-- An instruction whose meaning is Continue alone, `n` bytes on. -/
theorem fallsThrough_of_exec {next : Word} {n : Nat} (h : exec i s = .next (s.continueAt next))
    (hn : next = s.cpu.pc + BitVec.ofNat 64 n) : FallsThrough i s n :=
  ⟨_, h, ⟨hn, rfl, rfl⟩, fun _ _ => rfl, fun _ => rfl, ⟨rfl, rfl, rfl, rfl, rfl, rfl, rfl⟩, rfl⟩

/-- `JccExec` in an instruction of `n` bytes redirects where its predicate holds and continues where it does not
(R192). -/
theorem follows_of_jccExec {c : Cond} {rel : Word} {n : Nat} (hi : exec i s = jccExec c rel (encode i) s)
    (hn : i.size = n) :
    (CondTrue c s.cpu.flags → JumpsTo i s (s.cpu.pc + BitVec.ofNat 64 n + rel)) ∧
      (¬ CondTrue c s.cpu.flags → FallsThrough i s n) := by
  subst hn
  rw [jccExec_eq] at hi
  refine ⟨fun h => jumpsTo_of_exec ?_, fun h => fallsThrough_of_exec (next := s.nextPc (encode i)) ?_ rfl⟩
  · rw [hi, if_pos ((condHolds_iff ..).mpr h)]
    rfl
  · rw [hi, if_neg ((condHolds_iff ..).not.mpr h)]

theorem instrJcc8_size (c : Cond) (rel : BitVec 8) : (instrJcc8 c rel).size = 2 := by cases c <;> rfl

theorem instrJcc32_size (c : Cond) (rel : BitVec 32) : (instrJcc32 c rel).size = 6 := by cases c <;> rfl

/-- Settles O47: both widths are `JccExec`, in an instruction of 2 and of 6 bytes. -/
theorem conditionalJumpFollowsItsPredicate : Obligations.ConditionalJumpFollowsItsPredicate := fun c s =>
  ⟨fun rel => follows_of_jccExec (exec_instrJcc8 c rel s) (instrJcc8_size c rel),
    fun rel => follows_of_jccExec (exec_instrJcc32 c rel s) (instrJcc32_size c rel)⟩

/-! ## CALL and RET -/

/-- Writes of the registers `l` and of memory, then Redirect: how CALL and RET end (R210, R211). -/
theorem Wrote.redirectTo {l : List RegNum} {s' : State} (h : Wrote l s s') (target : Word) :
    Redirected s (s'.redirectTo target) target ∧ SameRegsBut s (s'.redirectTo target) l ∧
      SameSystem s (s'.redirectTo target) ∧ (s'.redirectTo target).cpu.flags = s.cpu.flags := by
  obtain ⟨hregs, hflags, hicount, hsystem⟩ := h
  exact ⟨⟨rfl, congrArg (· + 1) hicount, rfl⟩, hregs, hsystem, hflags⟩

/-- CALL where its push passes the checks: the return address is stored, rsp is lowered, the target is taken (R210). -/
theorem execCallRel32_passes (rel : BitVec 32) (hc : s.canWrite (s.x rsp - 8) .o64) :
    execCallRel32 rel s =
      .next (((s.stored (s.x rsp - 8) .o64 (s.cpu.pc + 5 : Word)).setX rsp (s.x rsp - 8)).redirectTo
        (s.cpu.pc + 5 + rel.signExtend 64)) := by
  simp only [execCallRel32, State.memWrite_passes _ hc]
  rfl

/-- RET where its pop passes the checks: rsp is raised and the value it pointed to is the target (R211). -/
theorem execRet_passes {target : BitVec OSize.o64.bits} (hr : s.canRead (s.x rsp) .o64)
    (hv : s.holdsAt (s.x rsp) .o64 target) :
    execRet s = .next ((s.setX rsp (s.x rsp + 8)).redirectTo target) := by
  simp only [execRet, State.memRead_passes hr hv]

/-- Settles O48: the write of rsp and the redirect after CALL's store leave memory as it stored. -/
theorem callPushesTheReturnAddress : Obligations.CallPushesTheReturnAddress := by
  intro rel s hwf hc
  obtain ⟨hto, hregs, hsystem, hflags⟩ :=
    ((wrote_stored [rsp] s (s.x rsp - 8) (k := .o64) (s.cpu.pc + 5 : Word)).setX (List.mem_singleton_self _)
      (s.x rsp - 8)).redirectTo (s.cpu.pc + 5 + rel.signExtend 64)
  refine ⟨_, execCallRel32_passes rel hc, fun n hn => ?_, State.setX_x_same .., hto, fun b hb => ?_, hregs, hsystem,
    hflags⟩ <;> rw [State.redirectTo_mem, State.setX_mem]
  · exact s.stored_holdsAt _ hwf hc n hn
  · exact s.stored_outside _ b hb

/-- Settles O49: RET writes rsp alone and redirects. -/
theorem retPopsItsTarget : Obligations.RetPopsItsTarget := by
  intro s target hr hv
  obtain ⟨hto, hregs, hsystem, hflags⟩ := (wrote_setX s rsp (s.x rsp + 8)).redirectTo target
  exact ⟨_, execRet_passes hr hv, State.setX_x_same .., hto, fun _ => rfl, hregs, hsystem, hflags⟩

end Sys2Proof.Machine
end

/-! # Illegal encodings at `pc` (R115, R222) -/

section
namespace Sys2Proof

/-- The decoder ends within the bytes it may read, or not at all. -/
theorem decode_take_ne_more {bs : List Byte} (h : decode bs ≠ .more) : decode (bs.take maxLen) ≠ .more := by
  intro hm
  have hlen := (decode_reads _).more hm
  rw [List.length_take] at hlen
  exact h (by rwa [List.take_of_length_le (by omega)] at hm)

theorem Scan.append_eq_illegal {α : Type} {x : Scan α} {more rest : List Byte} (h : x.append more = .illegal rest) :
    ∃ rest', x = .illegal rest' ∧ rest' ++ more = rest := by
  cases x with
  | illegal rest' => exact ⟨rest', rfl, Scan.illegal.inj h⟩
  | ok a rest' => cases h
  | refused r => cases h
  | more => cases h

/-- An illegal encoding up to its deciding byte is no longer than what the decoder may read: bytes beyond that would be
left over. -/
theorem length_le_of_decode_illegal {bs : List Byte} (h : decode bs = .illegal []) : bs.length ≤ maxLen := by
  have hall := decode_stable _ (bs.drop maxLen) (decode_take_ne_more (bs := bs) (by rw [h]; nofun))
  rw [List.take_append_drop, h] at hall
  obtain ⟨rest, -, hrest⟩ := Scan.append_eq_illegal hall.symm
  exact List.drop_eq_nil_iff.mp (List.append_eq_nil_iff.mp hrest).2

namespace Machine

/-- Fetch and decode answer an illegal object that holds the bytes up to the deciding one (R114). -/
theorem decodeAt_of_illegal {s : State} {bs : List Byte} (hc : s.codeIs bs) (hi : decode bs = .illegal []) :
    decodeAt s.mem s.cpu.pc = .illegal s.cpu.pc bs := by
  obtain ⟨more, hm⟩ := codeBytes_starts bs s.cpu.pc maxLen hc (length_le_of_decode_illegal hi)
  have hall := decode_stable bs more (by rw [hi]; nofun)
  rw [hi] at hall
  simp [decodeAt, hm, hall, Scan.append, consumed]

/-- Settles O14: the bytes fetched begin with the illegal encoding, and the illegal object holds no byte after it. -/
theorem illegalInstructionTraps : Obligations.IllegalInstructionTraps := by
  intro s bs hs hc hi
  rw [step_running hs, decodeAt_of_illegal hc hi]
  rfl

end Machine

end Sys2Proof
end

/-! # SYSCALL's two answers (R220, R221) -/

section
namespace Sys2Proof.Machine

section
variable {ans : SyscallAnswer} {d₁ d₂ : Word} {s : State}

/-- A returned value goes to rax, and the thread goes on after the two bytes 0F 05 (R220). -/
theorem syscallWith_of_ret {v : Word} (h : ans.result = .ret v) :
    (syscallWith ans d₁ d₂ s).x rax = v ∧ (syscallWith ans d₁ d₂ s).cpu.pc = s.cpu.pc + 2 ∧
      (syscallWith ans d₁ d₂ s).port = .continued (syscallWith ans d₁ d₂ s).cpu.pc := by
  obtain ⟨hrcx, hr11⟩ : rax ≠ rcx ∧ rax ≠ 11 := by decide
  simp only [syscallWith, h]
  refine ⟨?_, rfl, rfl⟩
  rw [State.continueAt_x, State.setX_x_ne _ _ hr11, State.setX_x_ne _ _ hrcx, State.setX_x_same]

/-- An exit ends the run with its code and moves neither `pc` nor a register (R220, R242; log entry 21). -/
theorem syscallWith_of_exit {code : BitVec 32} (h : ans.result = .exitProcess code) :
    (syscallWith ans d₁ d₂ s).port = .exited code ∧ SameRegsBut s (syscallWith ans d₁ d₂ s) [] ∧
      (syscallWith ans d₁ d₂ s).cpu.pc = s.cpu.pc := by
  simp only [syscallWith, h]
  exact ⟨rfl, fun _ _ => rfl, rfl⟩

end

/-- Settles O50: what SYSCALL keeps under every answer, and what each of the two answers does. -/
theorem syscallWritesTheAnswer : Obligations.SyscallWritesTheAnswer := by
  intro s ans
  obtain ⟨hflags, hfs, hgs, hvreg, -⟩ :=
    syscallWith_keeps ans (Config.drawWord s.draws) (Config.drawWord (s.draws + 1)) s
  obtain ⟨hicount, hmem, -⟩ :=
    syscallWith_ends ans (Config.drawWord s.draws) (Config.drawWord (s.draws + 1)) s
  refine ⟨_, rfl, hicount, hflags, hmem, hfs, hgs, hvreg, ?_⟩
  cases hans : ans.result with
  | ret v =>
    obtain ⟨hrax, hpc, hport⟩ := syscallWith_of_ret hans
    exact ⟨hrax, (syscallWith_completes ..).regs, hpc, hport⟩
  | exitProcess code => exact syscallWith_of_exit hans

end Sys2Proof.Machine
end

/-! # Stops, Traps and the outcome port (R230 to R234, R238, R242, R247) -/

section
namespace Sys2Proof.Machine

section
variable {s t : State} {r : StepResult} {tr : Trap}

/-! ## A step's next state is a Trap or a completion -/

/-- What the block raises as a Trap at `pc`: an illegal instruction there, or a violation of some access (R231, R233). -/
def RaisedAt (pc : Word) (k : TrapKind) (info : TrapInfo) : Prop :=
  info.pc = pc ∧ (k = .illegalInstruction ∧ info.addr = pc ∧ info.access = none ∨
    k = .segmentationViolation ∧ ∃ a, info.access = some a)

/-- A step that answers a next state took a Trap, or completed an instruction; the latch is new in both (R41, R243). -/
theorem step_next_trap_or_completes (h : step s = .next t) :
    (∃ l k info, t = (s.setLatch l).takeTrap k info ∧ RaisedAt s.cpu.pc k info) ∨
      ∃ (sh : Shape) (l : Latch), sh.Completes (s.setLatch l) t := by
  obtain ⟨-, ⟨i, l, hx⟩ | ⟨k, info, ht, hpc, hk⟩⟩ := step_next_cases h
  · obtain ⟨sh, hi⟩ := exists_shape i
    rcases exec_next hi hx with ⟨info, ht, hpc, ha⟩ | hc
    · exact .inl ⟨l, _, info, ht, hpc, .inr ⟨rfl, ha⟩⟩
    · exact .inr ⟨sh, l, hc⟩
  · exact .inl ⟨_, k, info, ht, hpc, hk.imp_right fun ⟨hkind, ha⟩ => ⟨hkind, _, ha⟩⟩

theorem isTrapped_of_port (h : t.port = .trapped tr) : t.isTrapped = true := by
  rw [State.isTrapped, h]

/-! ## Stopped threads -/

theorem step_of_stopped (h : s.stopped = some r) : step s = r := by
  rw [step, h]

theorem stopped_of_mark {r : Refusal} (h : s.refusalMark = some r) : s.stopped = some (.refused r) := by
  rw [State.stopped, h]

theorem stopped_of_exited {code : BitVec 32} (hm : s.refusalMark = none) (hp : s.port = .exited code) :
    s.stopped = some (.fault (.threadExited code)) := by
  rw [State.stopped, hm, hp]

theorem stopped_of_trapped (hm : s.refusalMark = none) (hp : s.port = .trapped tr) :
    s.stopped = some (.fault (.threadTrapped tr)) := by
  rw [State.stopped, hm, hp]

/-- A run ends by a refusal or an exit, and by nothing else (R234, R242). -/
theorem ended_of_mark_or_exited (h : s.refusalMark ≠ none ∨ ∃ code, s.port = .exited code) : s.ended = true := by
  rw [State.ended, Bool.or_eq_true]
  rcases h with hm | ⟨code, hp⟩
  · exact .inl (Option.isSome_iff_ne_none.mpr hm)
  · exact .inr (by rw [hp])

/-- A trapped thread's run goes on: the host may still act (R238). -/
theorem not_ended_of_trapped (hm : s.refusalMark = none) (hp : s.port = .trapped tr) : s.ended = false := by
  rw [State.ended, hm, hp]
  rfl

/-- When a step's outcome ends the run, that is the end state of every schedule that begins with the step. -/
theorem runWith_cons_of_ended (h : (settle s (step s)).ended = true) (acts : List HostAction)
    (schedule : List (List HostAction)) : runWith s (acts :: schedule) = settle s (step s) := by
  have hturn : turn s acts = settle s (step s) := if_pos h
  calc runWith s (acts :: schedule) = runWith (turn s acts) schedule := rfl
    _ = runWith (settle s (step s)) schedule := by rw [hturn]
    _ = settle s (step s) := runWith_ended h schedule

/-- A turn of a trapped thread is what the host does (R238). -/
theorem turn_of_trapped (hm : s.refusalMark = none) (hp : s.port = .trapped tr) (acts : List HostAction) :
    turn s acts = applyHost acts s := by
  have hsettle : settle s (step s) = s := by rw [step_of_stopped (stopped_of_trapped hm hp)]; rfl
  rw [turn, hsettle, if_neg (by simp [not_ended_of_trapped hm hp])]

/-- Redirection lets a trapped thread step at the target (R238, R246). -/
theorem redirect_resumes (hm : s.refusalMark = none) (hp : s.port = .trapped tr) (target : Word) :
    ((HostAction.redirect target).apply s).stopped = none := by
  simp [HostAction.apply, State.stopped, Port.resume, hm, hp]

end

/-! ## The statements -/

/-- Settles O16: a stopped thread's step is its stop, a run that ended keeps its end state, and a redirection makes the
port ready. -/
theorem stoppedThreadsTakeNoStep : Obligations.StoppedThreadsTakeNoStep := by
  refine ⟨fun s r hm => ?_, fun s code hm hp => ?_, fun s hend acts schedule => ?_, fun s tr target hm hp => ?_⟩
  · exact ⟨step_of_stopped (stopped_of_mark hm),
      runWith_ended (ended_of_mark_or_exited (.inl (hm ▸ Option.some_ne_none r)))⟩
  · exact ⟨step_of_stopped (stopped_of_exited hm hp), runWith_ended (ended_of_mark_or_exited (.inr ⟨code, hp⟩))⟩
  · exact runWith_cons_of_ended (ended_of_mark_or_exited hend) acts schedule
  · refine ⟨step_of_stopped (stopped_of_trapped hm hp), turn_of_trapped hm hp [], ?_⟩
    rw [turn_of_trapped hm hp]
    exact ⟨redirect_resumes hm hp target, rfl, rfl⟩

/-- Settles O20: a Trap writes the record and the port alone, and a completed instruction writes neither mark. -/
theorem trapLeavesTheStateUnchanged : Obligations.TrapLeavesTheStateUnchanged := by
  intro s t h
  rcases step_next_trap_or_completes h with ⟨l, k, info, rfl, hpc, -⟩ | ⟨sh, l, hc⟩
  · refine ⟨rfl, fun tr hp => ?_, nofun⟩
    cases hp
    exact ⟨rfl, rfl, rfl, hpc⟩
  · refine ⟨hc.refusalMark, fun tr hp => ?_, fun _ => hc.trapRecord⟩
    exact absurd (isTrapped_of_port hp) (by simp [hc.not_trapped])

/-- Settles O22: a Trap is one of the two the block raises, and a completion ends in one of the other three outcomes. -/
theorem outcomePortTellsWherePcIs : Obligations.OutcomePortTellsWherePcIs := by
  intro s t h
  rcases step_next_trap_or_completes h with ⟨l, k, info, rfl, -, hraised⟩ | ⟨sh, l, hc⟩
  · refine ⟨rfl, ?_⟩
    rcases hraised with ⟨rfl, haddr, hnone⟩ | ⟨rfl, a, ha⟩
    · exact .inl ⟨rfl, haddr, hnone⟩
    · exact .inr ⟨rfl, a, ha, by cases a <;> decide⟩
  · rcases hc.ends with hp | hp | ⟨code, hp, hpc⟩ <;> rw [hp]
    exact hpc

/-- Settles O58: a swap writes the CpuState and the port. -/
theorem snapshotSwapReplacesTheCpuState : Obligations.SnapshotSwapReplacesTheCpuState :=
  fun _ _ => ⟨rfl, rfl, rfl, rfl⟩

end Sys2Proof.Machine
end
